-- ==== Sys2Proof/Word.lean ====
section
/-! DEFINITION. The words of the block: a byte of a buffer and a command word. -/

namespace Sys2Proof

/-- A byte of a stream buffer (`10_state.md` R21): 8 bits, bit `k` of weight `2^k` (`20_memory.md` R51). -/
abbrev Byte := BitVec 8

/-- A command word (`30_encoding.md` R70, R71): 64 bits, bit 0 the least significant. -/
abbrev CmdWord := BitVec 64

end Sys2Proof
end

