-- ==== Sys2Proof/Config.lean ====
section
/-! DEFINITION. What is fixed when the block is built (`00_scope.md` R6, `10_state.md` R35), and the free values. -/

namespace Sys2Proof

/-- The two open parameters of R6: the largest buffer in bytes and the largest sequence register in bits.
`none` is "unbounded". -/
structure Config where
  /-- `MAXBUF` -/
  maxBuf : Option Nat
  /-- `QMAX` -/
  qMax   : Option Nat
  deriving DecidableEq, Repr

namespace Config

/-- Both parameters unbounded: "the model is exactly the source's semantics" (R6). -/
def unbounded : Config := { maxBuf := none, qMax := none }

/-- A limit is respected by a length (`10_state.md` R36). -/
def within (limit : Option Nat) (n : Nat) : Bool :=
  match limit with
  | none => true
  | some m => n ≤ m

/-- A buffer of `n` bytes fits in `MAXBUF` (R36). -/
def bufFits (c : Config) (n : Nat) : Bool := within c.maxBuf n

/-- A sequence register of `n` bits fits in `QMAX` (R36). -/
def seqFits (c : Config) (n : Nat) : Bool := within c.qMax n

/-- The values R6 allows: `MAXBUF` from 1 to `2^32 - 1` or unbounded, `QMAX` at least 256 or unbounded. -/
def legal (c : Config) : Bool :=
  (match c.maxBuf with
   | none => true
   | some m => 1 ≤ m && m < 2 ^ 32) &&
  (match c.qMax with
   | none => true
   | some m => 256 ≤ m)

/-- `WMAX` of R6: the largest width of one pattern command. -/
def wMax : Nat := 32

/-- `AW` of R6: the width in bits of a byte index. -/
def aw : Nat := 32

/-- `PAIRS` of R6: the width pairs (S, L) of the ranked-escape codec. -/
def pairs : List (Nat × Nat) := [(2, 10), (3, 11), (4, 12), (5, 13), (6, 14), (7, 15)]

/-- FREE VALUE (assumption 5): the contents of a buffer the spec leaves unspecified (R243, R247). -/
opaque freeBuf : Nat → List Byte

/-- FREE VALUE (assumption 5): a cursor byte index the spec leaves unspecified (R243, R247). -/
opaque freeIndex : Nat → Nat

/-- FREE VALUE (assumption 5): a cursor bit offset the spec leaves unspecified (R243, R247). -/
opaque freeOffset : Nat → Fin 8

/-- FREE VALUE (assumption 5): the contents of a sequence register the spec leaves unspecified (R243). -/
opaque freeSeq : Nat → List Bool

end Config

end Sys2Proof
end

