-- ==== Sys2Proof/Syntax.lean ====
section
/-! DEFINITION. The commands of the block: one constructor per row of `opcode_table.json` (`30_encoding.md` R74). -/

namespace Sys2Proof

/-- A stream selector (`10_state.md` R26): stream 0 is `IN`, stream 1 is `OUT`. -/
inductive StreamId where
  | s0
  | s1
  deriving DecidableEq, Repr

/-- A sequence register selector (`10_state.md` R27). -/
inductive SeqId where
  | q0
  | q1
  deriving DecidableEq, Repr

/-- What travels on the command port (R70): the 64-bit word and, beside it, the payload. -/
structure Command where
  word    : CmdWord
  payload : List Byte
  deriving DecidableEq, Repr

/-- The twenty-eight commands (R74), each with the operands of its form (R72). A width, a pair (S, L) or an
algorithm identifier out of range is a term here and is refused by `Instr.wf`. -/
inductive Instr where
  /-- `BS.NEW Ss` -/
  | bsNew   (s : StreamId)
  /-- `BS.LOAD Ss, payload` -/
  | bsLoad  (s : StreamId) (payload : List Byte)
  /-- `BS.PUT Ss, byte` -/
  | bsPut   (s : StreamId) (byte : Byte)
  /-- `BS.PUTF Ss, byte` -/
  | bsPutf  (s : StreamId) (byte : Byte)
  /-- `BS.PUTB Ss, N, pattern` -/
  | bsPutb  (s : StreamId) (n : Nat) (pattern : Nat)
  /-- `BS.PUTQ Ss, Qb` -/
  | bsPutq  (s : StreamId) (q : SeqId)
  /-- `BS.RDB Ss, N` -/
  | bsRdb   (s : StreamId) (n : Nat)
  /-- `BS.PKB Ss, N` -/
  | bsPkb   (s : StreamId) (n : Nat)
  /-- `BS.RD Ss` -/
  | bsRd    (s : StreamId)
  /-- `BS.PK Ss` -/
  | bsPk    (s : StreamId)
  /-- `BS.SEEK Ss, byteIndex, k` -/
  | bsSeek  (s : StreamId) (byteIndex : BitVec 32) (k : Fin 8)
  /-- `BS.ATEND Ss` -/
  | bsAtend (s : StreamId)
  /-- `BS.TELL Ss` -/
  | bsTell  (s : StreamId)
  /-- `BS.LEN Ss` -/
  | bsLen   (s : StreamId)
  /-- `BS.DUMP Ss` -/
  | bsDump  (s : StreamId)
  /-- `Q.CLR Qa` -/
  | qClr    (a : SeqId)
  /-- `Q.ADD1 Qa, bit` -/
  | qAdd1   (a : SeqId) (bit : Bool)
  /-- `Q.ADDN Qa, N, pattern` -/
  | qAddn   (a : SeqId) (n : Nat) (pattern : Nat)
  /-- `Q.ADDQ Qa, Qb` -/
  | qAddq   (a : SeqId) (b : SeqId)
  /-- `Q.UINT Qa` -/
  | qUint   (a : SeqId)
  /-- `Q.HASH Qa` -/
  | qHash   (a : SeqId)
  /-- `Q.LEN Qa` -/
  | qLen    (a : SeqId)
  /-- `HUF.ENC` -/
  | hufEnc
  /-- `HUF.DEC` -/
  | hufDec
  /-- `REC.ENC S, L` -/
  | recEnc  (short long : Nat)
  /-- `REC.DEC S, L` -/
  | recDec  (short long : Nat)
  /-- `DRV.COMP alg, payload` -/
  | drvComp (alg : Nat) (payload : List Byte)
  /-- `DRV.DECOMP alg, payload` -/
  | drvDecomp (alg : Nat) (payload : List Byte)
  deriving DecidableEq, Repr

/-- The pseudo-commands of R79. None has an encoding of its own: see `Pseudo.expand`. -/
inductive Pseudo where
  /-- `BS.SEEK Ss, i`: the bit offset left out -/
  | seekByte (s : StreamId) (i : BitVec 32)
  /-- `BS.REWIND Ss` -/
  | rewind   (s : StreamId)
  /-- `BS.PUTBIT Ss, bit` -/
  | putBit   (s : StreamId) (bit : Bool)
  deriving DecidableEq, Repr

end Sys2Proof
end

