-- ==== Sys2Proof/WellFormed.lean ====
section
/-! DEFINITION. Which terms of `Instr` are commands the block has (`30_encoding.md` R73, R75). -/

namespace Sys2Proof

/-- A pattern operand (R73): the width is at most `WMAX` and no bit stands at or above it. -/
def wfPattern (n pattern : Nat) : Bool := n ≤ Config.wMax && pattern < 2 ^ n

/-- A width operand (R73). -/
def wfWidth (n : Nat) : Bool := n ≤ Config.wMax

/-- A pair (S, L) the codec supports (`43_ranked_escape.md` R200). -/
def wfPair (short long : Nat) : Bool := Config.pairs.contains (short, long)

/-- An algorithm identifier (R80). -/
def wfAlg (alg : Nat) : Bool := alg ≤ 7

/-- A command all of whose operands are legal. -/
def Instr.wf : Instr → Bool
  | .bsNew _ => true
  | .bsLoad _ _ => true
  | .bsPut _ _ => true
  | .bsPutf _ _ => true
  | .bsPutb _ n p => wfPattern n p
  | .bsPutq _ _ => true
  | .bsRdb _ n => wfWidth n
  | .bsPkb _ n => wfWidth n
  | .bsRd _ => true
  | .bsPk _ => true
  | .bsSeek _ _ _ => true
  | .bsAtend _ => true
  | .bsTell _ => true
  | .bsLen _ => true
  | .bsDump _ => true
  | .qClr _ => true
  | .qAdd1 _ _ => true
  | .qAddn _ n p => wfPattern n p
  | .qAddq _ _ => true
  | .qUint _ => true
  | .qHash _ => true
  | .qLen _ => true
  | .hufEnc => true
  | .hufDec => true
  | .recEnc short long => wfPair short long
  | .recDec short long => wfPair short long
  | .drvComp alg _ => wfAlg alg
  | .drvDecomp alg _ => wfAlg alg

end Sys2Proof
end

