-- ==== Sys2Proof/Decode.lean ====
section
/-! DEFINITION. The command decoder and encoder, both from the format `CMD64` and its forms
(`30_encoding.md` R71 to R75), and the rows of `opcode_table.json`. -/

namespace Sys2Proof

/-- Why a command is illegal (R75). -/
inductive Illegal where
  /-- the opcode is not in R74 -/
  | opcode
  /-- the field `zero` is not 0 -/
  | zeroField
  /-- a field the form does not use is not 0 -/
  | unusedField
  /-- a stream or sequence selector is 2 or 3 -/
  | selector
  /-- the width is above `WMAX` -/
  | width
  /-- a bit of `imm` at or above the operand's width is set -/
  | operand
  /-- the pair (S, L) is not in `PAIRS` -/
  | pair
  /-- the algorithm identifier is above 7 -/
  | algorithm
  /-- a payload accompanies a command that takes none -/
  | payload
  deriving DecidableEq, Repr

/-- `v[hi:lo]` of R10 for a word. -/
def slice (w : CmdWord) (hi lo : Nat) : Nat := w.toNat / 2 ^ lo % 2 ^ (hi - lo + 1)

/-- The seven fields of `CMD64` (R71). -/
structure Fields where
  opcode : Nat
  a      : Nat
  b      : Nat
  n      : Nat
  k      : Nat
  zero   : Nat
  imm    : Nat
  deriving DecidableEq, Repr

/-- The fields of a word (R71). -/
def fieldsOf (w : CmdWord) : Fields where
  opcode := slice w 63 56
  a      := slice w 55 54
  b      := slice w 53 52
  n      := slice w 51 46
  k      := slice w 45 43
  zero   := slice w 42 32
  imm    := slice w 31 0

/-- The word with these fields (R71). -/
def wordOf (f : Fields) : CmdWord :=
  BitVec.ofNat 64 (f.opcode * 2 ^ 56 + f.a * 2 ^ 54 + f.b * 2 ^ 52 + f.n * 2 ^ 46 + f.k * 2 ^ 43
    + f.zero * 2 ^ 32 + f.imm)

/-! ### The forms of R72. Each checks the fields it does not use, then its operands (R73). -/

/-- A stream selector (R73). -/
def streamSel : Nat → Except Illegal StreamId
  | 0 => .ok .s0
  | 1 => .ok .s1
  | _ => .error .selector

/-- A sequence selector (R73). -/
def seqSel : Nat → Except Illegal SeqId
  | 0 => .ok .q0
  | 1 => .ok .q1
  | _ => .error .selector

/-- Form `F0`. -/
def formF0 (f : Fields) (i : Instr) : Except Illegal Instr :=
  if f.a = 0 ∧ f.b = 0 ∧ f.n = 0 ∧ f.k = 0 ∧ f.imm = 0 then .ok i else .error .unusedField

/-- Form `FS`. -/
def formFS (f : Fields) (mk : StreamId → Instr) : Except Illegal Instr :=
  if f.b = 0 ∧ f.n = 0 ∧ f.k = 0 ∧ f.imm = 0 then (streamSel f.a).map mk else .error .unusedField

/-- Form `FSB`. -/
def formFSB (f : Fields) (mk : StreamId → Byte → Instr) : Except Illegal Instr :=
  if f.b = 0 ∧ f.n = 0 ∧ f.k = 0 then
    if f.imm < 2 ^ 8 then (streamSel f.a).map (mk · (BitVec.ofNat 8 f.imm)) else .error .operand
  else .error .unusedField

/-- Form `FSN`. -/
def formFSN (f : Fields) (mk : StreamId → Nat → Instr) : Except Illegal Instr :=
  if f.b = 0 ∧ f.k = 0 ∧ f.imm = 0 then
    if wfWidth f.n then (streamSel f.a).map (mk · f.n) else .error .width
  else .error .unusedField

/-- Form `FSNP`. -/
def formFSNP (f : Fields) (mk : StreamId → Nat → Nat → Instr) : Except Illegal Instr :=
  if f.b = 0 ∧ f.k = 0 then
    if wfWidth f.n then
      if wfPattern f.n f.imm then (streamSel f.a).map (mk · f.n f.imm) else .error .operand
    else .error .width
  else .error .unusedField

/-- Form `FSQ`. -/
def formFSQ (f : Fields) (mk : StreamId → SeqId → Instr) : Except Illegal Instr :=
  if f.n = 0 ∧ f.k = 0 ∧ f.imm = 0 then
    match streamSel f.a, seqSel f.b with
    | .ok s, .ok q => .ok (mk s q)
    | _, _ => .error .selector
  else .error .unusedField

/-- Form `FSK`. -/
def formFSK (f : Fields) (mk : StreamId → BitVec 32 → Fin 8 → Instr) : Except Illegal Instr :=
  if f.b = 0 ∧ f.n = 0 then
    (streamSel f.a).map (mk · (BitVec.ofNat 32 f.imm) (Fin.ofNat 8 f.k))
  else .error .unusedField

/-- Form `FQ`. -/
def formFQ (f : Fields) (mk : SeqId → Instr) : Except Illegal Instr :=
  if f.b = 0 ∧ f.n = 0 ∧ f.k = 0 ∧ f.imm = 0 then (seqSel f.a).map mk else .error .unusedField

/-- Form `FQ1`. -/
def formFQ1 (f : Fields) (mk : SeqId → Bool → Instr) : Except Illegal Instr :=
  if f.b = 0 ∧ f.n = 0 ∧ f.k = 0 then
    if f.imm < 2 then (seqSel f.a).map (mk · (f.imm == 1)) else .error .operand
  else .error .unusedField

/-- Form `FQNP`. -/
def formFQNP (f : Fields) (mk : SeqId → Nat → Nat → Instr) : Except Illegal Instr :=
  if f.b = 0 ∧ f.k = 0 then
    if wfWidth f.n then
      if wfPattern f.n f.imm then (seqSel f.a).map (mk · f.n f.imm) else .error .operand
    else .error .width
  else .error .unusedField

/-- Form `FQQ`. -/
def formFQQ (f : Fields) (mk : SeqId → SeqId → Instr) : Except Illegal Instr :=
  if f.n = 0 ∧ f.k = 0 ∧ f.imm = 0 then
    match seqSel f.a, seqSel f.b with
    | .ok a, .ok b => .ok (mk a b)
    | _, _ => .error .selector
  else .error .unusedField

/-- Form `FSL`. -/
def formFSL (f : Fields) (mk : Nat → Nat → Instr) : Except Illegal Instr :=
  if f.a = 0 ∧ f.b = 0 ∧ f.n = 0 ∧ f.k = 0 then
    if f.imm < 2 ^ 16 then
      if wfPair (f.imm % 2 ^ 8) (f.imm / 2 ^ 8) then .ok (mk (f.imm % 2 ^ 8) (f.imm / 2 ^ 8))
      else .error .pair
    else .error .operand
  else .error .unusedField

/-- Form `FALG`. -/
def formFALG (f : Fields) (mk : Nat → Instr) : Except Illegal Instr :=
  if f.a = 0 ∧ f.b = 0 ∧ f.n = 0 ∧ f.k = 0 then
    if f.imm < 2 ^ 8 then
      if wfAlg f.imm then .ok (mk f.imm) else .error .algorithm
    else .error .operand
  else .error .unusedField

/-- A command without a payload (R70). -/
def noPayload (payload : List Byte) (r : Except Illegal Instr) : Except Illegal Instr :=
  if payload = [] then r else .error .payload

/-- The opcode map of R74, on the fields of a word. -/
def decodeFields (f : Fields) (payload : List Byte) : Except Illegal Instr :=
  match f.opcode with
  | 0x00 => noPayload payload (formFS f .bsNew)
  | 0x01 => formFS f (.bsLoad · payload)
  | 0x02 => noPayload payload (formFSB f .bsPut)
  | 0x03 => noPayload payload (formFSB f .bsPutf)
  | 0x04 => noPayload payload (formFSNP f .bsPutb)
  | 0x05 => noPayload payload (formFSQ f .bsPutq)
  | 0x06 => noPayload payload (formFSN f .bsRdb)
  | 0x07 => noPayload payload (formFSN f .bsPkb)
  | 0x08 => noPayload payload (formFS f .bsRd)
  | 0x09 => noPayload payload (formFS f .bsPk)
  | 0x0A => noPayload payload (formFSK f .bsSeek)
  | 0x0B => noPayload payload (formFS f .bsAtend)
  | 0x0C => noPayload payload (formFS f .bsTell)
  | 0x0D => noPayload payload (formFS f .bsLen)
  | 0x0E => noPayload payload (formFS f .bsDump)
  | 0x10 => noPayload payload (formFQ f .qClr)
  | 0x11 => noPayload payload (formFQ1 f .qAdd1)
  | 0x12 => noPayload payload (formFQNP f .qAddn)
  | 0x13 => noPayload payload (formFQQ f .qAddq)
  | 0x14 => noPayload payload (formFQ f .qUint)
  | 0x15 => noPayload payload (formFQ f .qHash)
  | 0x16 => noPayload payload (formFQ f .qLen)
  | 0x20 => noPayload payload (formF0 f .hufEnc)
  | 0x21 => noPayload payload (formF0 f .hufDec)
  | 0x22 => noPayload payload (formFSL f .recEnc)
  | 0x23 => noPayload payload (formFSL f .recDec)
  | 0x30 => formFALG f (.drvComp · payload)
  | 0x31 => formFALG f (.drvDecomp · payload)
  | _ => .error .opcode

/-- The command a (word, payload) pair is, or why it is illegal (R75): total on every pair. -/
def decode (c : Command) : Except Illegal Instr :=
  let f := fieldsOf c.word
  if f.zero = 0 then decodeFields f c.payload else .error .zeroField

/-! ### The encoder, from the same tables -/

/-- A stream selector's field value (R73). -/
def StreamId.code : StreamId → Nat
  | .s0 => 0
  | .s1 => 1

/-- A sequence selector's field value (R73). -/
def SeqId.code : SeqId → Nat
  | .q0 => 0
  | .q1 => 1

/-- Fields that are all 0 but the opcode; a form's fields are set on top. -/
def opcodeOnly (opcode : Nat) : Fields :=
  { opcode := opcode, a := 0, b := 0, n := 0, k := 0, zero := 0, imm := 0 }

/-- The fields of a command (R72, R74). -/
def Instr.fields : Instr → Fields
  | .bsNew s => { opcodeOnly 0x00 with a := s.code }
  | .bsLoad s _ => { opcodeOnly 0x01 with a := s.code }
  | .bsPut s v => { opcodeOnly 0x02 with a := s.code, imm := v.toNat }
  | .bsPutf s v => { opcodeOnly 0x03 with a := s.code, imm := v.toNat }
  | .bsPutb s n p => { opcodeOnly 0x04 with a := s.code, n := n, imm := p }
  | .bsPutq s q => { opcodeOnly 0x05 with a := s.code, b := q.code }
  | .bsRdb s n => { opcodeOnly 0x06 with a := s.code, n := n }
  | .bsPkb s n => { opcodeOnly 0x07 with a := s.code, n := n }
  | .bsRd s => { opcodeOnly 0x08 with a := s.code }
  | .bsPk s => { opcodeOnly 0x09 with a := s.code }
  | .bsSeek s i k => { opcodeOnly 0x0A with a := s.code, k := k.val, imm := i.toNat }
  | .bsAtend s => { opcodeOnly 0x0B with a := s.code }
  | .bsTell s => { opcodeOnly 0x0C with a := s.code }
  | .bsLen s => { opcodeOnly 0x0D with a := s.code }
  | .bsDump s => { opcodeOnly 0x0E with a := s.code }
  | .qClr a => { opcodeOnly 0x10 with a := a.code }
  | .qAdd1 a bit => { opcodeOnly 0x11 with a := a.code, imm := bit.toNat }
  | .qAddn a n p => { opcodeOnly 0x12 with a := a.code, n := n, imm := p }
  | .qAddq a b => { opcodeOnly 0x13 with a := a.code, b := b.code }
  | .qUint a => { opcodeOnly 0x14 with a := a.code }
  | .qHash a => { opcodeOnly 0x15 with a := a.code }
  | .qLen a => { opcodeOnly 0x16 with a := a.code }
  | .hufEnc => opcodeOnly 0x20
  | .hufDec => opcodeOnly 0x21
  | .recEnc short long => { opcodeOnly 0x22 with imm := long * 2 ^ 8 + short }
  | .recDec short long => { opcodeOnly 0x23 with imm := long * 2 ^ 8 + short }
  | .drvComp alg _ => { opcodeOnly 0x30 with imm := alg }
  | .drvDecomp alg _ => { opcodeOnly 0x31 with imm := alg }

/-- The payload of a command (R70): empty but for three commands. -/
def Instr.payload : Instr → List Byte
  | .bsLoad _ p => p
  | .drvComp _ p => p
  | .drvDecomp _ p => p
  | _ => []

/-- The (word, payload) pair of a command; meant for well-formed ones. -/
def encode (i : Instr) : Command := { word := wordOf i.fields, payload := i.payload }

/-! ### The rows of `opcode_table.json`, for checking the decoder against -/

/-- What a row's mask cannot express (`30_encoding.md`, introduction). -/
inductive RowCheck where
  | none
  /-- `n` at most 32 -/
  | width
  /-- `n` at most 32 and the bits of `imm` at and above N zero -/
  | pattern
  /-- (S, L) in `PAIRS` -/
  | pair
  deriving DecidableEq, Repr

/-- A row: a word selects it when `w & mask == match`. -/
structure OpRow where
  mnemonic     : String
  pattern      : CmdWord
  mask         : CmdWord
  check        : RowCheck
  takesPayload : Bool
  deriving DecidableEq, Repr

/-- The BS rows. -/
def bsRows : List OpRow :=
  [⟨"BS.NEW", 0x0000000000000000, 0xFFBFFFFFFFFFFFFF, .none, false⟩,
   ⟨"BS.LOAD", 0x0100000000000000, 0xFFBFFFFFFFFFFFFF, .none, true⟩,
   ⟨"BS.PUT", 0x0200000000000000, 0xFFBFFFFFFFFFFF00, .none, false⟩,
   ⟨"BS.PUTF", 0x0300000000000000, 0xFFBFFFFFFFFFFF00, .none, false⟩,
   ⟨"BS.PUTB", 0x0400000000000000, 0xFFB03FFF00000000, .pattern, false⟩,
   ⟨"BS.PUTQ", 0x0500000000000000, 0xFFAFFFFFFFFFFFFF, .none, false⟩,
   ⟨"BS.RDB", 0x0600000000000000, 0xFFB03FFFFFFFFFFF, .width, false⟩,
   ⟨"BS.PKB", 0x0700000000000000, 0xFFB03FFFFFFFFFFF, .width, false⟩,
   ⟨"BS.RD", 0x0800000000000000, 0xFFBFFFFFFFFFFFFF, .none, false⟩,
   ⟨"BS.PK", 0x0900000000000000, 0xFFBFFFFFFFFFFFFF, .none, false⟩,
   ⟨"BS.SEEK", 0x0A00000000000000, 0xFFBFC7FF00000000, .none, false⟩,
   ⟨"BS.ATEND", 0x0B00000000000000, 0xFFBFFFFFFFFFFFFF, .none, false⟩,
   ⟨"BS.TELL", 0x0C00000000000000, 0xFFBFFFFFFFFFFFFF, .none, false⟩,
   ⟨"BS.LEN", 0x0D00000000000000, 0xFFBFFFFFFFFFFFFF, .none, false⟩,
   ⟨"BS.DUMP", 0x0E00000000000000, 0xFFBFFFFFFFFFFFFF, .none, false⟩]

/-- The Q, HUF, REC and DRV rows. -/
def otherRows : List OpRow :=
  [⟨"Q.CLR", 0x1000000000000000, 0xFFBFFFFFFFFFFFFF, .none, false⟩,
   ⟨"Q.ADD1", 0x1100000000000000, 0xFFBFFFFFFFFFFFFE, .none, false⟩,
   ⟨"Q.ADDN", 0x1200000000000000, 0xFFB03FFF00000000, .pattern, false⟩,
   ⟨"Q.ADDQ", 0x1300000000000000, 0xFFAFFFFFFFFFFFFF, .none, false⟩,
   ⟨"Q.UINT", 0x1400000000000000, 0xFFBFFFFFFFFFFFFF, .none, false⟩,
   ⟨"Q.HASH", 0x1500000000000000, 0xFFBFFFFFFFFFFFFF, .none, false⟩,
   ⟨"Q.LEN", 0x1600000000000000, 0xFFBFFFFFFFFFFFFF, .none, false⟩,
   ⟨"HUF.ENC", 0x2000000000000000, 0xFFFFFFFFFFFFFFFF, .none, false⟩,
   ⟨"HUF.DEC", 0x2100000000000000, 0xFFFFFFFFFFFFFFFF, .none, false⟩,
   ⟨"REC.ENC", 0x2200000000000000, 0xFFFFFFFFFFFF0000, .pair, false⟩,
   ⟨"REC.DEC", 0x2300000000000000, 0xFFFFFFFFFFFF0000, .pair, false⟩,
   ⟨"DRV.COMP", 0x3000000000000000, 0xFFFFFFFFFFFFFFF8, .none, true⟩,
   ⟨"DRV.DECOMP", 0x3100000000000000, 0xFFFFFFFFFFFFFFF8, .none, true⟩]

/-- All rows of the table, in its order. -/
def opRows : List OpRow := bsRows ++ otherRows

/-- A word selects a row. -/
def OpRow.selects (r : OpRow) (w : CmdWord) : Bool := w &&& r.mask == r.pattern

/-- A command keeps a row's constraints and payload column. -/
def OpRow.admits (r : OpRow) (c : Command) : Bool :=
  (match r.check with
   | .none => true
   | .width => slice c.word 51 46 ≤ 32
   | .pattern => slice c.word 51 46 ≤ 32 && slice c.word 31 0 < 2 ^ slice c.word 51 46
   | .pair => Config.pairs.contains (slice c.word 7 0, slice c.word 15 8)) &&
  (r.takesPayload || c.payload == [])

/-- The mnemonic of a command (R74). -/
def Instr.mnemonic : Instr → String
  | .bsNew _ => "BS.NEW"
  | .bsLoad _ _ => "BS.LOAD"
  | .bsPut _ _ => "BS.PUT"
  | .bsPutf _ _ => "BS.PUTF"
  | .bsPutb _ _ _ => "BS.PUTB"
  | .bsPutq _ _ => "BS.PUTQ"
  | .bsRdb _ _ => "BS.RDB"
  | .bsPkb _ _ => "BS.PKB"
  | .bsRd _ => "BS.RD"
  | .bsPk _ => "BS.PK"
  | .bsSeek _ _ _ => "BS.SEEK"
  | .bsAtend _ => "BS.ATEND"
  | .bsTell _ => "BS.TELL"
  | .bsLen _ => "BS.LEN"
  | .bsDump _ => "BS.DUMP"
  | .qClr _ => "Q.CLR"
  | .qAdd1 _ _ => "Q.ADD1"
  | .qAddn _ _ _ => "Q.ADDN"
  | .qAddq _ _ => "Q.ADDQ"
  | .qUint _ => "Q.UINT"
  | .qHash _ => "Q.HASH"
  | .qLen _ => "Q.LEN"
  | .hufEnc => "HUF.ENC"
  | .hufDec => "HUF.DEC"
  | .recEnc _ _ => "REC.ENC"
  | .recDec _ _ => "REC.DEC"
  | .drvComp _ _ => "DRV.COMP"
  | .drvDecomp _ _ => "DRV.DECOMP"

/-! ### Assembler text (R78, R79) -/

/-- A stream in assembler text. -/
def StreamId.asm : StreamId → String
  | .s0 => "S0"
  | .s1 => "S1"

/-- A sequence register in assembler text. -/
def SeqId.asm : SeqId → String
  | .q0 => "Q0"
  | .q1 => "Q1"

/-- A payload in assembler text: a bracketed list of decimal bytes. -/
def asmPayload (payload : List Byte) : String :=
  "[" ++ ", ".intercalate (payload.map fun v => toString v.toNat) ++ "]"

/-- The operands of a command in the operand order of R78. -/
def Instr.asmOperands : Instr → List String
  | .bsNew s | .bsRd s | .bsPk s | .bsAtend s | .bsTell s | .bsLen s | .bsDump s => [s.asm]
  | .bsLoad s payload => [s.asm, asmPayload payload]
  | .bsPut s v | .bsPutf s v => [s.asm, toString v.toNat]
  | .bsPutb s n p => [s.asm, toString n, toString p]
  | .bsPutq s q => [s.asm, q.asm]
  | .bsRdb s n | .bsPkb s n => [s.asm, toString n]
  | .bsSeek s i k => [s.asm, toString i.toNat, toString k.val]
  | .qClr a | .qUint a | .qHash a | .qLen a => [a.asm]
  | .qAdd1 a bit => [a.asm, toString bit.toNat]
  | .qAddn a n p => [a.asm, toString n, toString p]
  | .qAddq a b => [a.asm, b.asm]
  | .hufEnc | .hufDec => []
  | .recEnc short long | .recDec short long => [toString short, toString long]
  | .drvComp alg payload | .drvDecomp alg payload => [toString alg, asmPayload payload]

/-- The assembler line of a command (R78). -/
def Instr.asm (i : Instr) : String := " ".intercalate (i.mnemonic :: [", ".intercalate i.asmOperands])

/-- The command a pseudo-command abbreviates (R79). -/
def Pseudo.expand : Pseudo → Instr
  | .seekByte s i => .bsSeek s i 0
  | .rewind s => .bsSeek s 0 0
  | .putBit s bit => .bsPutb s 1 bit.toNat

/-! ### The host's numbering -/

/-- The command word made of the first `nbits` bits of `w`, every bit above them 0. -/
def tableWord (nbits w : Nat) : CmdWord := BitVec.ofNat 64 (w % 2 ^ nbits)

/-- The command the decoder reads from a word numbered as `opcode_table.json` numbers it, with no payload. -/
def decodeTableWord (nbits w : Nat) : Option Instr :=
  (decode { word := tableWord nbits w, payload := [] }).toOption

end Sys2Proof
end

