-- ==== Sys2Proof/Machine/State.lean ====
section
/-! DEFINITION. The state of the block (`10_state.md` R20), the host's two ports, and the reasons to stop. -/

namespace Sys2Proof.Machine

/-- The memory of one stream (`10_state.md` R21, `20_memory.md` R50): the byte at index `i` is the `i`-th of the
list, index `length` is the append position, no index above it exists (assumption 1). -/
abbrev Memory := List Byte

/-- A stream (R21, R22): its buffer and its cursor. -/
structure Stream where
  /-- `s.buf`; `s.len` is its length -/
  buf : Memory
  /-- `s.bi`, the cursor's byte index -/
  bi  : Nat
  /-- `s.bo`, the cursor's bit offset -/
  bo  : Fin 8
  deriving DecidableEq, Repr

/-- A sequence register or codeword (R27): the first-added bit first. -/
abbrev Seq := List Bool

/-- The causes of a fatal fault (`60_exceptions.md` R241). -/
inductive Cause where
  | readPastEnd
  | putfastPrecond
  | seekRange
  | appendUnaligned
  | illegalCommand
  | codecPrecond
  | codecInvariant
  | driverAssert
  | capacity
  deriving DecidableEq, Repr

/-- How the pseudocode of a command ends before its last line: `raise Fatal(C)` (`60_exceptions.md` R242), or a use of
`MemRead` or `MemWrite` outside the indices they are defined for (`00_scope.md` R11). -/
inductive Stop where
  | fatal (c : Cause)
  | outside
  deriving DecidableEq, Repr

/-- A response (`30_encoding.md` R76). -/
structure Response where
  ok      : Bool
  cause   : BitVec 4
  value   : Nat
  payload : List Byte
  deriving DecidableEq, Repr

/-- What the host can do to the block: hand it a command (`30_encoding.md` R70), or assert reset between commands
(`70_reset_and_hazards.md` R270). -/
inductive HostEvent where
  | command (c : Command)
  | reset
  deriving DecidableEq, Repr

/-- The state. `s0` to `cause` are the architectural state of R20; the last four fields are the model's own
(assumptions 2 to 5). -/
structure State where
  /-- stream 0, `IN` -/
  s0        : Stream
  /-- stream 1, `OUT` -/
  s1        : Stream
  /-- sequence register 0 -/
  q0        : Seq
  /-- sequence register 1 -/
  q1        : Seq
  /-- `STATUS.FATAL` (R29) -/
  fatal     : Bool
  /-- `STATUS.CAUSE` (R29) -/
  cause     : BitVec 4
  /-- the parameters the block was built with (R6, R35) -/
  cfg       : Config
  /-- what the host has queued, oldest first -/
  pending   : List HostEvent
  /-- the responses given, oldest first (`00_scope.md` R9) -/
  responses : List Response
  /-- how many free values have been used -/
  freeCount : Nat
  deriving DecidableEq, Repr

/-- Why a step can stop. -/
inductive Fault where
  /-- `MemRead` or `MemWrite` outside the indices R11 defines it for. Raised by the stream writes when the cursor's
  byte index is above the buffer's length, which R23 rules out. Safe: the model stops where the spec says nothing. -/
  | memDomain
  deriving DecidableEq, Repr

/-- Why an instruction can be refused. -/
inductive Refusal where
  /-- The instruction has no meaning in the model. No arm of `exec` raises it. Safe. -/
  | notModelled (mnemonic : String)
  deriving DecidableEq, Repr

/-- A stream with an empty buffer and its cursor at (0,0): "Construct empty" (`10_state.md` R34). -/
def Stream.empty : Stream := { buf := [], bi := 0, bo := 0 }

/-- The state right after reset of a block built with these parameters (R34, R271). -/
def State.resetOf (cfg : Config) : State where
  s0        := Stream.empty
  s1        := Stream.empty
  q0        := []
  q1        := []
  fatal     := false
  cause     := 0
  cfg       := cfg
  pending   := []
  responses := []
  freeCount := 0

/-- The machine right after reset, both open parameters unbounded (R34, R271; assumption 4). -/
def State.reset : State := State.resetOf Config.unbounded

end Sys2Proof.Machine
end

