-- ==== Sys2Proof/Machine/Flags.lean ====
section
/-! DEFINITION. The status register (`10_state.md` R29) and the fields of a response that show it (`30_encoding.md`
R76). There are no condition codes (R31). -/

namespace Sys2Proof.Machine

/-- The code of a cause (`60_exceptions.md` R241). 0 is `NONE`; 10 to 15 are reserved. -/
def Cause.code : Cause → BitVec 4
  | .readPastEnd => 1
  | .putfastPrecond => 2
  | .seekRange => 3
  | .appendUnaligned => 4
  | .illegalCommand => 5
  | .codecPrecond => 6
  | .codecInvariant => 7
  | .driverAssert => 8
  | .capacity => 9

/-- `STATUS` after a fatal fault (R242): `FATAL <- 1`, `CAUSE <- C`. -/
def State.setStatus (s : State) (c : Cause) : State := { s with fatal := true, cause := c.code }

/-- The response of a command that completed (R76): `cause` is `STATUS.CAUSE`, which is 0 then. -/
def State.okResponse (s : State) (value : Nat) (payload : List Byte) : Response :=
  { ok := true, cause := s.cause, value := value, payload := payload }

/-- The fault response (R76, R242, R244): the latched cause, value 0, no payload. -/
def State.faultResponse (s : State) : Response :=
  { ok := false, cause := s.cause, value := 0, payload := [] }

/-- A Boolean result (R76): 1 for true, 0 for false. -/
def boolValue (b : Bool) : Nat := if b then 1 else 0

end Sys2Proof.Machine
end

