-- ==== Sys2Proof/Machine/Operands.lean ====
section
/-! DEFINITION. The operand forms: selectors, patterns and the two bit orders (`20_memory.md` R52, R54), and the
operands of the codec and driver commands. -/

namespace Sys2Proof.Machine

/-- The stream a selector names (`10_state.md` R26). -/
def State.stream (s : State) : StreamId → Stream
  | .s0 => s.s0
  | .s1 => s.s1

/-- The state with the selected stream replaced. -/
def State.setStream (s : State) (x : StreamId) (t : Stream) : State :=
  match x with
  | .s0 => { s with s0 := t }
  | .s1 => { s with s1 := t }

/-- The sequence register a selector names (`10_state.md` R27). -/
def State.seq (s : State) : SeqId → Seq
  | .q0 => s.q0
  | .q1 => s.q1

/-- The state with the selected sequence register replaced. -/
def State.setSeq (s : State) (a : SeqId) (q : Seq) : State :=
  match a with
  | .q0 => { s with q0 := q }
  | .q1 => { s with q1 := q }

/-- The bits of a pattern of width `n`, bit 0 first: the order of a stream (R52). -/
def lsbFirst (n pattern : Nat) : List Bool := (List.range n).map pattern.testBit

/-- The bits of a pattern of width `n`, bit `n - 1` first: the order of a sequence register (R54). -/
def msbFirst (n pattern : Nat) : Seq := (lsbFirst n pattern).reverse

/-- The pattern whose bit `j` is the `j`-th bit read (R52). -/
def ofLsbFirst : List Bool → Nat
  | [] => 0
  | b :: bs => b.toNat + 2 * ofLsbFirst bs

/-- The fold of `to_uint` and `hash` (`41_bitsequence.md` R145, R146): `acc <- (acc << 1) | bit`, exact. -/
def seqFold (start : Nat) (q : Seq) : Nat := q.foldl (fun acc b => 2 * acc + b.toNat) start

/-- `to_uint` (R145): the first-added bit is the most significant. -/
def toUint (q : Seq) : Nat := seqFold 0 q

/-- `hash` (R146): the same fold from 1. -/
def seqHash (q : Seq) : Nat := seqFold 1 q

/-- `ESC = 2^S - 1` (`43_ranked_escape.md` R200): the escape marker. -/
def esc (short : Nat) : Nat := 2 ^ short - 1

/-- The two directions of the driver (`44_driver.md` R230). -/
inductive Direction where
  | compress
  | decompress
  deriving DecidableEq, Repr

/-- The algorithms an identifier names (`30_encoding.md` R80). -/
inductive Algorithm where
  | identity
  | huffman
  | ranked (short long : Nat)
  deriving DecidableEq, Repr

/-- The algorithm of an identifier (R80): 2 to 7 are ranked escape with S = alg, L = alg + 8. -/
def algorithmOf (alg : Nat) : Algorithm :=
  match alg with
  | 0 => .identity
  | 1 => .huffman
  | _ => .ranked alg (alg + 8)

end Sys2Proof.Machine
end

