-- ==== Sys2Proof/Machine/Ops.lean ====
section
/-! DEFINITION. The named operations: memory access, the cursor primitives, the bit and byte operations of a stream,
the fatal fault and the latch, the free values, reset. -/

namespace Sys2Proof.Machine

/-! ### Memory (`00_scope.md` R11, `20_memory.md` R59) -/

/-- `MemRead(s, i, 1)`: defined only for `i < s.len`. -/
def Memory.read (m : Memory) (i : Nat) : Except Stop Byte :=
  match m[i]? with
  | some v => .ok v
  | none => .error .outside

/-- `MemWrite(s, i, 1, v)`: overwrites for `i < s.len`, appends for `i = s.len`, defined for no other index. -/
def Memory.write (m : Memory) (i : Nat) (v : Byte) : Except Stop Memory :=
  if i < m.length then .ok (m.set i v)
  else if i = m.length then .ok (m ++ [v])
  else .error .outside

/-- The memory as (address, byte) pairs, one for each address that exists. -/
def Memory.cells (m : Memory) : List Host.Cell := m.zipIdx.map fun p => (p.2, p.1)

/-- The canonical form of the pairs: the addresses are 0, 1, 2, … in that order, with no gap and no repeat. -/
def Memory.wf (m : Memory) : Bool := m.cells.map Prod.fst == List.range m.length

/-! ### The primitives of `20_memory.md` R64 to R66 -/

/-- `pos(s)` (`10_state.md` R24). -/
def Stream.pos (t : Stream) : Nat := 8 * t.bi + t.bo.val

/-- `Advance(s)` (R64). -/
def Stream.advance (t : Stream) : Stream :=
  if t.bo = 7 then { t with bi := t.bi + 1, bo := 0 } else { t with bo := t.bo + 1 }

/-- Bit `k` of a byte (R51). -/
def bitOf (v : Byte) (k : Fin 8) : Bool := v.getLsbD k.val

/-- A byte with bit `k` cleared, then set if `b` is 1 (R65). -/
def withBit (v : Byte) (k : Fin 8) (b : Bool) : Byte :=
  (v &&& ~~~(1#8 <<< k.val)) ||| ((if b then 1#8 else 0#8) <<< k.val)

/-- Room for one more byte (R36): appending keeps the buffer within `MAXBUF`. -/
def canAppend (cfg : Config) (m : Memory) : Bool := cfg.bufFits (m.length + 1)

/-- The fresh byte of R65 at the append position, or the faults that refuse it. -/
def Stream.ensureByte (cfg : Config) (t : Stream) : Except Stop Stream :=
  if t.bi = t.buf.length then
    if t.bo ≠ 0 then .error (.fatal .appendUnaligned)
    else if canAppend cfg t.buf then (Memory.write t.buf t.buf.length 0).map fun m => { t with buf := m }
    else .error (.fatal .capacity)
  else .ok t

/-- `WriteBit(s, b)` (R65). -/
def Stream.writeBit (cfg : Config) (b : Bool) (t : Stream) : Except Stop Stream := do
  let t ← t.ensureByte cfg
  let v ← Memory.read t.buf t.bi
  let m ← Memory.write t.buf t.bi (withBit v t.bo b)
  return { t with buf := m }.advance

/-- `BitAt(s, s.bi, s.bo)` (R66): the bit at the cursor. -/
def Stream.bitAt (t : Stream) : Except Stop Bool :=
  match t.buf[t.bi]? with
  | some v => .ok (bitOf v t.bo)
  | none => .error (.fatal .readPastEnd)

/-! ### The operations of `40_bitstream.md` -/

/-- Bits written in list order by `WriteBit`. -/
def Stream.writeBits (cfg : Config) : List Bool → Stream → Except Stop Stream
  | [], t => .ok t
  | b :: bs, t => do
    let t ← t.writeBit cfg b
    Stream.writeBits cfg bs t

/-- `putBits(pattern of width N)` (R105): bit 0 first. -/
def Stream.putBits (cfg : Config) (n pattern : Nat) (t : Stream) : Except Stop Stream :=
  t.writeBits cfg (lsbFirst n pattern)

/-- `putBits(DynamicBitSequence)` (R106): the first-added bit first. -/
def Stream.putSeq (cfg : Config) (q : Seq) (t : Stream) : Except Stop Stream := t.writeBits cfg q

/-- `put(byte)` (R103). -/
def Stream.put (cfg : Config) (v : Byte) (t : Stream) : Except Stop Stream :=
  if t.bo = 0 then
    if t.bi = t.buf.length ∧ canAppend cfg t.buf = false then .error (.fatal .capacity)
    else (Memory.write t.buf t.bi v).map fun m => { t with buf := m, bi := t.bi + 1 }
  else t.putBits cfg 8 v.toNat

/-- `putFast(byte)` (R104). -/
def Stream.putFast (v : Byte) (t : Stream) : Except Stop Stream :=
  if t.bi < t.buf.length ∧ t.bo = 0 then
    (Memory.write t.buf t.bi v).map fun m => { t with buf := m, bi := t.bi + 1 }
  else .error (.fatal .putfastPrecond)

/-- `n` bits read at the cursor, in the order of their positions, each by `BitAt` and `Advance` (R107). -/
def Stream.takeBits : Nat → Stream → Except Stop (List Bool × Stream)
  | 0, t => .ok ([], t)
  | n + 1, t => do
    let b ← t.bitAt
    let (bs, t) ← Stream.takeBits n t.advance
    return (b :: bs, t)

/-- `readBits(width N)` (R107): the first bit read is bit 0 of the result. -/
def Stream.readBits (n : Nat) (t : Stream) : Except Stop (Nat × Stream) :=
  (t.takeBits n).map fun r => (ofLsbFirst r.1, r.2)

/-- `peekBits(width N)` (R108): the same value, the cursor not written. -/
def Stream.peekBits (n : Nat) (t : Stream) : Except Stop Nat := (t.readBits n).map Prod.fst

/-- `read()` (R109). -/
def Stream.readByte (t : Stream) : Except Stop (Byte × Stream) :=
  if t.bo = 0 then
    if t.bi ≥ t.buf.length then .error (.fatal .readPastEnd)
    else (Memory.read t.buf t.bi).map fun v => (v, { t with bi := t.bi + 1 })
  else (t.readBits 8).map fun r => (BitVec.ofNat 8 r.1, r.2)

/-- `peek()` (R110). -/
def Stream.peekByte (t : Stream) : Except Stop Byte :=
  if t.bo = 0 then
    if t.bi ≥ t.buf.length then .error (.fatal .readPastEnd)
    else Memory.read t.buf t.bi
  else (t.peekBits 8).map (BitVec.ofNat 8)

/-- `seek(byteIndex, bitOffset)` (R111). -/
def Stream.seek (i : Nat) (k : Fin 8) (t : Stream) : Except Stop Stream :=
  if i > t.buf.length then .error (.fatal .seekRange) else .ok { t with bi := i, bo := k }

/-- `atEnd()` (R112): the byte index only. -/
def Stream.atEnd (t : Stream) : Bool := t.bi ≥ t.buf.length

/-- A fresh stream on a buffer (R102): the cursor at (0,0). -/
def Stream.fresh (m : Memory) : Stream := { buf := m, bi := 0, bo := 0 }

/-- `BS.LOAD`'s stream (R102): a buffer longer than `MAXBUF` is refused. -/
def Stream.load (cfg : Config) (m : Memory) : Except Stop Stream :=
  if cfg.bufFits m.length then .ok (Stream.fresh m) else .error (.fatal .capacity)

/-- Aligned reads until `atEnd` (`42_huffman.md` R161): the bytes read. `n` bounds the turns. -/
def Stream.scan : Nat → Stream → Except Stop (List Byte × Stream)
  | 0, t => .ok ([], t)
  | n + 1, t =>
    if t.atEnd then .ok ([], t)
    else do
      let (v, t) ← t.readByte
      let (vs, t) ← Stream.scan n t
      return (v :: vs, t)

/-- `put` for each byte of a list. -/
def Stream.putAll (cfg : Config) : List Byte → Stream → Except Stop Stream
  | [], t => .ok t
  | v :: vs, t => do
    let t ← t.put cfg v
    Stream.putAll cfg vs t

/-! ### Responses, the fatal fault and the latch (`60_exceptions.md` R242 to R244, R248) -/

/-- The response goes to the host. -/
def State.respond (s : State) (r : Response) : State := { s with responses := s.responses ++ [r] }

/-- `return v` (`00_scope.md` R11): the command ends normally. -/
def State.complete (s : State) (value : Nat) (payload : List Byte) : State :=
  s.respond (s.okResponse value payload)

/-- Fatal fault entry (R242): `STATUS` set, the fault response given, nothing else. -/
def State.raise (s : State) (c : Cause) : State :=
  let t := s.setStatus c
  t.respond t.faultResponse

/-- A stream whose buffer and cursor the spec leaves unspecified: free values. -/
def freeStream (n : Nat) : Stream :=
  { buf := Config.freeBuf n, bi := Config.freeIndex n, bo := Config.freeOffset n }

/-- Streams and sequence registers after a fatal fault part-way (R243): any value. -/
def State.scramble (s : State) : State :=
  { s with
    s0 := freeStream s.freeCount
    s1 := freeStream (s.freeCount + 1)
    q0 := Config.freeSeq s.freeCount
    q1 := Config.freeSeq (s.freeCount + 1)
    freeCount := s.freeCount + 2 }

/-- The fatal fault of a command that may have changed something (R243). -/
def State.raiseScrambled (s : State) (c : Cause) : State := s.scramble.raise c

/-- What every command does before anything else (R244, R248): the latch, then legality. -/
def begin (legal : Bool) (s : State) (body : Host.Outcome State Fault Refusal) : Host.Outcome State Fault Refusal :=
  if s.fatal then .next (s.respond s.faultResponse)
  else if legal then body
  else .next (s.raise .illegalCommand)

/-- The end of a command's pseudocode: `f` gives the state on completion, `onFatal` the one of a fatal fault. -/
def finish {α : Type} (r : Except Stop α) (onFatal : Cause → State) (f : α → State) :
    Host.Outcome State Fault Refusal :=
  match r with
  | .ok a => .next (f a)
  | .error (.fatal c) => .next (onFatal c)
  | .error .outside => .fault .memDomain

/-! ### A decoder's `false` (`42_huffman.md` R177, `43_ranked_escape.md` R209, entry U4) -/

/-- A free byte index for a stream, within `10_state.md` R23. When the header has been read (`IN.len >= 2`) the
cursor has left byte 0 (assumption 6). -/
def freeInIndex (n len : Nat) : Nat :=
  if len < 2 then Config.freeIndex n % (len + 1) else Config.freeIndex n % len + 1

/-- A free buffer within `MAXBUF` (`10_state.md` R36). -/
def freeOutBuf (cfg : Config) (n : Nat) : Memory :=
  match cfg.maxBuf with
  | none => Config.freeBuf n
  | some m => (Config.freeBuf n).take m

/-- The streams after a decoder's `false`: `IN.buf` unchanged, `OUT` and both cursors any value R23 and R36 allow. -/
def State.afterFalse (s : State) : State :=
  let out := freeOutBuf s.cfg s.freeCount
  { s with
    s0 := { buf := s.s0.buf, bi := freeInIndex s.freeCount s.s0.buf.length, bo := Config.freeOffset s.freeCount }
    s1 := { buf := out, bi := Config.freeIndex (s.freeCount + 1) % (out.length + 1),
            bo := Config.freeOffset (s.freeCount + 1) }
    freeCount := s.freeCount + 2 }

/-- The start state a codec command demands (`42_huffman.md` R160). -/
def State.codecReady (s : State) : Bool :=
  s.s0.bi == 0 && s.s0.bo == 0 && s.s1.buf.length == 0 && s.s1.bi == 0 && s.s1.bo == 0

/-- Both streams replaced. -/
def State.setStreams (s : State) (p : Stream × Stream) : State := { s with s0 := p.1, s1 := p.2 }

/-- The result of a codec: `some (IN, OUT)` for `true`, `none` for `false`. -/
abbrev CodecResult := Except Stop (Option (Stream × Stream))

/-- A codec command (R160, R171, R177): the start-state check, then the codec, then its Boolean as the value. -/
def runCodec (s : State) (r : CodecResult) : Host.Outcome State Fault Refusal :=
  if s.codecReady then
    finish r s.raiseScrambled fun v =>
      match v with
      | some p => (s.setStreams p).complete (boolValue true) []
      | none => s.afterFalse.complete (boolValue false) []
  else .next (s.raise .codecPrecond)

/-! ### The command port and reset -/

/-- An illegal command (`30_encoding.md` R75, `60_exceptions.md` R252): nothing changes but `STATUS`. -/
def rejectCommand (s : State) : Host.Outcome State Fault Refusal :=
  begin false s (.next s)

/-- The state with the oldest pending event taken off. -/
def State.dropEvent (s : State) : State := { s with pending := s.pending.tail }

/-- Reset (`70_reset_and_hazards.md` R270, R271): all architectural state to the values of `10_state.md` R34. The
parameters, the ports and the free-value counter are not architectural state and stay. -/
def State.assertReset (s : State) : State :=
  { State.resetOf s.cfg with pending := s.pending, responses := s.responses, freeCount := s.freeCount }

/-- A word of the table placed where the next step takes its command. -/
def State.placeWord (s : State) (nbits w : Nat) : State :=
  { s with pending := .command { word := tableWord nbits w, payload := [] } :: s.pending }

end Sys2Proof.Machine
end

