-- ==== Sys2Proof/Machine/BitSequence.lean ====
section
/-! DEFINITION. The Q family (`41_bitsequence.md` R141 to R147). -/

namespace Sys2Proof.Machine

/-- `Q[a] <- Q[a] ++ bits` unless it outgrows `QMAX`; the fault is raised before the register changes
(`10_state.md` R36). -/
def appendSeq (a : SeqId) (bits : Seq) (s : State) : Host.Outcome State Fault Refusal :=
  if s.cfg.seqFits ((s.seq a).length + bits.length) then
    .next ((s.setSeq a (s.seq a ++ bits)).complete 0 [])
  else .next (s.raise .capacity)

/-- `Q.CLR` (R141). -/
def execQClr (a : SeqId) (s : State) : Host.Outcome State Fault Refusal :=
  begin true s (.next ((s.setSeq a []).complete 0 []))

/-- `Q.ADD1` (R142). -/
def execQAdd1 (a : SeqId) (bit : Bool) (s : State) : Host.Outcome State Fault Refusal :=
  begin true s (appendSeq a [bit] s)

/-- `Q.ADDN` (R143): most significant bit first. -/
def execQAddn (a : SeqId) (n pattern : Nat) (s : State) : Host.Outcome State Fault Refusal :=
  begin (wfPattern n pattern) s (appendSeq a (msbFirst n pattern) s)

/-- `Q.ADDQ` (R144): the source's value is taken before the destination changes. -/
def execQAddq (a b : SeqId) (s : State) : Host.Outcome State Fault Refusal :=
  begin true s (appendSeq a (s.seq b) s)

/-- `Q.UINT` (R145). -/
def execQUint (a : SeqId) (s : State) : Host.Outcome State Fault Refusal :=
  begin true s (.next (s.complete (toUint (s.seq a)) []))

/-- `Q.HASH` (R146). -/
def execQHash (a : SeqId) (s : State) : Host.Outcome State Fault Refusal :=
  begin true s (.next (s.complete (seqHash (s.seq a)) []))

/-- `Q.LEN` (R147). -/
def execQLen (a : SeqId) (s : State) : Host.Outcome State Fault Refusal :=
  begin true s (.next (s.complete (s.seq a).length []))

end Sys2Proof.Machine
end

