-- ==== Sys2Proof/Machine/BitStream.lean ====
section
/-! DEFINITION. The BS family (`40_bitstream.md` R101 to R115). -/

namespace Sys2Proof.Machine

/-- A command that writes stream `x` and returns 0; a fault part-way leaves R243's state. -/
def finishWrite (x : StreamId) (s : State) (r : Except Stop Stream) : Host.Outcome State Fault Refusal :=
  finish r s.raiseScrambled fun t => (s.setStream x t).complete 0 []

/-- `BS.NEW` (R101). -/
def execBsNew (x : StreamId) (s : State) : Host.Outcome State Fault Refusal :=
  begin true s (.next ((s.setStream x Stream.empty).complete 0 []))

/-- `BS.LOAD` (R102). -/
def execBsLoad (x : StreamId) (payload : List Byte) (s : State) : Host.Outcome State Fault Refusal :=
  begin true s (finishWrite x s (Stream.load s.cfg payload))

/-- `BS.PUT` (R103). -/
def execBsPut (x : StreamId) (v : Byte) (s : State) : Host.Outcome State Fault Refusal :=
  begin true s (finishWrite x s ((s.stream x).put s.cfg v))

/-- `BS.PUTF` (R104). A violated precondition changes nothing (R243). -/
def execBsPutf (x : StreamId) (v : Byte) (s : State) : Host.Outcome State Fault Refusal :=
  begin true s (finish ((s.stream x).putFast v) s.raise fun t => (s.setStream x t).complete 0 [])

/-- `BS.PUTB` (R105). -/
def execBsPutb (x : StreamId) (n pattern : Nat) (s : State) : Host.Outcome State Fault Refusal :=
  begin (wfPattern n pattern) s (finishWrite x s ((s.stream x).putBits s.cfg n pattern))

/-- `BS.PUTQ` (R106). -/
def execBsPutq (x : StreamId) (q : SeqId) (s : State) : Host.Outcome State Fault Refusal :=
  begin true s (finishWrite x s ((s.stream x).putSeq s.cfg (s.seq q)))

/-- `BS.RDB` (R107). -/
def execBsRdb (x : StreamId) (n : Nat) (s : State) : Host.Outcome State Fault Refusal :=
  begin (wfWidth n) s
    (finish ((s.stream x).readBits n) s.raiseScrambled fun r => (s.setStream x r.2).complete r.1 [])

/-- `BS.PKB` (R108). A fault changes nothing (R243). -/
def execBsPkb (x : StreamId) (n : Nat) (s : State) : Host.Outcome State Fault Refusal :=
  begin (wfWidth n) s (finish ((s.stream x).peekBits n) s.raise fun v => s.complete v [])

/-- `BS.RD` (R109). -/
def execBsRd (x : StreamId) (s : State) : Host.Outcome State Fault Refusal :=
  begin true s
    (finish (s.stream x).readByte s.raiseScrambled fun r => (s.setStream x r.2).complete r.1.toNat [])

/-- `BS.PK` (R110). A fault changes nothing (R243). -/
def execBsPk (x : StreamId) (s : State) : Host.Outcome State Fault Refusal :=
  begin true s (finish (s.stream x).peekByte s.raise fun v => s.complete v.toNat [])

/-- `BS.SEEK` (R111). A fault changes nothing (R243). -/
def execBsSeek (x : StreamId) (i : BitVec 32) (k : Fin 8) (s : State) : Host.Outcome State Fault Refusal :=
  begin true s
    (finish ((s.stream x).seek i.toNat k) s.raise fun t => (s.setStream x t).complete 0 [])

/-- `BS.ATEND` (R112). -/
def execBsAtend (x : StreamId) (s : State) : Host.Outcome State Fault Refusal :=
  begin true s (.next (s.complete (boolValue (s.stream x).atEnd) []))

/-- `BS.TELL` (R113). -/
def execBsTell (x : StreamId) (s : State) : Host.Outcome State Fault Refusal :=
  begin true s (.next (s.complete (s.stream x).pos []))

/-- `BS.LEN` (R114). -/
def execBsLen (x : StreamId) (s : State) : Host.Outcome State Fault Refusal :=
  begin true s (.next (s.complete (s.stream x).buf.length []))

/-- `BS.DUMP` (R115). -/
def execBsDump (x : StreamId) (s : State) : Host.Outcome State Fault Refusal :=
  begin true s (.next (s.complete (s.stream x).buf.length (s.stream x).buf))

end Sys2Proof.Machine
end

