-- ==== Sys2Proof/Machine/Huffman.lean ====
section
/-! DEFINITION. The HUF family (`42_huffman.md` R160 to R178). -/

namespace Sys2Proof.Machine

/-! ### Frequency analysis (R161) -/

/-- `freq[v]`: how often byte value `v` occurs. -/
def freq (data : List Byte) (v : Byte) : Nat := data.countP fun x => x.toNat == v.toNat

/-- The byte values 0 to 255 in ascending order. -/
def allBytes : List Byte := (List.range 256).map (BitVec.ofNat 8)

/-- The byte values that occur, in ascending order; the alphabet size `k` is its length. -/
def distinctBytes (data : List Byte) : List Byte := allBytes.filter fun v => 0 < freq data v

/-! ### The tree (R162 to R165) -/

/-- `Leaf(byte value)` or `Internal(first child, second child)` (`10_state.md` R32). -/
inductive Tree where
  | leaf (v : Byte)
  | internal (first second : Tree)
  deriving DecidableEq, Repr

/-- A member of the working set: a node of the arena with its number and frequency (R162). -/
structure Node where
  freq : Nat
  num  : Nat
  tree : Tree
  deriving DecidableEq, Repr

/-- `x` is extracted before `y` (R164): the least frequency, among equals the least node number. -/
def Node.before (x y : Node) : Bool := x.freq < y.freq || (x.freq == y.freq && x.num < y.num)

/-- `ExtractMin` (R164) of the set `x` and `ys`: the member taken and the rest. -/
def extractMin (x : Node) : List Node → Node × List Node
  | [] => (x, [])
  | y :: ys =>
    let r := extractMin y ys
    if x.before r.1 then (x, y :: ys) else (r.1, x :: r.2)

/-- The loop of R163: `n` bounds the turns, `next` is the number of the next node. -/
def mergeAll : Nat → Nat → List Node → List Node
  | 0, _, w => w
  | _ + 1, _, [] => []
  | n + 1, next, w :: ws =>
    let a := extractMin w ws
    match a.2 with
    | [] => [a.1]
    | z :: zs =>
      let b := extractMin z zs
      mergeAll n (next + 1)
        (b.2 ++ [{ freq := a.1.freq + b.1.freq, num := next, tree := .internal a.1.tree b.1.tree }])

/-- The leaves (R162): one for each byte value that occurs, numbered in ascending order. -/
def leaves (data : List Byte) : List Node :=
  (distinctBytes data).zipIdx.map fun p => { freq := freq data p.1, num := p.2, tree := .leaf p.1 }

/-- The root (R163, R165): none for an empty input. -/
def huffTree (data : List Byte) : Option Tree :=
  ((mergeAll (leaves data).length (leaves data).length (leaves data)).head?).map Node.tree

/-- `Assign` (R166): bit 1 to the first child, bit 0 to the second. -/
def Tree.codes : Tree → Seq → List (Byte × Seq)
  | .leaf v, path => [(v, path)]
  | .internal x y, path => x.codes (path ++ [true]) ++ y.codes (path ++ [false])

/-- `Alphabet`: byte to codeword (R166); empty for an empty input. -/
def alphabet (data : List Byte) : List (Byte × Seq) :=
  match huffTree data with
  | none => []
  | some t => t.codes []

/-- `code[v]`. Every byte of the input has one (R169). -/
def codeOf (alpha : List (Byte × Seq)) (v : Byte) : Seq := (alpha.lookup v).getD []

/-! ### The encoder (R168 to R170) -/

/-- The header entries (R168): byte value, codeword length, codeword. -/
def putEntries (cfg : Config) (alpha : List (Byte × Seq)) : List Byte → Stream → Except Stop Stream
  | [], t => .ok t
  | v :: vs, t => do
    let t ← t.putBits cfg 8 v.toNat
    let t ← t.putBits cfg 9 (codeOf alpha v).length
    let t ← t.putSeq cfg (codeOf alpha v)
    putEntries cfg alpha vs t

/-- The body (R169): one codeword a byte. -/
def putCodes (cfg : Config) (alpha : List (Byte × Seq)) : List Byte → Stream → Except Stop Stream
  | [], t => .ok t
  | v :: vs, t => do
    let t ← t.putSeq cfg (codeOf alpha v)
    putCodes cfg alpha vs t

/-- The 12-bit header of both formats (`30_encoding.md` R85) with the placeholder 0 (R168). -/
def putHeader (cfg : Config) (size : Nat) (t : Stream) : Except Stop Stream := do
  let t ← t.putBits cfg 3 0
  t.putBits cfg 9 size

/-- The patch (R170): the final bit offset into bit positions 0 to 2. -/
def patchHeader (cfg : Config) (t : Stream) : Except Stop Stream := do
  let u ← t.seek 0 0
  u.putBits cfg 3 t.bo.val

/-- `HUF.ENC` on its two streams (R171): always `true`. -/
def hufEncode (cfg : Config) (input output : Stream) : CodecResult := do
  let (data, input) ← input.scan input.buf.length
  let alpha := alphabet data
  let out ← putHeader cfg (distinctBytes data).length output
  let out ← putEntries cfg alpha (distinctBytes data) out
  let input ← input.seek 0 0
  let (body, input) ← input.scan input.buf.length
  let out ← putCodes cfg alpha body out
  let out ← patchHeader cfg out
  return some (input, out)

/-! ### The decoder (R172 to R176) -/

/-- The end boundary `E` (`30_encoding.md` R89) of a buffer of `n` bytes. -/
def endBoundary (n fbi : Nat) : Nat := if fbi = 0 then 8 * n else 8 * (n - 1) + fbi

/-- `InverseAlphabet` (R174): `hash` of a codeword to its byte. -/
abbrev InverseAlphabet := List (Nat × Byte)

/-- The alphabet (R174): `n` entries still to read; `none` is `return 0`. -/
def readEntries (e : Nat) : Nat → InverseAlphabet → Stream → Except Stop (Option (InverseAlphabet × Stream))
  | 0, inv, t => .ok (some (inv, t))
  | n + 1, inv, t =>
    if t.pos + 17 > e then .ok none
    else do
      let (v, t) ← t.readBits 8
      let (clen, t) ← t.readBits 9
      if clen > 256 ∨ t.pos + clen > e then return none
      let (q, t) ← t.takeBits clen
      match inv.lookup (seqHash q) with
      | some _ => return none
      | none => readEntries e n ((seqHash q, BitVec.ofNat 8 v) :: inv) t

/-- The decode loop and the verdict (R175, R176): `n` bits before `E` still to read. -/
def decodeBits (cfg : Config) (inv : InverseAlphabet) : Nat → Seq → Stream → Stream → CodecResult
  | 0, scratch, input, out => .ok (if scratch = [] then some (input, out) else none)
  | n + 1, scratch, input, out => do
    let (bits, input) ← input.takeBits 1
    let scratch := scratch ++ bits
    match inv.lookup (seqHash scratch) with
    | some v => do
      let out ← out.put cfg v
      decodeBits cfg inv n [] input out
    | none => decodeBits cfg inv n scratch input out

/-- `HUF.DEC` on its two streams (R177). -/
def hufDecode (cfg : Config) (input output : Stream) : CodecResult :=
  if input.buf.length < 2 then .ok none
  else do
    let (fbi, input) ← input.readBits 3
    let (size, input) ← input.readBits 9
    let e := endBoundary input.buf.length fbi
    if size > 256 then return none
    match ← readEntries e size [] input with
    | none => return none
    | some (inv, input) => decodeBits cfg inv (e - input.pos) [] input output

/-! ### The commands -/

/-- `HUF.ENC` (R171). -/
def execHufEnc (s : State) : Host.Outcome State Fault Refusal :=
  begin true s (runCodec s (hufEncode s.cfg s.s0 s.s1))

/-- `HUF.DEC` (R177). -/
def execHufDec (s : State) : Host.Outcome State Fault Refusal :=
  begin true s (runCodec s (hufDecode s.cfg s.s0 s.s1))

end Sys2Proof.Machine
end

