-- ==== Sys2Proof/Machine/RankedEscape.lean ====
section
/-! DEFINITION. The REC family (`43_ranked_escape.md` R200 to R211). -/

namespace Sys2Proof.Machine

/-! ### Ranks and symbols (R201 to R203) -/

/-- The most frequent of `best` and `rest`, the earliest among equals: the least value when they ascend (R201). -/
def mostFrequent (data : List Byte) (best : Byte) : List Byte → Byte
  | [] => best
  | v :: vs => mostFrequent data (if freq data best < freq data v then v else best) vs

/-- The loop of R201: `n` bounds the turns, `rest` holds the values left, ascending. -/
def extractRanks (data : List Byte) : Nat → List Byte → List Byte
  | 0, _ => []
  | _ + 1, [] => []
  | n + 1, v :: vs =>
    let best := mostFrequent data v vs
    best :: extractRanks data n ((v :: vs).erase best)

/-- `RankTable` (R201): the distinct bytes by descending frequency, ties by ascending value. -/
def rankTable (data : List Byte) : List Byte :=
  extractRanks data (distinctBytes data).length (distinctBytes data)

/-- `Sym(r)` (R202): the pattern and the width. -/
def symbolOf (short long r : Nat) : Nat × Nat :=
  if r < esc short then (r, short) else ((r - esc short + 1) * 2 ^ short + esc short, long)

/-- The rank of a long pattern (R203). -/
def longRank (short v : Nat) : Nat := v / 2 ^ short + esc short - 1

/-! ### The encoder (R204) -/

/-- The body: one symbol a byte. -/
def putSymbols (cfg : Config) (short long : Nat) (table : List Byte) : List Byte → Stream → Except Stop Stream
  | [], t => .ok t
  | v :: vs, t => do
    let sym := symbolOf short long (table.idxOf v)
    let t ← t.putBits cfg sym.2 sym.1
    putSymbols cfg short long table vs t

/-- `REC.ENC` on its two streams (R204, R205): always `true`. -/
def recEncode (cfg : Config) (short long : Nat) (input output : Stream) : CodecResult := do
  let (data, input) ← input.scan input.buf.length
  let table := rankTable data
  let out ← putHeader cfg table.length output
  let out ← out.putAll cfg table
  let input ← input.seek 0 0
  let (body, input) ← input.scan input.buf.length
  let out ← putSymbols cfg short long table body out
  let out ← patchHeader cfg out
  return some (input, out)

/-! ### The decoder (R206 to R208) -/

/-- The rank table of a stream: `n` bytes read (R206). -/
def readTable : Nat → Stream → Except Stop (List Byte × Stream)
  | 0, t => .ok ([], t)
  | n + 1, t => do
    let (v, t) ← t.readByte
    let (vs, t) ← readTable n t
    return (v :: vs, t)

/-- One symbol (R203, R207): its rank, or `none` when it does not end before `E`. -/
def readRank (short long e : Nat) (t : Stream) : Except Stop (Option (Nat × Stream)) :=
  if t.pos + short > e then .ok none
  else do
    let p ← t.peekBits short
    if p ≠ esc short then
      let r ← t.readBits short
      return some r
    else if t.pos + long > e then return none
    else
      let (v, t) ← t.readBits long
      return some (longRank short v, t)

/-- The decode loop (R207): `n` bounds the turns. -/
def decodeSymbols (cfg : Config) (short long e : Nat) (table : List Byte) : Nat → Stream → Stream → CodecResult
  | 0, input, out => .ok (some (input, out))
  | n + 1, input, out =>
    if input.pos < e then do
      match ← readRank short long e input with
      | none => return none
      | some (r, input) =>
        match table[r]? with
        | none => return none
        | some v => do
          let out ← out.put cfg v
          decodeSymbols cfg short long e table n input out
    else .ok (some (input, out))

/-- `REC.DEC` on its two streams (R206 to R209). -/
def recDecode (cfg : Config) (short long : Nat) (input output : Stream) : CodecResult :=
  if input.buf.length < 2 then .ok none
  else do
    let (fbi, input) ← input.readBits 3
    let (size, input) ← input.readBits 9
    let e := endBoundary input.buf.length fbi
    if size > 256 ∨ input.pos + 8 * size > e then return none
    let (table, input) ← readTable size input
    decodeSymbols cfg short long e table (e - input.pos) input output

/-! ### The commands -/

/-- `REC.ENC` (R205). -/
def execRecEnc (short long : Nat) (s : State) : Host.Outcome State Fault Refusal :=
  begin (wfPair short long) s (runCodec s (recEncode s.cfg short long s.s0 s.s1))

/-- `REC.DEC` (R209). -/
def execRecDec (short long : Nat) (s : State) : Host.Outcome State Fault Refusal :=
  begin (wfPair short long) s (runCodec s (recDecode s.cfg short long s.s0 s.s1))

end Sys2Proof.Machine
end

