-- ==== Sys2Proof/Machine/Driver.lean ====
section
/-! DEFINITION. The DRV family (`44_driver.md` R230 to R236). -/

namespace Sys2Proof.Machine

/-- The identity step (R234): every byte of the input put to the output. -/
def identityStep (cfg : Config) (input output : Stream) : CodecResult := do
  let (data, input) ← input.scan input.buf.length
  let out ← output.putAll cfg data
  return some (input, out)

/-- The dispatch of R233. -/
def codecStep (cfg : Config) (alg : Algorithm) (dir : Direction) (input output : Stream) : CodecResult :=
  match alg, dir with
  | .identity, _ => identityStep cfg input output
  | .huffman, .compress => hufEncode cfg input output
  | .huffman, .decompress => hufDecode cfg input output
  | .ranked short long, .compress => recEncode cfg short long input output
  | .ranked short long, .decompress => recDecode cfg short long input output

/-- The streams of the driver procedure (R230): fresh ones, then the codec step; `false` is `DRIVER_ASSERT` (R235). -/
def driveStreams (cfg : Config) (alg : Algorithm) (dir : Direction) (bytes : List Byte) :
    Except Stop (Stream × Stream) := do
  let input ← Stream.load cfg bytes
  match ← codecStep cfg alg dir input Stream.empty with
  | some p => return p
  | none => throw (.fatal .driverAssert)

/-- The driver procedure (R230): the output buffer is the response's payload. -/
def drive (alg : Nat) (dir : Direction) (bytes : List Byte) (s : State) : Host.Outcome State Fault Refusal :=
  finish (driveStreams s.cfg (algorithmOf alg) dir bytes) s.raiseScrambled fun p =>
    (s.setStreams p).complete p.2.buf.length p.2.buf

/-- `DRV.COMP` (R231). -/
def execDrvComp (alg : Nat) (payload : List Byte) (s : State) : Host.Outcome State Fault Refusal :=
  begin (wfAlg alg) s (drive alg .compress payload s)

/-- `DRV.DECOMP` (R232). -/
def execDrvDecomp (alg : Nat) (payload : List Byte) (s : State) : Host.Outcome State Fault Refusal :=
  begin (wfAlg alg) s (drive alg .decompress payload s)

end Sys2Proof.Machine
end

