-- ==== Sys2Proof/Machine/Dispatch.lean ====
section
/-! DEFINITION. One arm per command. -/

namespace Sys2Proof.Machine

def exec (i : Instr) (s : State) : Host.Outcome State Fault Refusal :=
  match i with
  | .bsNew x => Sys2Proof.Machine.execBsNew x s
  | .bsLoad x payload => Sys2Proof.Machine.execBsLoad x payload s
  | .bsPut x v => Sys2Proof.Machine.execBsPut x v s
  | .bsPutf x v => Sys2Proof.Machine.execBsPutf x v s
  | .bsPutb x n pattern => Sys2Proof.Machine.execBsPutb x n pattern s
  | .bsPutq x q => Sys2Proof.Machine.execBsPutq x q s
  | .bsRdb x n => Sys2Proof.Machine.execBsRdb x n s
  | .bsPkb x n => Sys2Proof.Machine.execBsPkb x n s
  | .bsRd x => Sys2Proof.Machine.execBsRd x s
  | .bsPk x => Sys2Proof.Machine.execBsPk x s
  | .bsSeek x idx k => Sys2Proof.Machine.execBsSeek x idx k s
  | .bsAtend x => Sys2Proof.Machine.execBsAtend x s
  | .bsTell x => Sys2Proof.Machine.execBsTell x s
  | .bsLen x => Sys2Proof.Machine.execBsLen x s
  | .bsDump x => Sys2Proof.Machine.execBsDump x s
  | .qClr a => Sys2Proof.Machine.execQClr a s
  | .qAdd1 a bit => Sys2Proof.Machine.execQAdd1 a bit s
  | .qAddn a n pattern => Sys2Proof.Machine.execQAddn a n pattern s
  | .qAddq a b => Sys2Proof.Machine.execQAddq a b s
  | .qUint a => Sys2Proof.Machine.execQUint a s
  | .qHash a => Sys2Proof.Machine.execQHash a s
  | .qLen a => Sys2Proof.Machine.execQLen a s
  | .hufEnc => Sys2Proof.Machine.execHufEnc s
  | .hufDec => Sys2Proof.Machine.execHufDec s
  | .recEnc short long => Sys2Proof.Machine.execRecEnc short long s
  | .recDec short long => Sys2Proof.Machine.execRecDec short long s
  | .drvComp alg payload => Sys2Proof.Machine.execDrvComp alg payload s
  | .drvDecomp alg payload => Sys2Proof.Machine.execDrvDecomp alg payload s

end Sys2Proof.Machine
end

