-- ==== Sys2Proof/Machine/Step.lean ====
section
/-! DEFINITION. One step: the oldest event of the host is taken (`00_scope.md` R8, `20_memory.md` R61). -/

namespace Sys2Proof.Machine

/-- A command as it arrives: decoded and executed, or illegal (`30_encoding.md` R75). -/
def runCommand (c : Command) (s : State) : Host.Outcome State Fault Refusal :=
  match decode c with
  | .ok i => exec i s
  | .error _ => rejectCommand s

/-- One step. With no event pending the block changes nothing (assumption 2). -/
def step (s : State) : Host.Outcome State Fault Refusal :=
  match s.pending with
  | [] => .next s
  | .reset :: _ => .next s.dropEvent.assertReset
  | .command c :: _ => runCommand c s.dropEvent

/-- The state in which the very next step runs the command of this word (assumption 2). -/
def State.withFetchWord (s : State) (nbits w : Nat) : State := s.placeWord nbits w

end Sys2Proof.Machine
end

