-- ==== Sys2Proof/Safety.lean ====
section
/-! DEFINITION. What counts as a safe state, and the terms the statements use. -/

namespace Sys2Proof

/-! ### What a command may change, return and raise -/

/-- The streams a completed command may write (`40_bitstream.md` to `44_driver.md`). -/
def Instr.writesStream : Instr → StreamId → Bool
  | .bsNew s, x | .bsLoad s _, x | .bsPut s _, x | .bsPutf s _, x | .bsPutb s _ _, x | .bsPutq s _, x
  | .bsRdb s _, x | .bsRd s, x | .bsSeek s _ _, x => s == x
  | .hufEnc, _ | .hufDec, _ | .recEnc _ _, _ | .recDec _ _, _ | .drvComp _ _, _ | .drvDecomp _ _, _ => true
  | .bsPkb _ _, _ | .bsPk _, _ | .bsAtend _, _ | .bsTell _, _ | .bsLen _, _ | .bsDump _, _
  | .qClr _, _ | .qAdd1 _ _, _ | .qAddn _ _ _, _ | .qAddq _ _, _ | .qUint _, _ | .qHash _, _ | .qLen _, _ => false

/-- The sequence registers a completed command may write (`10_state.md` R27). -/
def Instr.writesSeq : Instr → SeqId → Bool
  | .qClr a, b | .qAdd1 a _, b | .qAddn a _ _, b | .qAddq a _, b => a == b
  | _, _ => false

/-- The cause codes a legal command can latch (`60_exceptions.md` R241, column "by which commands"). -/
def Instr.mayRaise : Instr → List (BitVec 4)
  | .bsNew _ | .bsAtend _ | .bsTell _ | .bsLen _ | .bsDump _ | .qClr _ | .qUint _ | .qHash _ | .qLen _ => []
  | .bsLoad _ _ | .qAdd1 _ _ | .qAddn _ _ _ | .qAddq _ _ => [9]
  | .bsPut _ _ | .bsPutb _ _ _ | .bsPutq _ _ => [4, 9]
  | .bsPutf _ _ => [2]
  | .bsRdb _ _ | .bsPkb _ _ | .bsRd _ | .bsPk _ => [1]
  | .bsSeek _ _ _ => [3]
  | .hufEnc | .hufDec | .recEnc _ _ | .recDec _ _ => [6, 9]
  | .drvComp _ _ => [9]
  | .drvDecomp _ _ => [8, 9]

/-- The commands that return a number (`30_encoding.md` R77). -/
def Instr.returnsValue : Instr → Bool
  | .bsRdb _ _ | .bsPkb _ _ | .bsRd _ | .bsPk _ | .bsAtend _ | .bsTell _ | .bsLen _ | .bsDump _
  | .qUint _ | .qHash _ | .qLen _ | .hufEnc | .hufDec | .recEnc _ _ | .recDec _ _
  | .drvComp _ _ | .drvDecomp _ _ => true
  | .bsNew _ | .bsLoad _ _ | .bsPut _ _ | .bsPutf _ _ | .bsPutb _ _ _ | .bsPutq _ _ | .bsSeek _ _ _
  | .qClr _ | .qAdd1 _ _ | .qAddn _ _ _ | .qAddq _ _ => false

/-- The commands that return a buffer (R77). -/
def Instr.returnsPayload : Instr → Bool
  | .bsDump _ | .drvComp _ _ | .drvDecomp _ _ => true
  | _ => false

/-- The commands that may replace a buffer whole, and so make it shorter (`10_state.md` R21). -/
def Instr.replacesBuffer : Instr → Bool
  | .bsNew _ | .bsLoad _ _ | .drvComp _ _ | .drvDecomp _ _ => true
  | _ => false

end Sys2Proof

namespace Sys2Proof.Machine

/-! ### A buffer as a string of bits -/

/-- The bits of a byte, bit 0 first (`20_memory.md` R51). -/
def byteBits (v : Byte) : List Bool := lsbFirst 8 v.toNat

/-- A buffer "read as one long little-endian bit string" (`40_bitstream.md` R116). -/
def bufBits (m : Memory) : List Bool := m.flatMap byteBits

/-- The bit at position `p` (`00_scope.md` R10): bit `p mod 8` of byte `p div 8`, if that byte exists. -/
def bitAtPos (m : Memory) (p : Nat) : Option Bool := (m[p / 8]?).map fun v => v.getLsbD (p % 8)

/-- The stream on a buffer with its cursor at position `p` (`10_state.md` R24). -/
def Stream.atPos (m : Memory) (p : Nat) : Stream := { buf := m, bi := p / 8, bo := Fin.ofNat 8 p }

/-- Bits `p` to `p + n - 1` of a buffer as a number, the first of them its bit 0 (`20_memory.md` R52). -/
def valueAt (m : Memory) (p n : Nat) : Nat := ofLsbFirst (((bufBits m).drop p).take n)

/-- Bytes that hold at least `n` bits. -/
def bytesFor (n : Nat) : Nat := (n + 7) / 8

/-- What writing `bits` at the cursor of `t` leaves (`20_memory.md` R52, R59, R65): the cursor past them, the buffer
grown only as far as they reach, each bit at its position, every other old bit as it was, every other new bit 0. -/
structure WroteBits (bits : List Bool) (t u : Stream) : Prop where
  pos     : u.pos = t.pos + bits.length
  len     : u.buf.length = max t.buf.length (bytesFor (t.pos + bits.length))
  written : ∀ j, j < bits.length → bitAtPos u.buf (t.pos + j) = bits[j]?
  kept    : ∀ p, p < 8 * t.buf.length → (p < t.pos ∨ t.pos + bits.length ≤ p) → bitAtPos u.buf p = bitAtPos t.buf p
  fresh   : ∀ p, 8 * t.buf.length ≤ p → t.pos + bits.length ≤ p → p < 8 * u.buf.length → bitAtPos u.buf p = some false

/-! ### The wire formats (`30_encoding.md` R85 to R87) as strings of bits -/

/-- The 12-bit header of both formats (R85): the final valid bit-count, the alphabet size. -/
def headerBits (fbi size : Nat) : List Bool := lsbFirst 3 fbi ++ lsbFirst 9 size

/-- The alphabet entries (R86): byte value, codeword length, codeword in path order (R88). -/
def entryBits (alpha : List (Byte × Seq)) (vs : List Byte) : List Bool :=
  vs.flatMap fun v => byteBits v ++ lsbFirst 9 (codeOf alpha v).length ++ codeOf alpha v

/-- The encoded data (R86): one codeword a byte. -/
def codeBits (alpha : List (Byte × Seq)) (vs : List Byte) : List Bool := vs.flatMap (codeOf alpha)

/-- The encoded data (R87): one symbol a byte. -/
def symbolBits (short long : Nat) (table : List Byte) (vs : List Byte) : List Bool :=
  vs.flatMap fun v => lsbFirst (symbolOf short long (table.idxOf v)).2 (symbolOf short long (table.idxOf v)).1

/-- The Huffman wire format (R86) of an input, entries in ascending byte value (R168). -/
def hufBits (fbi : Nat) (data : List Byte) : List Bool :=
  headerBits fbi (distinctBytes data).length ++ entryBits (alphabet data) (distinctBytes data) ++
    codeBits (alphabet data) data

/-- The ranked-escape wire format (R87) of an input. -/
def recBits (fbi short long : Nat) (data : List Byte) : List Bool :=
  headerBits fbi (rankTable data).length ++ bufBits (rankTable data) ++ symbolBits short long (rankTable data) data

/-- A buffer holds `bits` from position 0, its last byte padded with zeros (R89, D14). -/
def HoldsBits (bits : List Bool) (m : Memory) : Prop :=
  m.length = bytesFor bits.length ∧ bufBits m = bits ++ List.replicate (8 * m.length - bits.length) false

/-- The final valid bit-count of a compressed buffer (R85): bit positions 0 to 2. -/
def fbiOf (m : Memory) : Nat := ofLsbFirst ((bufBits m).take 3)

/-- The alphabet size of a compressed buffer (R85): bit positions 3 to 11. -/
def alphaSizeOf (m : Memory) : Nat := ofLsbFirst (((bufBits m).drop 3).take 9)

/-- The end boundary `E` of a compressed buffer (R89). -/
def endOf (m : Memory) : Nat := endBoundary m.length (fbiOf m)

/-- The bits of a compressed buffer from position `p` on and before the end boundary: the data, never the padding. -/
def dataFrom (m : Memory) (p : Nat) : List Bool := ((bufBits m).take (endOf m)).drop p

/-- The number of bits `HUF.ENC` writes (`42_huffman.md` R171). -/
def hufTotal (data : List Byte) : Nat :=
  12 + 17 * (distinctBytes data).length
    + ((distinctBytes data).map fun v => (codeOf (alphabet data) v).length).sum
    + (data.map fun v => (codeOf (alphabet data) v).length).sum

/-- The number of bits `REC.ENC` writes (`43_ranked_escape.md` R205). -/
def recTotal (short long : Nat) (data : List Byte) : Nat :=
  12 + 8 * (distinctBytes data).length
    + short * (data.countP fun v => (rankTable data).idxOf v < esc short)
    + long * (data.countP fun v => esc short ≤ (rankTable data).idxOf v)

/-! ### What the decoders accept, said without their loops -/

/-- An entry of a transmitted alphabet (R86): a byte and its codeword. -/
abbrev Entry := Byte × Seq

/-- The bits of an entry (R86). -/
def Entry.bits (e : Entry) : List Bool := byteBits e.1 ++ lsbFirst 9 e.2.length ++ e.2

/-- A codeword that the decode loop of `42_huffman.md` R175 recognises: not empty, and with no other non-empty codeword
of the alphabet as a proper start (the loop stops at the first match). -/
def Recognised (entries : List Entry) (w : Entry) : Prop :=
  w ∈ entries ∧ w.2 ≠ [] ∧ ∀ e ∈ entries, e.2 ≠ [] → e.2 <+: w.2 → e.2 = w.2

/-- The loop of `HUF.DEC` puts `out` when `rest` of its data is still to read (`42_huffman.md` R172 to R175): a header,
that many entries with distinct codewords of at most 256 bits, then the codewords of `out`. -/
def HufStarts (m : Memory) (out : List Byte) (rest : List Bool) : Prop :=
  2 ≤ m.length ∧ alphaSizeOf m ≤ 256 ∧ ∃ entries words : List Entry,
    entries.length = alphaSizeOf m ∧ (∀ e ∈ entries, e.2.length ≤ 256) ∧ (entries.map Prod.snd).Nodup ∧
    (∀ w ∈ words, Recognised entries w) ∧
    dataFrom m 12 = entries.flatMap Entry.bits ++ (words.flatMap Prod.snd ++ rest) ∧ out = words.map Prod.fst

/-- `HUF.DEC` reads `m` as `out` (R176): the codewords end exactly at the end boundary. -/
def HufReads (m : Memory) (out : List Byte) : Prop := HufStarts m out []

/-- A symbol on the wire (`43_ranked_escape.md` R202, R203): a short pattern, or a long one whose low bits are the escape
marker. The pattern and the width. -/
def IsSymbol (short long : Nat) (p : Nat × Nat) : Prop :=
  (p.2 = short ∧ p.1 < esc short) ∨ (p.2 = long ∧ p.1 < 2 ^ long ∧ p.1 % 2 ^ short = esc short)

/-- The rank of a symbol (R203). -/
def symbolRank (short : Nat) (p : Nat × Nat) : Nat := if p.2 = short then p.1 else longRank short p.1

/-- Entry `i` of a transmitted rank table (`30_encoding.md` R87): bit positions `12 + 8i` to `19 + 8i`. -/
def tableEntry (m : Memory) (i : Nat) : Byte :=
  BitVec.ofNat 8 (ofLsbFirst (((bufBits m).drop (12 + 8 * i)).take 8))

/-- The loop of `REC.DEC` puts `out` when `rest` of its data is still to read (`43_ranked_escape.md` R206 to R208): a
header, a table that ends at or before the end boundary, then the symbols of `out`, whose ranks are in the table. On two
bytes with size 0 and a final bit-count of 1 to 3 the third condition fails, as R206's test does (assumption 10). -/
def RecStarts (short long : Nat) (m : Memory) (out : List Byte) (rest : List Bool) : Prop :=
  2 ≤ m.length ∧ alphaSizeOf m ≤ 256 ∧ 12 + 8 * alphaSizeOf m ≤ endOf m ∧ ∃ syms : List (Nat × Nat),
    (∀ p ∈ syms, IsSymbol short long p ∧ symbolRank short p < alphaSizeOf m) ∧
    dataFrom m (12 + 8 * alphaSizeOf m) = syms.flatMap (fun p => lsbFirst p.2 p.1) ++ rest ∧
    out = syms.map fun p => tableEntry m (symbolRank short p)

/-- `REC.DEC` reads `m` as `out` (R207): the symbols end exactly at the end boundary. -/
def RecReads (short long : Nat) (m : Memory) (out : List Byte) : Prop := RecStarts short long m out []

/-- What the decoder of a driver algorithm, 1 to 7, puts (`44_driver.md` R233). -/
def AlgStarts (alg : Nat) (m : Memory) (out : List Byte) (rest : List Bool) : Prop :=
  if alg = 1 then HufStarts m out rest else RecStarts alg (alg + 8) m out rest

/-- What the decoder of a driver algorithm, 1 to 7, reads its input as (R233). -/
def AlgReads (alg : Nat) (m : Memory) (out : List Byte) : Prop := AlgStarts alg m out []

/-! ### The tree and the codewords, said without their loops -/

/-- A node `ExtractMin` takes before another (`42_huffman.md` R164). -/
def TakenBefore (x z : Node) : Prop := x.freq < z.freq ∨ (x.freq = z.freq ∧ x.num < z.num)

/-- The loop of R163 takes a working set to its root; `next` is the number of the next node. -/
inductive MergesTo : Nat → List Node → Node → Prop where
  /-- one node is left -/
  | root (next : Nat) (r : Node) : MergesTo next [r] r
  /-- `x` is taken, then `y`; their parent is put in, `x` its first child -/
  | merge {next : Nat} {w rest : List Node} {x y r : Node} (members : w.Perm (x :: y :: rest))
      (least : ∀ z ∈ y :: rest, TakenBefore x z) (leastOfRest : ∀ z ∈ rest, TakenBefore y z)
      (go : MergesTo (next + 1) ({ freq := x.freq + y.freq, num := next, tree := .internal x.tree y.tree } :: rest) r) :
      MergesTo next w r

/-- The path from the root of a tree to a leaf (R166): 1 to the first child, 0 to the second. -/
inductive PathTo : Tree → Byte → Seq → Prop where
  | leaf (v : Byte) : PathTo (.leaf v) v []
  | first {x y : Tree} {v : Byte} {q : Seq} (h : PathTo x v q) : PathTo (.internal x y) v (true :: q)
  | second {x y : Tree} {v : Byte} {q : Seq} (h : PathTo y v q) : PathTo (.internal x y) v (false :: q)

/-! ### Effects -/

/-- The start state a codec command demands (`42_huffman.md` R160). -/
def FreshStreams (s : State) : Prop :=
  s.s0.bi = 0 ∧ s.s0.bo = 0 ∧ s.s1.buf.length = 0 ∧ s.s1.bi = 0 ∧ s.s1.bo = 0

/-- How many bits a completed command stores at the cursor of a stream (`40_bitstream.md` R103 to R106). The codec
commands store into `OUT`, which holds nothing when they start. -/
def storedBits (i : Instr) (s : State) (x : StreamId) : Nat :=
  match i with
  | .bsPut y _ | .bsPutf y _ => if y = x then 8 else 0
  | .bsPutb y n _ => if y = x then n else 0
  | .bsPutq y q => if y = x then (s.seq q).length else 0
  | _ => 0

/-- What the host has queued and a step takes as a command: such an event gets a response, reset gets none. -/
def HostEvent.isCommand : HostEvent → Bool
  | .command _ => true
  | .reset => false

/-- A command ends in the fatal fault of a cause code (`60_exceptions.md` R242): `STATUS` and the response; the ports
and parameters as they were; of streams and sequence registers nothing is said (R243). -/
def FaultsWith (i : Instr) (s : State) (code : BitVec 4) : Prop :=
  ∃ t, exec i s = .next t ∧ t.fatal = true ∧ t.cause = code ∧
    t.responses = s.responses ++ [{ ok := false, cause := code, value := 0, payload := [] }] ∧
    t.pending = s.pending ∧ t.cfg = s.cfg

/-- A command has completed with this result (`30_encoding.md` R76, R77): the response, `STATUS`, the ports and the
parameters as they were, and every stream and sequence register the command does not write as it was. -/
structure Done (i : Instr) (s t : State) (value : Nat) (payload : List Byte) : Prop where
  fatal    : t.fatal = s.fatal
  cause    : t.cause = s.cause
  cfg      : t.cfg = s.cfg
  pending  : t.pending = s.pending
  response : t.responses = s.responses ++ [{ ok := true, cause := s.cause, value := value, payload := payload }]
  streams  : ∀ x, i.writesStream x = false → t.stream x = s.stream x
  seqs     : ∀ a, i.writesSeq a = false → t.seq a = s.seq a

/-! ### The invariant -/

/-- The cursor invariant of `10_state.md` R23 (the bit offset's bound is in its type) and the buffer bound of R20. -/
structure Stream.Ok (cfg : Config) (t : Stream) : Prop where
  cursor : t.bi ≤ t.buf.length
  fits   : cfg.bufFits t.buf.length = true

/-- The cause codes a fatal fault can latch (`60_exceptions.md` R241, R253): not 0, not 7, none of 10 to 15. -/
def latchedCodes : List (BitVec 4) := [1, 2, 3, 4, 5, 6, 8, 9]

/-- `STATUS` (`10_state.md` R29): `CAUSE` is 0 while `FATAL` is 0, and a cause that is raised once it is 1. -/
structure StatusOk (s : State) : Prop where
  clear : s.fatal = false → s.cause = 0
  set   : s.fatal = true → s.cause ∈ latchedCodes

/-- A response (`30_encoding.md` R76): cause 0 when ok; a latched cause, value 0 and no payload when not. -/
structure Response.Ok (r : Response) : Prop where
  good : r.ok = true → r.cause = 0
  bad  : r.ok = false → r.cause ∈ latchedCodes ∧ r.value = 0 ∧ r.payload = []

/-- The invariant every step keeps. After a fatal fault the streams and sequence registers are unspecified (R243). -/
structure Inv (s : State) : Prop where
  streams   : s.fatal = false → ∀ x, (s.stream x).Ok s.cfg
  seqs      : s.fatal = false → ∀ a, s.cfg.seqFits (s.seq a).length = true
  status    : StatusOk s
  responses : ∀ r ∈ s.responses, r.Ok

/-! ### What the host can see -/

/-- Two states no host can tell apart (`60_exceptions.md` R243, R244): once `FATAL` is 1 the streams and sequence
registers do not matter. -/
structure SameToHost (s s' : State) : Prop where
  fatal     : s.fatal = s'.fatal
  cause     : s.cause = s'.cause
  cfg       : s.cfg = s'.cfg
  pending   : s.pending = s'.pending
  responses : s.responses = s'.responses
  freeCount : s.freeCount = s'.freeCount
  data      : s.fatal = false → s.s0 = s'.s0 ∧ s.s1 = s'.s1 ∧ s.q0 = s'.q0 ∧ s.q1 = s'.q1

end Sys2Proof.Machine
end

