-- ==== Sys2Proof/Certificates/Slice0/Obligations.lean ====
section
/-! DEFINITION. The statements for the provers. -/

open Sys2Proof Sys2Proof.Machine

/-! ### Encoding -/

/-- `30_encoding.md` R70 to R74: no bit of an encoding is dropped. Every well-formed command, every operand value. -/
def Obligations.EncodeThenDecodeIsIdentity : Prop :=
  ∀ i : Instr, i.wf = true → decode (encode i) = .ok i

/-- `30_encoding.md` R70 to R75: "one encoding per command" (D41). A command that decodes is the encoding of what it
decodes to, which is well-formed. -/
def Obligations.DecodeThenEncodeIsIdentity : Prop :=
  ∀ (c : Command) (i : Instr), decode c = .ok i → i.wf = true ∧ encode i = c

/-- `30_encoding.md`, introduction, and R75: a command is legal exactly when its word selects a row of
`opcode_table.json`, keeps the row's constraints, and carries a payload only where the row allows one. -/
def Obligations.LegalExactlyWhenATableRowAdmits : Prop :=
  ∀ c : Command, (∃ i, decode c = .ok i) ↔ ∃ r ∈ opRows, r.selects c.word = true ∧ r.admits c = true

/-- `opcode_table.json`: no word selects two rows, and the row of a legal command has the command's mnemonic. -/
def Obligations.TableRowsAreDisjointAndNameTheCommand : Prop :=
  (∀ r ∈ opRows, ∀ r' ∈ opRows, ∀ w : CmdWord, r.selects w = true → r'.selects w = true → r = r') ∧
  (∀ (c : Command) (i : Instr), decode c = .ok i → ∃ r ∈ opRows, r.selects c.word = true ∧ r.mnemonic = i.mnemonic)

/-- `95_test_vectors.md` section 2.6, legal words: one or more of every family. -/
def Obligations.LegalWordsDecodeToTheirCommands : Prop :=
  decode ⟨0x0040000000000000, []⟩ = .ok (.bsNew .s1) ∧
  decode ⟨0x04080000DEADBEEF, []⟩ = .ok (.bsPutb .s0 32 0xDEADBEEF) ∧
  decode ⟨0x0742C00000000000, []⟩ = .ok (.bsPkb .s1 11) ∧
  decode ⟨0x0A00200000000001, []⟩ = .ok (.bsSeek .s0 1 4) ∧
  decode ⟨0x0510000000000000, []⟩ = .ok (.bsPutq .s0 .q1) ∧
  decode ⟨0x1200C00000000003, []⟩ = .ok (.qAddn .q0 3 3) ∧
  decode ⟨0x1340000000000000, []⟩ = .ok (.qAddq .q1 .q0) ∧
  decode ⟨0x2000000000000000, []⟩ = .ok .hufEnc ∧
  decode ⟨0x2300000000000F07, []⟩ = .ok (.recDec 7 15) ∧
  decode ⟨0x3100000000000007, [0x41]⟩ = .ok (.drvDecomp 7 [0x41])

/-- `95_test_vectors.md` section 2.6, illegal words. -/
def Obligations.IllegalWordsAreRejected : Prop :=
  decode ⟨0x0F00000000000000, []⟩ = .error .opcode ∧
  decode ⟨0x0080000000000000, []⟩ = .error .selector ∧
  decode ⟨0x0000000100000000, []⟩ = .error .zeroField ∧
  decode ⟨0x0B00200000000000, []⟩ = .error .unusedField ∧
  decode ⟨0x0408400000000000, []⟩ = .error .width ∧
  decode ⟨0x0400C0000000000F, []⟩ = .error .operand ∧
  decode ⟨0x2200000000000B02, []⟩ = .error .pair ∧
  decode ⟨0x3000000000000008, []⟩ = .error .algorithm ∧
  decode ⟨0x0000000000000000, [0x41]⟩ = .error .payload

/-! ### Steps, `STATUS`, reset -/

/-- A step takes the oldest event of the host and does it (`20_memory.md` R61: commands take effect in the order the host
issues them). A command that decodes is executed in the state without it; the rest says what else an event can be.
The list of events is the model's own (assumption 2). -/
def Obligations.StepRunsTheDecodedCommand : Prop :=
  (∀ (s : State) (c : Command) (rest : List HostEvent) (i : Instr),
    s.pending = .command c :: rest → decode c = .ok i → step s = exec i { s with pending := rest }) ∧
  (∀ (s : State) (c : Command) (rest : List HostEvent) (e : Illegal),
    s.pending = .command c :: rest → decode c = .error e → step s = rejectCommand { s with pending := rest }) ∧
  (∀ (s : State) (rest : List HostEvent), s.pending = .reset :: rest →
    step s = .next (State.assertReset { s with pending := rest })) ∧
  (∀ s : State, s.pending = [] → step s = .next s)

/-- `60_exceptions.md` R252: `Fatal(ILLEGAL_COMMAND)` (code 5), nothing else changed. -/
def Obligations.IllegalCommandFaultsAndChangesNothingElse : Prop :=
  ∀ (s : State) (c : Command) (rest : List HostEvent), s.pending = .command c :: rest →
    (∀ i, decode c ≠ .ok i) → s.fatal = false →
    ∃ t, step s = .next t ∧ t.fatal = true ∧ t.cause = 5 ∧
      t.responses = s.responses ++ [{ ok := false, cause := 5, value := 0, payload := [] }] ∧
      (∀ x, t.stream x = s.stream x) ∧ (∀ a, t.seq a = s.seq a) ∧ t.cfg = s.cfg ∧ t.pending = rest

/-- `60_exceptions.md` R248: legality is checked before the streams are looked at. The terms of `Instr` with an operand
out of range are no commands of the decoder; that `exec` refuses them the same way is the model's choice (assumption 9). -/
def Obligations.IllFormedOperandsAreIllegalWhateverTheStreamsHold : Prop :=
  ∀ (i : Instr) (s : State), i.wf = false → s.fatal = false →
    ∃ t, exec i s = .next t ∧ t.fatal = true ∧ t.cause = 5 ∧
      t.responses = s.responses ++ [{ ok := false, cause := 5, value := 0, payload := [] }] ∧
      (∀ x, t.stream x = s.stream x) ∧ (∀ a, t.seq a = s.seq a) ∧ t.cfg = s.cfg ∧ t.pending = s.pending

/-- `60_exceptions.md` R244: after the first fatal fault every command, legal or not, gets the same response and changes
nothing; only reset clears the latch. -/
def Obligations.FatalLatchRefusesEveryCommandUntilReset : Prop :=
  ∀ s : State, s.fatal = true →
    (∀ i : Instr, exec i s =
      .next { s with responses := s.responses ++ [{ ok := false, cause := s.cause, value := 0, payload := [] }] }) ∧
    (∀ (c : Command) (rest : List HostEvent), s.pending = .command c :: rest → step s =
      .next { s with
        pending := rest
        responses := s.responses ++ [{ ok := false, cause := s.cause, value := 0, payload := [] }] }) ∧
    (∀ t, step s = .next t → t.fatal = false → ∃ rest, s.pending = .reset :: rest)

/-- `70_reset_and_hazards.md` R271: the state after reset is the table of `10_state.md` R34, whatever came before. -/
def Obligations.ResetRestoresEveryRegister : Prop :=
  (∀ (s : State) (rest : List HostEvent), s.pending = .reset :: rest →
    ∃ t, step s = .next t ∧ (∀ x, t.stream x = { buf := [], bi := 0, bo := 0 }) ∧ (∀ a, t.seq a = []) ∧
      t.fatal = false ∧ t.cause = 0) ∧
  (∀ x, State.reset.stream x = { buf := [], bi := 0, bo := 0 }) ∧ (∀ a, State.reset.seq a = []) ∧
  State.reset.fatal = false ∧ State.reset.cause = 0

/-- `10_state.md` R20, R23, R29, `30_encoding.md` R76: the cursor stays inside its buffer, buffers and registers inside
their limits, `CAUSE` is 0 until `FATAL` is set and then a cause that exists, and every response is of the form of R76. -/
def Obligations.EveryStepKeepsTheInvariant : Prop :=
  ∀ s t : State, Inv s → step s = .next t → Inv t

/-- Reset meets the invariant, whatever the parameters. -/
def Obligations.ResetMeetsTheInvariant : Prop :=
  Inv State.reset ∧ ∀ cfg : Config, Inv (State.resetOf cfg)

/-- `70_reset_and_hazards.md` R284, `60_exceptions.md` R242, `30_encoding.md` R76: a run takes the events in order and
gives one response for each command it takes, the earlier responses kept; no step of it ends in the model's own fault or
in a refusal. -/
def Obligations.EveryRunFromASoundStateGoesOn : Prop :=
  ∀ (n : Nat) (s : State), Inv s → ∃ t, Host.Core.run Sys2Proof.core n s = .next t ∧ Inv t ∧
    t.pending = s.pending.drop n ∧ ∃ new, t.responses = s.responses ++ new ∧
      new.length = (s.pending.take n).countP HostEvent.isCommand

/-- `60_exceptions.md` R243, R244: what streams and registers hold after a fatal fault cannot be observed. Two states that
differ in nothing else give the same responses for ever, reset included. -/
def Obligations.DataAfterAFaultCannotBeObserved : Prop :=
  ∀ (n : Nat) (s s' t : State), SameToHost s s' → Host.Core.run Sys2Proof.core n s = .next t →
    ∃ t', Host.Core.run Sys2Proof.core n s' = .next t' ∧ SameToHost t t'

/-- `30_encoding.md` R76, R77: one response a command; `ok` and `cause` are `STATUS` after it; a command that returns no
value gives 0, one that returns no buffer an empty payload, and a fault response both. -/
def Obligations.EveryCommandGivesOneResponse : Prop :=
  ∀ (i : Instr) (s t : State), exec i s = .next t →
    t.cfg = s.cfg ∧ t.pending = s.pending ∧ ∃ r : Response, t.responses = s.responses ++ [r] ∧
      r.ok = !t.fatal ∧ r.cause = t.cause ∧ (StatusOk s → r.ok = true → r.cause = 0) ∧
      (r.ok = false → r.value = 0 ∧ r.payload = []) ∧
      (i.returnsValue = false → r.value = 0) ∧ (i.returnsPayload = false → r.payload = [])

/-- `60_exceptions.md` R241: which command can latch which cause. A cause that is not listed for a legal command is never
raised by it; 7 and 10 to 15 are listed nowhere. -/
def Obligations.CausesAreRaisedOnlyByTheirCommands : Prop :=
  ∀ (i : Instr) (s t : State), exec i s = .next t → s.fatal = false → t.fatal = true →
    (i.wf = true ∧ t.cause ∈ i.mayRaise) ∨ (i.wf = false ∧ t.cause = 5)

/-- `10_state.md` R36: a model that takes both parameters as unbounded never raises `CAPACITY`. -/
def Obligations.UnboundedBlockNeverRaisesCapacity : Prop :=
  ∀ (i : Instr) (s t : State), exec i s = .next t → s.fatal = false → s.cfg.maxBuf = none → s.cfg.qMax = none →
    t.fatal = true → t.cause ≠ 9

/-- `10_state.md` R20: with a legal finite `MAXBUF` a cursor's byte index is a number of `AW` = 32 bits. -/
def Obligations.ByteIndexFitsItsWidth : Prop :=
  ∀ s : State, Inv s → s.fatal = false → s.cfg.legal = true → s.cfg.maxBuf ≠ none →
    ∀ x, (s.stream x).bi < 2 ^ Config.aw

/-! ### The BS family -/

/-- `40_bitstream.md` R101. -/
def Obligations.BsNewEmptiesTheStream : Prop :=
  ∀ (x : StreamId) (s : State), s.fatal = false →
    ∃ t, exec (.bsNew x) s = .next t ∧ Done (.bsNew x) s t 0 [] ∧
      (t.stream x).buf = [] ∧ (t.stream x).bi = 0 ∧ (t.stream x).bo = 0

/-- `40_bitstream.md` R102. -/
def Obligations.BsLoadTakesThePayload : Prop :=
  ∀ (x : StreamId) (payload : List Byte) (s : State), s.fatal = false →
    (s.cfg.bufFits payload.length = true → ∃ t, exec (.bsLoad x payload) s = .next t ∧
      Done (.bsLoad x payload) s t 0 [] ∧
      (t.stream x).buf = payload ∧ (t.stream x).bi = 0 ∧ (t.stream x).bo = 0) ∧
    (s.cfg.bufFits payload.length = false → FaultsWith (.bsLoad x payload) s 9)

/-- `40_bitstream.md` R103: aligned, the byte is overwritten or appended; mid-byte, its eight bits are written, bit 0
first. -/
def Obligations.BsPutWritesTheByte : Prop :=
  ∀ (x : StreamId) (v : Byte) (s : State), s.fatal = false →
    ((s.stream x).bo = 0 → (s.stream x).bi < (s.stream x).buf.length →
      ∃ t, exec (.bsPut x v) s = .next t ∧ Done (.bsPut x v) s t 0 [] ∧
        t.stream x = { buf := (s.stream x).buf.set (s.stream x).bi v, bi := (s.stream x).bi + 1, bo := 0 }) ∧
    ((s.stream x).bo = 0 → (s.stream x).bi = (s.stream x).buf.length →
      s.cfg.bufFits ((s.stream x).buf.length + 1) = true →
      ∃ t, exec (.bsPut x v) s = .next t ∧ Done (.bsPut x v) s t 0 [] ∧
        t.stream x = { buf := (s.stream x).buf ++ [v], bi := (s.stream x).bi + 1, bo := 0 }) ∧
    ((s.stream x).bo = 0 → (s.stream x).bi = (s.stream x).buf.length →
      s.cfg.bufFits ((s.stream x).buf.length + 1) = false → FaultsWith (.bsPut x v) s 9) ∧
    ((s.stream x).bo ≠ 0 → (s.stream x).bi < (s.stream x).buf.length →
      ((s.stream x).bi + 1 < (s.stream x).buf.length ∨ s.cfg.bufFits ((s.stream x).buf.length + 1) = true) →
      ∃ t, exec (.bsPut x v) s = .next t ∧ Done (.bsPut x v) s t 0 [] ∧
        WroteBits (byteBits v) (s.stream x) (t.stream x)) ∧
    ((s.stream x).bo ≠ 0 → (s.stream x).bi + 1 = (s.stream x).buf.length →
      s.cfg.bufFits ((s.stream x).buf.length + 1) = false → FaultsWith (.bsPut x v) s 9) ∧
    ((s.stream x).bo ≠ 0 → (s.stream x).bi = (s.stream x).buf.length → FaultsWith (.bsPut x v) s 4)

/-- `40_bitstream.md` R104. -/
def Obligations.BsPutfOverwritesInPlace : Prop :=
  ∀ (x : StreamId) (v : Byte) (s : State), s.fatal = false →
    ((s.stream x).bi < (s.stream x).buf.length → (s.stream x).bo = 0 →
      ∃ t, exec (.bsPutf x v) s = .next t ∧ Done (.bsPutf x v) s t 0 [] ∧
        t.stream x = { buf := (s.stream x).buf.set (s.stream x).bi v, bi := (s.stream x).bi + 1, bo := 0 }) ∧
    ((s.stream x).buf.length ≤ (s.stream x).bi ∨ (s.stream x).bo ≠ 0 → FaultsWith (.bsPutf x v) s 2)

/-- `40_bitstream.md` R105: bit `j` of the pattern goes to position `pos + j`; the buffer grows by zeroed bytes as far as
the bits reach; every other bit stays. Width 0 writes nothing, anywhere. -/
def Obligations.BsPutbWritesThePattern : Prop :=
  ∀ (x : StreamId) (n pattern : Nat) (s : State), n ≤ 32 → pattern < 2 ^ n → s.fatal = false →
    (n = 0 → ∃ t, exec (.bsPutb x n pattern) s = .next t ∧ Done (.bsPutb x n pattern) s t 0 [] ∧
      t.stream x = s.stream x) ∧
    (n ≠ 0 → (s.stream x).pos ≤ 8 * (s.stream x).buf.length →
      ((s.stream x).pos + n ≤ 8 * (s.stream x).buf.length ∨
        s.cfg.bufFits (bytesFor ((s.stream x).pos + n)) = true) →
      ∃ t, exec (.bsPutb x n pattern) s = .next t ∧ Done (.bsPutb x n pattern) s t 0 [] ∧
        WroteBits ((List.range n).map pattern.testBit) (s.stream x) (t.stream x)) ∧
    (n ≠ 0 → (s.stream x).pos ≤ 8 * (s.stream x).buf.length → 8 * (s.stream x).buf.length < (s.stream x).pos + n →
      s.cfg.bufFits (bytesFor ((s.stream x).pos + n)) = false → FaultsWith (.bsPutb x n pattern) s 9) ∧
    (n ≠ 0 → (s.stream x).bi = (s.stream x).buf.length → (s.stream x).bo ≠ 0 → FaultsWith (.bsPutb x n pattern) s 4)

/-- `40_bitstream.md` R106: the first-added bit goes first; the sequence register is only read. -/
def Obligations.BsPutqWritesTheSequence : Prop :=
  ∀ (x : StreamId) (q : SeqId) (s : State), s.fatal = false →
    (s.seq q = [] → ∃ t, exec (.bsPutq x q) s = .next t ∧ Done (.bsPutq x q) s t 0 [] ∧ t.stream x = s.stream x) ∧
    (s.seq q ≠ [] → (s.stream x).pos ≤ 8 * (s.stream x).buf.length →
      ((s.stream x).pos + (s.seq q).length ≤ 8 * (s.stream x).buf.length ∨
        s.cfg.bufFits (bytesFor ((s.stream x).pos + (s.seq q).length)) = true) →
      ∃ t, exec (.bsPutq x q) s = .next t ∧ Done (.bsPutq x q) s t 0 [] ∧
        WroteBits (s.seq q) (s.stream x) (t.stream x)) ∧
    (s.seq q ≠ [] → (s.stream x).pos ≤ 8 * (s.stream x).buf.length →
      8 * (s.stream x).buf.length < (s.stream x).pos + (s.seq q).length →
      s.cfg.bufFits (bytesFor ((s.stream x).pos + (s.seq q).length)) = false → FaultsWith (.bsPutq x q) s 9) ∧
    (s.seq q ≠ [] → (s.stream x).bi = (s.stream x).buf.length → (s.stream x).bo ≠ 0 → FaultsWith (.bsPutq x q) s 4)

/-- `40_bitstream.md` R107: the first bit read is bit 0 of the value, the cursor moves past the bits, memory stays. -/
def Obligations.BsRdbReadsAndMoves : Prop :=
  ∀ (x : StreamId) (n : Nat) (s : State), n ≤ 32 → s.fatal = false →
    (n = 0 ∨ (s.stream x).pos + n ≤ 8 * (s.stream x).buf.length →
      ∃ t, exec (.bsRdb x n) s = .next t ∧
        Done (.bsRdb x n) s t (valueAt (s.stream x).buf (s.stream x).pos n) [] ∧
        (t.stream x).buf = (s.stream x).buf ∧ (t.stream x).pos = (s.stream x).pos + n) ∧
    (n ≠ 0 → 8 * (s.stream x).buf.length < (s.stream x).pos + n → FaultsWith (.bsRdb x n) s 1)

/-- `40_bitstream.md` R108: what `BS.RDB` would return, both streams and both registers as they were, and a fault exactly
when `BS.RDB` would. -/
def Obligations.BsPkbReadsWithoutMoving : Prop :=
  ∀ (x : StreamId) (n : Nat) (s : State), n ≤ 32 → s.fatal = false →
    (n = 0 ∨ (s.stream x).pos + n ≤ 8 * (s.stream x).buf.length →
      (∃ t, exec (.bsPkb x n) s = .next t ∧
        Done (.bsPkb x n) s t (valueAt (s.stream x).buf (s.stream x).pos n) []) ∧
      ∃ u, exec (.bsRdb x n) s = .next u ∧
        Done (.bsRdb x n) s u (valueAt (s.stream x).buf (s.stream x).pos n) []) ∧
    (n ≠ 0 → 8 * (s.stream x).buf.length < (s.stream x).pos + n →
      FaultsWith (.bsPkb x n) s 1 ∧ FaultsWith (.bsRdb x n) s 1)

/-- `40_bitstream.md` R109: aligned, the byte at the cursor; mid-byte, the high bits of this byte and the low bits of the
next. -/
def Obligations.BsRdReadsAByte : Prop :=
  ∀ (x : StreamId) (s : State), s.fatal = false →
    (∀ v, (s.stream x).bo = 0 → (s.stream x).buf[(s.stream x).bi]? = some v →
      ∃ t, exec (.bsRd x) s = .next t ∧ Done (.bsRd x) s t v.toNat [] ∧
        t.stream x = { buf := (s.stream x).buf, bi := (s.stream x).bi + 1, bo := 0 }) ∧
    (∀ v w, (s.stream x).bo ≠ 0 → (s.stream x).buf[(s.stream x).bi]? = some v →
      (s.stream x).buf[(s.stream x).bi + 1]? = some w →
      ∃ t, exec (.bsRd x) s = .next t ∧
        Done (.bsRd x) s t (v.toNat / 2 ^ (s.stream x).bo.val +
          w.toNat % 2 ^ (s.stream x).bo.val * 2 ^ (8 - (s.stream x).bo.val)) [] ∧
        t.stream x = { buf := (s.stream x).buf, bi := (s.stream x).bi + 1, bo := (s.stream x).bo }) ∧
    (8 * (s.stream x).buf.length < (s.stream x).pos + 8 → FaultsWith (.bsRd x) s 1)

/-- `40_bitstream.md` R110: what `BS.RD` would return, the cursor left alone. -/
def Obligations.BsPkReadsAByteWithoutMoving : Prop :=
  ∀ (x : StreamId) (s : State), s.fatal = false →
    (∀ v, (s.stream x).bo = 0 → (s.stream x).buf[(s.stream x).bi]? = some v →
      ∃ t, exec (.bsPk x) s = .next t ∧ Done (.bsPk x) s t v.toNat []) ∧
    (∀ v w, (s.stream x).bo ≠ 0 → (s.stream x).buf[(s.stream x).bi]? = some v →
      (s.stream x).buf[(s.stream x).bi + 1]? = some w →
      ∃ t, exec (.bsPk x) s = .next t ∧
        Done (.bsPk x) s t (v.toNat / 2 ^ (s.stream x).bo.val +
          w.toNat % 2 ^ (s.stream x).bo.val * 2 ^ (8 - (s.stream x).bo.val)) []) ∧
    (8 * (s.stream x).buf.length < (s.stream x).pos + 8 → FaultsWith (.bsPk x) s 1)

/-- `40_bitstream.md` R111. -/
def Obligations.BsSeekMovesTheCursor : Prop :=
  ∀ (x : StreamId) (i : BitVec 32) (k : Fin 8) (s : State), s.fatal = false →
    (i.toNat ≤ (s.stream x).buf.length → ∃ t, exec (.bsSeek x i k) s = .next t ∧ Done (.bsSeek x i k) s t 0 [] ∧
      t.stream x = { buf := (s.stream x).buf, bi := i.toNat, bo := k }) ∧
    ((s.stream x).buf.length < i.toNat → FaultsWith (.bsSeek x i k) s 3)

/-- `40_bitstream.md` R112 to R115: the accessors complete in every state without a fault and change nothing
(`Instr.writesStream` and `Instr.writesSeq` are false for them). -/
def Obligations.AccessorsReportAndChangeNothing : Prop :=
  ∀ (x : StreamId) (s : State), s.fatal = false →
    (∃ t, exec (.bsAtend x) s = .next t ∧
      Done (.bsAtend x) s t (if (s.stream x).buf.length ≤ (s.stream x).bi then 1 else 0) []) ∧
    (∃ t, exec (.bsTell x) s = .next t ∧
      Done (.bsTell x) s t (8 * (s.stream x).bi + (s.stream x).bo.val) []) ∧
    (∃ t, exec (.bsLen x) s = .next t ∧ Done (.bsLen x) s t (s.stream x).buf.length []) ∧
    (∃ t, exec (.bsDump x) s = .next t ∧ Done (.bsDump x) s t (s.stream x).buf.length (s.stream x).buf)

/-- `20_memory.md` R55: the byte paths agree with the 8-bit pattern commands in every state, at every offset. -/
def Obligations.BytePathsAgreeWithEightBitPatterns : Prop :=
  ∀ (x : StreamId) (v : Byte) (s : State),
    exec (.bsPut x v) s = exec (.bsPutb x 8 v.toNat) s ∧
    exec (.bsRd x) s = exec (.bsRdb x 8) s ∧
    exec (.bsPk x) s = exec (.bsPkb x 8) s

/-- `40_bitstream.md` R116. Symmetry: a pattern or a byte that was written is read back from any later state in which the
bits at its positions are still what the write left (`BS.SEEK` can name the position when its byte index has 32 bits).
Peek and read: both answer the same and the peek moves nothing. Seek: what is read or peeked after it is the buffer's bit
string from there, whatever the cursor was, and `BS.ATEND` compares the new byte index with the buffer's length. -/
def Obligations.WriteSeekReadRoundTrip : Prop :=
  (∀ (x : StreamId) (n v : Nat) (s t u : State), n ≤ 32 → v < 2 ^ n → s.fatal = false →
    exec (.bsPutb x n v) s = .next t → t.fatal = false → u.fatal = false →
    (s.stream x).bi < 2 ^ 32 → (s.stream x).bi ≤ (u.stream x).buf.length →
    (∀ j, j < n → bitAtPos (u.stream x).buf ((s.stream x).pos + j) = bitAtPos (t.stream x).buf ((s.stream x).pos + j)) →
    ∃ w z, exec (.bsSeek x (BitVec.ofNat 32 (s.stream x).bi) (s.stream x).bo) u = .next w ∧
      exec (.bsRdb x n) w = .next z ∧ Done (.bsRdb x n) w z v []) ∧
  (∀ (x : StreamId) (v : Byte) (s t u : State), s.fatal = false →
    exec (.bsPut x v) s = .next t → t.fatal = false → u.fatal = false →
    (s.stream x).bi < 2 ^ 32 →
    (∀ j, j < 8 → bitAtPos (u.stream x).buf ((s.stream x).pos + j) = bitAtPos (t.stream x).buf ((s.stream x).pos + j)) →
    ∃ w z, exec (.bsSeek x (BitVec.ofNat 32 (s.stream x).bi) (s.stream x).bo) u = .next w ∧
      exec (.bsRd x) w = .next z ∧ Done (.bsRd x) w z v.toNat []) ∧
  (∀ (x : StreamId) (n : Nat) (s t : State), n ≤ 32 → s.fatal = false →
    exec (.bsRdb x n) s = .next t → t.fatal = false →
    ∃ u v, exec (.bsPkb x n) s = .next u ∧ u.stream x = s.stream x ∧ exec (.bsRdb x n) u = .next v ∧
      u.responses = t.responses ∧ v.responses = t.responses ++ t.responses.drop s.responses.length) ∧
  (∀ (x : StreamId) (i : BitVec 32) (k : Fin 8) (n : Nat) (s : State), n ≤ 32 → s.fatal = false →
    8 * i.toNat + k.val + n ≤ 8 * (s.stream x).buf.length →
    ∃ t u v, exec (.bsSeek x i k) s = .next t ∧ exec (.bsRdb x n) t = .next u ∧ exec (.bsPkb x n) t = .next v ∧
      Done (.bsRdb x n) t u (valueAt (s.stream x).buf (8 * i.toNat + k.val) n) [] ∧
      Done (.bsPkb x n) t v (valueAt (s.stream x).buf (8 * i.toNat + k.val) n) []) ∧
  (∀ (x : StreamId) (i : BitVec 32) (k : Fin 8) (s : State), s.fatal = false → i.toNat ≤ (s.stream x).buf.length →
    ∃ t u, exec (.bsSeek x i k) s = .next t ∧ exec (.bsAtend x) t = .next u ∧
      Done (.bsAtend x) t u (if (s.stream x).buf.length ≤ i.toNat then 1 else 0) [])

/-- `70_reset_and_hazards.md` R276: `BS.SEEK` can set the unaligned append position; from there every read, peek and write
of a bit or more is fatal; `BS.SEEK`, `BS.NEW`, `BS.LOAD` and the accessors are safe. -/
def Obligations.UnalignedAppendPositionIsADeadEnd : Prop :=
  (∀ (x : StreamId) (i : BitVec 32) (k : Fin 8) (s : State), s.fatal = false → i.toNat = (s.stream x).buf.length →
    ∃ t, exec (.bsSeek x i k) s = .next t ∧ Done (.bsSeek x i k) s t 0 [] ∧
      t.stream x = { buf := (s.stream x).buf, bi := (s.stream x).buf.length, bo := k }) ∧
  (∀ (x : StreamId) (s : State), s.fatal = false → (s.stream x).bi = (s.stream x).buf.length → (s.stream x).bo ≠ 0 →
    FaultsWith (.bsRd x) s 1 ∧ FaultsWith (.bsPk x) s 1 ∧
    (∀ n, 1 ≤ n → n ≤ 32 → FaultsWith (.bsRdb x n) s 1 ∧ FaultsWith (.bsPkb x n) s 1) ∧
    (∀ v, FaultsWith (.bsPut x v) s 4 ∧ FaultsWith (.bsPutf x v) s 2) ∧
    (∀ n p, 1 ≤ n → n ≤ 32 → p < 2 ^ n → FaultsWith (.bsPutb x n p) s 4) ∧
    (∀ q, s.seq q ≠ [] → FaultsWith (.bsPutq x q) s 4) ∧
    (∀ i ∈ [Instr.bsSeek x 0 0, .bsNew x, .bsLoad x [], .bsAtend x, .bsTell x, .bsLen x, .bsDump x],
      ∃ t v p, exec i s = .next t ∧ Done i s t v p))

/-- `20_memory.md` R56: a command of width 0 moves nothing, touches nothing and cannot fault, at any cursor. -/
def Obligations.ZeroWidthTouchesNothing : Prop :=
  ∀ (x : StreamId) (s : State), s.fatal = false →
    ∀ i ∈ [Instr.bsPutb x 0 0, .bsRdb x 0, .bsPkb x 0],
      ∃ t, exec i s = .next t ∧ Done i s t 0 [] ∧ t.stream x = s.stream x

/-! ### Frames -/

/-- `10_state.md` R22, R27, `42_huffman.md` R160: a completed command leaves every stream and sequence register it is not
said to write, and `STATUS`, the parameters and the pending events, as they were. -/
def Obligations.CompletedCommandsKeepWhatTheyDoNotWrite : Prop :=
  ∀ (i : Instr) (s t : State), exec i s = .next t → t.fatal = false →
    (∀ x, i.writesStream x = false → t.stream x = s.stream x) ∧
    (∀ a, i.writesSeq a = false → t.seq a = s.seq a) ∧
    t.cause = s.cause ∧ t.cfg = s.cfg ∧ t.pending = s.pending

/-- `20_memory.md` R58, R59, R65, `70_reset_and_hazards.md` R277: in every completed command but the four that replace a
buffer whole, every bit outside the ones stored at the cursor reads as before. -/
def Obligations.StoresTouchOnlyTheirBits : Prop :=
  ∀ (i : Instr) (s t : State) (x : StreamId), exec i s = .next t → t.fatal = false → i.replacesBuffer = false →
    ∀ p, p < 8 * (s.stream x).buf.length →
      (p < (s.stream x).pos ∨ (s.stream x).pos + storedBits i s x ≤ p) →
      bitAtPos (t.stream x).buf p = bitAtPos (s.stream x).buf p

/-- `10_state.md` R21: no command makes a buffer shorter except by replacing it whole. -/
def Obligations.BuffersNeverShrinkUnlessReplaced : Prop :=
  ∀ (i : Instr) (s t : State) (x : StreamId), exec i s = .next t → t.fatal = false → i.replacesBuffer = false →
    (s.stream x).buf.length ≤ (t.stream x).buf.length

/-! ### The Q family -/

/-- `41_bitsequence.md` R141 to R144: clear, and the three appends: one bit, a pattern with bit N-1 first, and a sequence
whose value is taken before the destination changes. -/
def Obligations.SequenceWritesClearOrAppend : Prop :=
  ∀ (a b : SeqId) (bit : Bool) (n pattern : Nat) (s : State), n ≤ 32 → pattern < 2 ^ n → s.fatal = false →
    (∃ t, exec (.qClr a) s = .next t ∧ Done (.qClr a) s t 0 [] ∧ t.seq a = []) ∧
    (s.cfg.seqFits ((s.seq a).length + 1) = true → ∃ t, exec (.qAdd1 a bit) s = .next t ∧
      Done (.qAdd1 a bit) s t 0 [] ∧ t.seq a = s.seq a ++ [bit]) ∧
    (s.cfg.seqFits ((s.seq a).length + 1) = false → FaultsWith (.qAdd1 a bit) s 9) ∧
    (s.cfg.seqFits ((s.seq a).length + n) = true → ∃ t, exec (.qAddn a n pattern) s = .next t ∧
      Done (.qAddn a n pattern) s t 0 [] ∧
      t.seq a = s.seq a ++ (List.range n).map fun j => pattern.testBit (n - 1 - j)) ∧
    (s.cfg.seqFits ((s.seq a).length + n) = false → FaultsWith (.qAddn a n pattern) s 9) ∧
    (s.cfg.seqFits ((s.seq a).length + (s.seq b).length) = true → ∃ t, exec (.qAddq a b) s = .next t ∧
      Done (.qAddq a b) s t 0 [] ∧ t.seq a = s.seq a ++ s.seq b) ∧
    (s.cfg.seqFits ((s.seq a).length + (s.seq b).length) = false → FaultsWith (.qAddq a b) s 9)

/-- `41_bitsequence.md` R145 to R147: the two folds and the length, and that a pattern added to an empty register is the
number it was. -/
def Obligations.SequenceViewsAreTheirFolds : Prop :=
  (∀ (a : SeqId) (s : State), s.fatal = false →
    (∃ t, exec (.qUint a) s = .next t ∧
      Done (.qUint a) s t ((s.seq a).foldl (fun acc b => 2 * acc + b.toNat) 0) []) ∧
    (∃ t, exec (.qHash a) s = .next t ∧
      Done (.qHash a) s t ((s.seq a).foldl (fun acc b => 2 * acc + b.toNat) 1) []) ∧
    (∃ t, exec (.qLen a) s = .next t ∧ Done (.qLen a) s t (s.seq a).length [])) ∧
  (∀ (a : SeqId) (n v : Nat) (s t : State), n ≤ 32 → v < 2 ^ n → s.fatal = false → s.seq a = [] →
    exec (.qAddn a n v) s = .next t → t.fatal = false →
    ∃ u, exec (.qUint a) t = .next u ∧ Done (.qUint a) t u v [])

/-- `41_bitsequence.md` R148. -/
def Obligations.HashIsLengthAndNumberAndOneToOne : Prop :=
  (∀ q : Seq, seqHash q = 2 ^ q.length + toUint q ∧ toUint q < 2 ^ q.length) ∧
  (∀ q r : Seq, seqHash q = seqHash r ↔ q = r) ∧
  (∃ q r : Seq, toUint q = toUint r ∧ q ≠ r ∧ seqHash q ≠ seqHash r)

/-- `20_memory.md` R54, `70_reset_and_hazards.md` R278: the same number written by `BS.PUTB` and by `Q.ADDN` then `BS.PUTQ`
lands bit-reversed. -/
def Obligations.TheTwoBitOrdersAreReversed : Prop :=
  ∀ (x : StreamId) (a : SeqId) (n v : Nat) (s t u w : State), n ≤ 32 → v < 2 ^ n → s.fatal = false → s.seq a = [] →
    exec (.bsPutb x n v) s = .next t → t.fatal = false →
    exec (.qAddn a n v) s = .next u → u.fatal = false → exec (.bsPutq x a) u = .next w → w.fatal = false →
    (w.stream x).pos = (t.stream x).pos ∧
    ∀ j, j < n → bitAtPos (w.stream x).buf ((s.stream x).pos + j) =
      bitAtPos (t.stream x).buf ((s.stream x).pos + (n - 1 - j))

/-! ### The HUF family -/

/-- `42_huffman.md` R160: a codec command that does not find `IN` at (0,0) and `OUT` empty at (0,0) faults. -/
def Obligations.CodecsDemandFreshStreams : Prop :=
  ∀ s : State, s.fatal = false → ¬ FreshStreams s →
    FaultsWith .hufEnc s 6 ∧ FaultsWith .hufDec s 6 ∧
    ∀ p ∈ Config.pairs, FaultsWith (.recEnc p.1 p.2) s 6 ∧ FaultsWith (.recDec p.1 p.2) s 6

/-- `42_huffman.md` R171: the start-state check, the end state of `HUF.ENC`, the wire format of `30_encoding.md` R86 with
the count `T mod 8`, and the length `ceil(T / 8)`; `CAPACITY` when that does not fit. -/
def Obligations.HufEncWritesTheWireFormat : Prop :=
  ∀ s : State, s.fatal = false →
    (¬ FreshStreams s → FaultsWith .hufEnc s 6) ∧
    (FreshStreams s → s.cfg.bufFits (bytesFor (hufTotal s.s0.buf)) = true →
      ∃ t, exec .hufEnc s = .next t ∧ Done .hufEnc s t 1 [] ∧
        t.s0 = { buf := s.s0.buf, bi := s.s0.buf.length, bo := 0 } ∧ t.s1.bi = 0 ∧ t.s1.bo = 3 ∧
        t.s1.buf.length = bytesFor (hufTotal s.s0.buf) ∧
        HoldsBits (hufBits (hufTotal s.s0.buf % 8) s.s0.buf) t.s1.buf) ∧
    (FreshStreams s → s.cfg.bufFits (bytesFor (hufTotal s.s0.buf)) = false → FaultsWith .hufEnc s 9)

/-- `42_huffman.md` R173 to R177: the start-state check; `HUF.DEC` answers `true` with `out` exactly when its input reads as
`out`; the end state on `true`; on `false` only `IN.buf` is said to stay. The one fault left is `CAPACITY`, raised exactly
when the bytes decoded so far do not fit. -/
def Obligations.HufDecDecodesWhatTheBitsSay : Prop :=
  ∀ s : State, s.fatal = false →
    (¬ FreshStreams s → FaultsWith .hufDec s 6) ∧
    (FreshStreams s → ∀ out, HufReads s.s0.buf out → s.cfg.bufFits out.length = true →
      ∃ t, exec .hufDec s = .next t ∧ Done .hufDec s t 1 [] ∧
        t.s0.buf = s.s0.buf ∧ t.s0.pos = max (endOf s.s0.buf) 12 ∧
        t.s1 = { buf := out, bi := out.length, bo := 0 }) ∧
    (FreshStreams s → ∀ out rest, HufStarts s.s0.buf out rest → s.cfg.bufFits out.length = false →
      FaultsWith .hufDec s 9) ∧
    (FreshStreams s → (∀ out, ¬ HufReads s.s0.buf out) →
      (∀ out rest, HufStarts s.s0.buf out rest → s.cfg.bufFits out.length = true) →
      ∃ t, exec .hufDec s = .next t ∧ Done .hufDec s t 0 [] ∧ t.s0.buf = s.s0.buf)

/-- `42_huffman.md` R172: fewer than two bytes are a format error, not a fault. -/
def Obligations.ShortInputIsAFormatError : Prop :=
  ∀ s : State, s.fatal = false → FreshStreams s → s.s0.buf.length < 2 →
    (∃ t, exec .hufDec s = .next t ∧ Done .hufDec s t 0 [] ∧ t.s0.buf = s.s0.buf) ∧
    ∀ p ∈ Config.pairs, ∃ t, exec (.recDec p.1 p.2) s = .next t ∧ Done (.recDec p.1 p.2) s t 0 [] ∧ t.s0.buf = s.s0.buf

/-- `42_huffman.md` R164: the tie-break. The node taken is a member, the rest is the set without it, and it has the least
frequency, among equals the least number. -/
def Obligations.ExtractMinTakesTheLeast : Prop :=
  ∀ (x : Node) (ys : List Node),
    ((extractMin x ys).1 :: (extractMin x ys).2).Perm (x :: ys) ∧
    ∀ y ∈ x :: ys, (extractMin x ys).1.freq < y.freq ∨
      ((extractMin x ys).1.freq = y.freq ∧ (extractMin x ys).1.num ≤ y.num)

/-- `42_huffman.md` R161, R166, R167: every byte value that occurs has one codeword and no other has; the alphabet has at
most 256 entries; no codeword starts another; with two or more entries a codeword has 1 to `k - 1` bits, with one it
is empty. -/
def Obligations.HuffmanAlphabetIsPrefixFree : Prop :=
  ∀ data : List Byte,
    ((alphabet data).map Prod.fst).Perm (distinctBytes data) ∧
    (∀ v, v ∈ distinctBytes data ↔ v ∈ data) ∧ (distinctBytes data).Nodup ∧ (distinctBytes data).length ≤ 256 ∧
    (∀ v ∈ data, ∀ w ∈ data, v ≠ w → ¬ codeOf (alphabet data) v <+: codeOf (alphabet data) w) ∧
    (∀ v ∈ data, 2 ≤ (distinctBytes data).length →
      1 ≤ (codeOf (alphabet data) v).length ∧
        (codeOf (alphabet data) v).length ≤ (distinctBytes data).length - 1) ∧
    (∀ v ∈ data, (distinctBytes data).length = 1 → codeOf (alphabet data) v = [])

/-- `42_huffman.md` R162 to R166: the leaves in ascending byte value; the merges, each of the least node and the least of
the rest, the first taken the first child; the root's frequency and number; and each codeword the path to its leaf, 1 to
the first child and 0 to the second. -/
def Obligations.CodewordsArePathsInTheMergedTree : Prop :=
  ∀ data : List Byte,
    (distinctBytes data).Pairwise (fun v w => v.toNat < w.toNat) ∧ (∀ v, v ∈ distinctBytes data ↔ v ∈ data) ∧
    (leaves data).length = (distinctBytes data).length ∧
    (∀ (i : Nat) (v : Byte), (distinctBytes data)[i]? = some v →
      (leaves data)[i]? = some { freq := data.count v, num := i, tree := .leaf v }) ∧
    (data = [] → huffTree data = none ∧ alphabet data = []) ∧
    (data ≠ [] → ∃ root, MergesTo (distinctBytes data).length (leaves data) root ∧ huffTree data = some root.tree ∧
      root.freq = data.length ∧
      (2 ≤ (distinctBytes data).length → root.num = 2 * (distinctBytes data).length - 2) ∧
      ∀ v ∈ data, PathTo root.tree v (codeOf (alphabet data) v))

/-- `42_huffman.md` R178: `HUF.ENC`, the driver's two steps by hand, `HUF.DEC`: `true`, and the input again, but for an input
that is one byte value repeated, which comes back empty (`90_conflicts.md` C2). -/
def Obligations.HuffmanRoundTrip : Prop :=
  ∀ s : State, s.fatal = false → FreshStreams s → s.cfg.bufFits s.s0.buf.length = true →
    s.cfg.bufFits (bytesFor (hufTotal s.s0.buf)) = true →
    ∃ t u v w, exec .hufEnc s = .next t ∧ exec (.bsLoad .s0 t.s1.buf) t = .next u ∧ exec (.bsNew .s1) u = .next v ∧
      exec .hufDec v = .next w ∧ Done .hufDec v w 1 [] ∧
      w.s1.buf = if (distinctBytes s.s0.buf).length = 1 then [] else s.s0.buf

/-! ### The REC family -/

/-- `43_ranked_escape.md` R201: the distinct bytes by descending frequency, ties by ascending value. -/
def Obligations.RankTableIsSorted : Prop :=
  ∀ data : List Byte,
    (rankTable data).Perm (distinctBytes data) ∧ (∀ v, v ∈ rankTable data ↔ v ∈ data) ∧
    (rankTable data).Pairwise fun v w =>
      data.count w < data.count v ∨ (data.count v = data.count w ∧ v.toNat < w.toNat)

/-- `43_ranked_escape.md` R202, R203: for the six pairs a rank's symbol has the width and bits the rule gives, and decodes
to the rank; the long pattern with offset 0, which no rank has, decodes to `ESC - 1` (entry U13). -/
def Obligations.SymbolsAndRanksAreInverse : Prop :=
  ∀ p ∈ Config.pairs,
    (∀ r, r < 256 → symbolOf p.1 p.2 r =
        (if r < 2 ^ p.1 - 1 then (r, p.1) else ((r - (2 ^ p.1 - 1) + 1) <<< p.1 ||| (2 ^ p.1 - 1), p.2)) ∧
      IsSymbol p.1 p.2 (symbolOf p.1 p.2 r) ∧ symbolRank p.1 (symbolOf p.1 p.2 r) = r) ∧
    longRank p.1 (2 ^ p.1 - 1) = 2 ^ p.1 - 2 ∧
    (∀ r, r < 256 → symbolOf p.1 p.2 r ≠ (2 ^ p.1 - 1, p.2))

/-- `43_ranked_escape.md` R205: the legality of the pair, the start-state check, the end state of `REC.ENC`, the wire format
of `30_encoding.md` R87, the length; `CAPACITY` when that does not fit. -/
def Obligations.RecEncWritesTheWireFormat : Prop :=
  ∀ (short long : Nat) (s : State), s.fatal = false →
    ((short, long) ∉ Config.pairs → FaultsWith (.recEnc short long) s 5) ∧
    ((short, long) ∈ Config.pairs → ¬ FreshStreams s → FaultsWith (.recEnc short long) s 6) ∧
    ((short, long) ∈ Config.pairs → FreshStreams s → s.cfg.bufFits (bytesFor (recTotal short long s.s0.buf)) = true →
      ∃ t, exec (.recEnc short long) s = .next t ∧ Done (.recEnc short long) s t 1 [] ∧
        t.s0 = { buf := s.s0.buf, bi := s.s0.buf.length, bo := 0 } ∧ t.s1.bi = 0 ∧ t.s1.bo = 3 ∧
        t.s1.buf.length = bytesFor (recTotal short long s.s0.buf) ∧
        HoldsBits (recBits (recTotal short long s.s0.buf % 8) short long s.s0.buf) t.s1.buf) ∧
    ((short, long) ∈ Config.pairs → FreshStreams s → s.cfg.bufFits (bytesFor (recTotal short long s.s0.buf)) = false →
      FaultsWith (.recEnc short long) s 9)

/-- `43_ranked_escape.md` R206 to R208: `REC.DEC` answers `true` with `out` exactly when its input reads as `out`, and ends
at the end boundary; on `false` only `IN.buf` is said to stay; `CAPACITY` exactly when the bytes decoded so far do not fit.
That two bytes with size 0 and a final bit-count of 1 to 3 read as nothing is the model's choice of R206's pseudocode over
R209's prose (assumption 10, DEDUCED). -/
def Obligations.RecDecDecodesWhatTheBitsSay : Prop :=
  ∀ (short long : Nat) (s : State), s.fatal = false →
    ((short, long) ∉ Config.pairs → FaultsWith (.recDec short long) s 5) ∧
    ((short, long) ∈ Config.pairs → ¬ FreshStreams s → FaultsWith (.recDec short long) s 6) ∧
    ((short, long) ∈ Config.pairs → FreshStreams s → ∀ out, RecReads short long s.s0.buf out →
      s.cfg.bufFits out.length = true →
      ∃ t, exec (.recDec short long) s = .next t ∧ Done (.recDec short long) s t 1 [] ∧
        t.s0.buf = s.s0.buf ∧ t.s0.pos = endOf s.s0.buf ∧ t.s1 = { buf := out, bi := out.length, bo := 0 }) ∧
    ((short, long) ∈ Config.pairs → FreshStreams s → ∀ out rest, RecStarts short long s.s0.buf out rest →
      s.cfg.bufFits out.length = false → FaultsWith (.recDec short long) s 9) ∧
    ((short, long) ∈ Config.pairs → FreshStreams s → (∀ out, ¬ RecReads short long s.s0.buf out) →
      (∀ out rest, RecStarts short long s.s0.buf out rest → s.cfg.bufFits out.length = true) →
      ∃ t, exec (.recDec short long) s = .next t ∧ Done (.recDec short long) s t 0 [] ∧ t.s0.buf = s.s0.buf)

/-- `43_ranked_escape.md` R210: the round trip for all six pairs and every input, one byte value repeated included; and
the output lengths for the buffer 00 to FF. -/
def Obligations.RankedEscapeRoundTrip : Prop :=
  (∀ p ∈ Config.pairs, ∀ s : State, s.fatal = false → FreshStreams s → s.cfg.bufFits s.s0.buf.length = true →
    s.cfg.bufFits (bytesFor (recTotal p.1 p.2 s.s0.buf)) = true →
    ∃ t u v w, exec (.recEnc p.1 p.2) s = .next t ∧ exec (.bsLoad .s0 t.s1.buf) t = .next u ∧
      exec (.bsNew .s1) u = .next v ∧ exec (.recDec p.1 p.2) v = .next w ∧ Done (.recDec p.1 p.2) v w 1 [] ∧
      w.s1.buf = s.s0.buf) ∧
  rankTable allBytes = allBytes ∧
  Config.pairs.map (fun p => bytesFor (recTotal p.1 p.2 allBytes)) = [575, 603, 627, 643, 643, 611]

/-! ### The DRV family -/

/-- `44_driver.md` R230, R233, R235: a driver command is `BS.LOAD`, `BS.NEW`, the codec command and `BS.DUMP`; a `false` of
the codec is `DRIVER_ASSERT`, a fault of the codec the same fault. -/
def Obligations.DriverIsLoadNewCodecDump : Prop :=
  ∀ (s t u v : State) (payload : List Byte) (drv codec : Instr),
    ((drv = .drvComp 1 payload ∧ codec = .hufEnc) ∨ (drv = .drvDecomp 1 payload ∧ codec = .hufDec) ∨
      (∃ alg, 2 ≤ alg ∧ alg ≤ 7 ∧ drv = .drvComp alg payload ∧ codec = .recEnc alg (alg + 8)) ∨
      (∃ alg, 2 ≤ alg ∧ alg ≤ 7 ∧ drv = .drvDecomp alg payload ∧ codec = .recDec alg (alg + 8))) →
    s.fatal = false → exec (.bsLoad .s0 payload) s = .next t → t.fatal = false → exec (.bsNew .s1) t = .next u →
    exec codec u = .next v →
    (Done codec u v 1 [] → ∃ w, exec drv s = .next w ∧ Done drv s w v.s1.buf.length v.s1.buf ∧
      (∀ x, w.stream x = v.stream x)) ∧
    (Done codec u v 0 [] → FaultsWith drv s 8) ∧
    (v.fatal = true → FaultsWith drv s v.cause)

/-- `44_driver.md` R234: the identity algorithm, both directions. -/
def Obligations.IdentityDriverCopies : Prop :=
  ∀ (payload : List Byte) (s : State), s.fatal = false →
    (s.cfg.bufFits payload.length = true →
      (∃ t, exec (.drvComp 0 payload) s = .next t ∧ Done (.drvComp 0 payload) s t payload.length payload ∧
        ∀ x, t.stream x = { buf := payload, bi := payload.length, bo := 0 }) ∧
      (∃ t, exec (.drvDecomp 0 payload) s = .next t ∧ Done (.drvDecomp 0 payload) s t payload.length payload ∧
        ∀ x, t.stream x = { buf := payload, bi := payload.length, bo := 0 })) ∧
    (s.cfg.bufFits payload.length = false → FaultsWith (.drvComp 0 payload) s 9 ∧ FaultsWith (.drvDecomp 0 payload) s 9)

/-- `44_driver.md` R231, R233: `DRV.COMP` of Huffman and of the six ranked-escape algorithms: the response carries the
compressed buffer, stream 0 holds the input, stream 1 the output; `CAPACITY` when either does not fit. -/
def Obligations.DrvCompReturnsTheCompressedBuffer : Prop :=
  ∀ (alg : Nat) (payload : List Byte) (s : State), 1 ≤ alg → alg ≤ 7 → s.fatal = false →
    (s.cfg.bufFits payload.length = true →
      s.cfg.bufFits (bytesFor (if alg = 1 then hufTotal payload else recTotal alg (alg + 8) payload)) = true →
      ∃ t y, exec (.drvComp alg payload) s = .next t ∧ Done (.drvComp alg payload) s t y.length y ∧
        HoldsBits (if alg = 1 then hufBits (hufTotal payload % 8) payload
          else recBits (recTotal alg (alg + 8) payload % 8) alg (alg + 8) payload) y ∧
        t.s0 = { buf := payload, bi := payload.length, bo := 0 } ∧ t.s1 = { buf := y, bi := 0, bo := 3 }) ∧
    (s.cfg.bufFits payload.length = false ∨
      s.cfg.bufFits (bytesFor (if alg = 1 then hufTotal payload else recTotal alg (alg + 8) payload)) = false →
      FaultsWith (.drvComp alg payload) s 9)

/-- `44_driver.md` R232, R235: `DRV.DECOMP` returns what its payload reads as, and is fatal on a payload that reads as
nothing; `CAPACITY` exactly when the payload, or the bytes decoded so far, do not fit. For algorithms 2 to 7, that two bytes
with size 0 and a final bit-count of 1 to 3 read as nothing is the model's choice of R206's pseudocode over R209's prose
(assumption 10, DEDUCED). -/
def Obligations.DrvDecompReturnsTheDecodedBufferOrAsserts : Prop :=
  ∀ (alg : Nat) (payload : List Byte) (s : State), 1 ≤ alg → alg ≤ 7 → s.fatal = false →
    (s.cfg.bufFits payload.length = false → FaultsWith (.drvDecomp alg payload) s 9) ∧
    (s.cfg.bufFits payload.length = true → ∀ out, AlgReads alg payload out → s.cfg.bufFits out.length = true →
      ∃ t, exec (.drvDecomp alg payload) s = .next t ∧ Done (.drvDecomp alg payload) s t out.length out ∧
        t.s0.buf = payload ∧ t.s1 = { buf := out, bi := out.length, bo := 0 }) ∧
    (s.cfg.bufFits payload.length = true → ∀ out rest, AlgStarts alg payload out rest →
      s.cfg.bufFits out.length = false → FaultsWith (.drvDecomp alg payload) s 9) ∧
    (s.cfg.bufFits payload.length = true → (∀ out, ¬ AlgReads alg payload out) →
      (∀ out rest, AlgStarts alg payload out rest → s.cfg.bufFits out.length = true) →
      FaultsWith (.drvDecomp alg payload) s 8)

/-- `44_driver.md` R236: on a block without limits `DRV.COMP` succeeds for every algorithm and every input, and
`DRV.DECOMP` of what it returned succeeds and returns the input, but for Huffman on one byte value repeated, which
comes back empty. -/
def Obligations.DriverRoundTrip : Prop :=
  ∀ (alg : Nat) (x : List Byte) (s : State), alg ≤ 7 → s.fatal = false → s.cfg.maxBuf = none →
    ∃ t u y z, exec (.drvComp alg x) s = .next t ∧ Done (.drvComp alg x) s t y.length y ∧
      exec (.drvDecomp alg y) t = .next u ∧ Done (.drvDecomp alg y) t u z.length z ∧
      z = if alg = 1 ∧ (distinctBytes x).length = 1 then [] else x
end

