-- ==== Sys2Proof/Laws/State.lean ====
section
/-! SUPPORT. The field of every state update, each by `rfl` or one case split, for `simp`. -/

namespace Sys2Proof.Machine

section respond
variable (s : State) (r : Response) (v : Nat) (p : List Byte)

@[simp] theorem respond_s0 : (s.respond r).s0 = s.s0 := rfl
@[simp] theorem respond_s1 : (s.respond r).s1 = s.s1 := rfl
@[simp] theorem respond_q0 : (s.respond r).q0 = s.q0 := rfl
@[simp] theorem respond_q1 : (s.respond r).q1 = s.q1 := rfl
@[simp] theorem respond_fatal : (s.respond r).fatal = s.fatal := rfl
@[simp] theorem respond_cause : (s.respond r).cause = s.cause := rfl
@[simp] theorem respond_cfg : (s.respond r).cfg = s.cfg := rfl
@[simp] theorem respond_pending : (s.respond r).pending = s.pending := rfl
@[simp] theorem respond_responses : (s.respond r).responses = s.responses ++ [r] := rfl
@[simp] theorem respond_freeCount : (s.respond r).freeCount = s.freeCount := rfl

@[simp] theorem complete_s0 : (s.complete v p).s0 = s.s0 := rfl
@[simp] theorem complete_s1 : (s.complete v p).s1 = s.s1 := rfl
@[simp] theorem complete_q0 : (s.complete v p).q0 = s.q0 := rfl
@[simp] theorem complete_q1 : (s.complete v p).q1 = s.q1 := rfl
@[simp] theorem complete_fatal : (s.complete v p).fatal = s.fatal := rfl
@[simp] theorem complete_cause : (s.complete v p).cause = s.cause := rfl
@[simp] theorem complete_cfg : (s.complete v p).cfg = s.cfg := rfl
@[simp] theorem complete_pending : (s.complete v p).pending = s.pending := rfl
@[simp] theorem complete_responses :
    (s.complete v p).responses = s.responses ++ [{ ok := true, cause := s.cause, value := v, payload := p }] := rfl
@[simp] theorem complete_freeCount : (s.complete v p).freeCount = s.freeCount := rfl

end respond

section raise
variable (s : State) (c : Cause)

@[simp] theorem raise_s0 : (s.raise c).s0 = s.s0 := rfl
@[simp] theorem raise_s1 : (s.raise c).s1 = s.s1 := rfl
@[simp] theorem raise_q0 : (s.raise c).q0 = s.q0 := rfl
@[simp] theorem raise_q1 : (s.raise c).q1 = s.q1 := rfl
@[simp] theorem raise_fatal : (s.raise c).fatal = true := rfl
@[simp] theorem raise_cause : (s.raise c).cause = c.code := rfl
@[simp] theorem raise_cfg : (s.raise c).cfg = s.cfg := rfl
@[simp] theorem raise_pending : (s.raise c).pending = s.pending := rfl
@[simp] theorem raise_responses :
    (s.raise c).responses = s.responses ++ [{ ok := false, cause := c.code, value := 0, payload := [] }] := rfl
@[simp] theorem raise_freeCount : (s.raise c).freeCount = s.freeCount := rfl

@[simp] theorem raiseScrambled_fatal : (s.raiseScrambled c).fatal = true := rfl
@[simp] theorem raiseScrambled_cause : (s.raiseScrambled c).cause = c.code := rfl
@[simp] theorem raiseScrambled_cfg : (s.raiseScrambled c).cfg = s.cfg := rfl
@[simp] theorem raiseScrambled_pending : (s.raiseScrambled c).pending = s.pending := rfl
@[simp] theorem raiseScrambled_responses :
    (s.raiseScrambled c).responses =
      s.responses ++ [{ ok := false, cause := c.code, value := 0, payload := [] }] := rfl
@[simp] theorem raiseScrambled_freeCount : (s.raiseScrambled c).freeCount = s.freeCount + 2 := rfl

end raise

section set
variable (s : State) (x y : StreamId) (a b : SeqId) (t : Stream) (q : Seq) (p : Stream × Stream)

@[simp] theorem setStream_stream_same : (s.setStream x t).stream x = t := by cases x <;> rfl
theorem setStream_stream_other (h : y ≠ x) : (s.setStream x t).stream y = s.stream y := by
  cases x <;> cases y <;> first | rfl | exact absurd rfl h
@[simp] theorem setStream_seq : (s.setStream x t).seq a = s.seq a := by cases x <;> cases a <;> rfl
@[simp] theorem setStream_q0 : (s.setStream x t).q0 = s.q0 := by cases x <;> rfl
@[simp] theorem setStream_q1 : (s.setStream x t).q1 = s.q1 := by cases x <;> rfl
@[simp] theorem setStream_fatal : (s.setStream x t).fatal = s.fatal := by cases x <;> rfl
@[simp] theorem setStream_cause : (s.setStream x t).cause = s.cause := by cases x <;> rfl
@[simp] theorem setStream_cfg : (s.setStream x t).cfg = s.cfg := by cases x <;> rfl
@[simp] theorem setStream_pending : (s.setStream x t).pending = s.pending := by cases x <;> rfl
@[simp] theorem setStream_responses : (s.setStream x t).responses = s.responses := by cases x <;> rfl
@[simp] theorem setStream_freeCount : (s.setStream x t).freeCount = s.freeCount := by cases x <;> rfl

@[simp] theorem setSeq_seq_same : (s.setSeq a q).seq a = q := by cases a <;> rfl
theorem setSeq_seq_other (h : b ≠ a) : (s.setSeq a q).seq b = s.seq b := by
  cases a <;> cases b <;> first | rfl | exact absurd rfl h
@[simp] theorem setSeq_stream : (s.setSeq a q).stream x = s.stream x := by cases x <;> cases a <;> rfl
@[simp] theorem setSeq_s0 : (s.setSeq a q).s0 = s.s0 := by cases a <;> rfl
@[simp] theorem setSeq_s1 : (s.setSeq a q).s1 = s.s1 := by cases a <;> rfl
@[simp] theorem setSeq_fatal : (s.setSeq a q).fatal = s.fatal := by cases a <;> rfl
@[simp] theorem setSeq_cause : (s.setSeq a q).cause = s.cause := by cases a <;> rfl
@[simp] theorem setSeq_cfg : (s.setSeq a q).cfg = s.cfg := by cases a <;> rfl
@[simp] theorem setSeq_pending : (s.setSeq a q).pending = s.pending := by cases a <;> rfl
@[simp] theorem setSeq_responses : (s.setSeq a q).responses = s.responses := by cases a <;> rfl
@[simp] theorem setSeq_freeCount : (s.setSeq a q).freeCount = s.freeCount := by cases a <;> rfl

@[simp] theorem setStreams_s0 : (s.setStreams p).s0 = p.1 := rfl
@[simp] theorem setStreams_s1 : (s.setStreams p).s1 = p.2 := rfl
@[simp] theorem setStreams_q0 : (s.setStreams p).q0 = s.q0 := rfl
@[simp] theorem setStreams_q1 : (s.setStreams p).q1 = s.q1 := rfl
@[simp] theorem setStreams_fatal : (s.setStreams p).fatal = s.fatal := rfl
@[simp] theorem setStreams_cause : (s.setStreams p).cause = s.cause := rfl
@[simp] theorem setStreams_cfg : (s.setStreams p).cfg = s.cfg := rfl
@[simp] theorem setStreams_pending : (s.setStreams p).pending = s.pending := rfl
@[simp] theorem setStreams_responses : (s.setStreams p).responses = s.responses := rfl
@[simp] theorem setStreams_freeCount : (s.setStreams p).freeCount = s.freeCount := rfl

end set

section other
variable (s : State) (x : StreamId) (a : SeqId) (v : Nat) (p : List Byte) (c : Cause)

@[simp] theorem complete_stream : (s.complete v p).stream x = s.stream x := by cases x <;> rfl
@[simp] theorem complete_seq : (s.complete v p).seq a = s.seq a := by cases a <;> rfl
@[simp] theorem raise_stream : (s.raise c).stream x = s.stream x := by cases x <;> rfl
@[simp] theorem raise_seq : (s.raise c).seq a = s.seq a := by cases a <;> rfl
@[simp] theorem respond_stream (r : Response) : (s.respond r).stream x = s.stream x := by cases x <;> rfl
@[simp] theorem respond_seq (r : Response) : (s.respond r).seq a = s.seq a := by cases a <;> rfl

@[simp] theorem afterFalse_in_buf : s.afterFalse.s0.buf = s.s0.buf := rfl
@[simp] theorem afterFalse_q0 : s.afterFalse.q0 = s.q0 := rfl
@[simp] theorem afterFalse_q1 : s.afterFalse.q1 = s.q1 := rfl
@[simp] theorem afterFalse_fatal : s.afterFalse.fatal = s.fatal := rfl
@[simp] theorem afterFalse_cause : s.afterFalse.cause = s.cause := rfl
@[simp] theorem afterFalse_cfg : s.afterFalse.cfg = s.cfg := rfl
@[simp] theorem afterFalse_pending : s.afterFalse.pending = s.pending := rfl
@[simp] theorem afterFalse_responses : s.afterFalse.responses = s.responses := rfl
@[simp] theorem afterFalse_freeCount : s.afterFalse.freeCount = s.freeCount + 2 := rfl
@[simp] theorem afterFalse_seq : s.afterFalse.seq a = s.seq a := by cases a <;> rfl

@[simp] theorem dropEvent_s0 : s.dropEvent.s0 = s.s0 := rfl
@[simp] theorem dropEvent_s1 : s.dropEvent.s1 = s.s1 := rfl
@[simp] theorem dropEvent_q0 : s.dropEvent.q0 = s.q0 := rfl
@[simp] theorem dropEvent_q1 : s.dropEvent.q1 = s.q1 := rfl
@[simp] theorem dropEvent_fatal : s.dropEvent.fatal = s.fatal := rfl
@[simp] theorem dropEvent_cause : s.dropEvent.cause = s.cause := rfl
@[simp] theorem dropEvent_cfg : s.dropEvent.cfg = s.cfg := rfl
@[simp] theorem dropEvent_pending : s.dropEvent.pending = s.pending.tail := rfl
@[simp] theorem dropEvent_responses : s.dropEvent.responses = s.responses := rfl
@[simp] theorem dropEvent_freeCount : s.dropEvent.freeCount = s.freeCount := rfl
@[simp] theorem dropEvent_stream : s.dropEvent.stream x = s.stream x := by cases x <;> rfl
@[simp] theorem dropEvent_seq : s.dropEvent.seq a = s.seq a := by cases a <;> rfl

@[simp] theorem assertReset_s0 : s.assertReset.s0 = Stream.empty := rfl
@[simp] theorem assertReset_s1 : s.assertReset.s1 = Stream.empty := rfl
@[simp] theorem assertReset_q0 : s.assertReset.q0 = [] := rfl
@[simp] theorem assertReset_q1 : s.assertReset.q1 = [] := rfl
@[simp] theorem assertReset_fatal : s.assertReset.fatal = false := rfl
@[simp] theorem assertReset_cause : s.assertReset.cause = 0 := rfl
@[simp] theorem assertReset_cfg : s.assertReset.cfg = s.cfg := rfl
@[simp] theorem assertReset_pending : s.assertReset.pending = s.pending := rfl
@[simp] theorem assertReset_responses : s.assertReset.responses = s.responses := rfl
@[simp] theorem assertReset_freeCount : s.assertReset.freeCount = s.freeCount := rfl

end other

@[simp] theorem stream_s0 (s : State) : s.stream .s0 = s.s0 := rfl
@[simp] theorem stream_s1 (s : State) : s.stream .s1 = s.s1 := rfl
@[simp] theorem seq_q0 (s : State) : s.seq .q0 = s.q0 := rfl
@[simp] theorem seq_q1 (s : State) : s.seq .q1 = s.q1 := rfl

/-- A statement for both streams is one for each. -/
theorem forall_stream {P : StreamId → Prop} : (∀ x, P x) ↔ P .s0 ∧ P .s1 :=
  ⟨fun h => ⟨h _, h _⟩, fun h x => by cases x; exacts [h.1, h.2]⟩

/-- A statement for both sequence registers is one for each. -/
theorem forall_seq {P : SeqId → Prop} : (∀ a, P a) ↔ P .q0 ∧ P .q1 :=
  ⟨fun h => ⟨h _, h _⟩, fun h a => by cases a; exacts [h.1, h.2]⟩

end Sys2Proof.Machine
end

