-- ==== Sys2Proof/Laws/Memory.lean ====
section
/-! SUPPORT. The laws of memory: read after write, the canonical form, and bits by position. -/

namespace Sys2Proof.Machine

/-! ### Bytes -/

theorem memory_read_eq_ok {m : Memory} {i : Nat} {v : Byte} : Memory.read m i = .ok v ↔ m[i]? = some v := by
  unfold Memory.read; split <;> simp_all

/-- A write inside the buffer overwrites in place (R59). -/
theorem memory_write_inside {m : Memory} {i : Nat} (v : Byte) (h : i < m.length) :
    Memory.write m i v = .ok (m.set i v) := by simp [Memory.write, h]

/-- A write at the append position appends (R59). -/
theorem memory_write_append (m : Memory) (v : Byte) : Memory.write m m.length v = .ok (m ++ [v]) := by
  simp [Memory.write]

/-- Everything a write can do: overwrite below the length, append at it, nothing else. -/
theorem memory_write_cases {m m' : Memory} {i : Nat} {v : Byte} (h : Memory.write m i v = .ok m') :
    (i < m.length ∧ m' = m.set i v) ∨ (i = m.length ∧ m' = m ++ [v]) := by
  unfold Memory.write at h
  split at h
  · cases h; exact .inl ⟨‹_›, rfl⟩
  · split at h
    · cases h; exact .inr ⟨‹_›, rfl⟩
    · cases h

/-- Read after write gives the byte written. -/
theorem memory_read_write_same {m m' : Memory} {i : Nat} {v : Byte} (h : Memory.write m i v = .ok m') :
    m'[i]? = some v := by
  obtain ⟨hi, rfl⟩ | ⟨rfl, rfl⟩ := memory_write_cases h <;> simp [*]

/-- A write leaves every other byte alone. -/
theorem memory_read_write_other {m m' : Memory} {i j : Nat} {v : Byte} (h : Memory.write m i v = .ok m')
    (hj : j ≠ i) : m'[j]? = m[j]? := by
  obtain ⟨hi, rfl⟩ | ⟨rfl, rfl⟩ := memory_write_cases h
  · rw [List.getElem?_set_ne (Ne.symm hj)]
  · rcases Nat.lt_or_gt_of_ne hj with h | h
    · rw [List.getElem?_append_left h]
    · rw [List.getElem?_eq_none (by simp; omega), List.getElem?_eq_none (by omega)]

theorem memory_cells_addresses (m : Memory) : m.cells.map Prod.fst = List.range m.length := by
  apply List.ext_getElem
  · simp [Memory.cells]
  · intro i h1 h2; simp [Memory.cells]

/-- Every memory is in canonical form, so every operation keeps it. -/
theorem memory_wf (m : Memory) : Memory.wf m = true := by
  simp [Memory.wf, memory_cells_addresses]

/-- The pairs of two memories are equal only when the memories are. -/
theorem memory_cells_injective {m m' : Memory} (h : m.cells = m'.cells) : m = m' := by
  have := congrArg (List.map Prod.snd) h
  simpa [Memory.cells, List.map_map, Function.comp_def] using this

/-! ### Bits -/

theorem withBit_getLsbD (v : Byte) (k : Fin 8) (b : Bool) {j : Nat} (hj : j < 8) :
    (withBit v k b).getLsbD j = if j = k.val then b else v.getLsbD j := by
  unfold withBit
  have hk := k.isLt
  simp only [BitVec.getLsbD_or, BitVec.getLsbD_and, BitVec.getLsbD_not, BitVec.getLsbD_shiftLeft, hj]
  by_cases h : j = k.val
  · subst h; cases b <;> simp
  · rcases Nat.lt_or_gt_of_ne h with h' | h'
    · cases b <;> simp [h, h']
    · have : j - k.val ≠ 0 := by omega
      cases b <;> simp [h, this, BitVec.getLsbD_one]

@[simp] theorem lsbFirst_length (n p : Nat) : (lsbFirst n p).length = n := by simp [lsbFirst]

theorem lsbFirst_getElem? (n p j : Nat) : (lsbFirst n p)[j]? = if j < n then some (p.testBit j) else none := by
  unfold lsbFirst; split <;> simp_all

theorem lsbFirst_zero (p : Nat) : lsbFirst 0 p = [] := rfl

@[simp] theorem byteBits_length (v : Byte) : (byteBits v).length = 8 := by simp [byteBits]

theorem byteBits_getElem? (v : Byte) (j : Nat) : (byteBits v)[j]? = if j < 8 then some (v.getLsbD j) else none := by
  simp [byteBits, lsbFirst_getElem?, BitVec.getLsbD]

@[simp] theorem bufBits_nil : bufBits [] = [] := rfl
@[simp] theorem bufBits_cons (v : Byte) (m : Memory) : bufBits (v :: m) = byteBits v ++ bufBits m := rfl
@[simp] theorem bufBits_append (m m' : Memory) : bufBits (m ++ m') = bufBits m ++ bufBits m' := by simp [bufBits]

@[simp] theorem bufBits_length (m : Memory) : (bufBits m).length = 8 * m.length := by
  induction m with
  | nil => rfl
  | cons v m ih => simp [ih]; omega

/-- The bit string of a buffer holds at place `p` the bit of position `p`. -/
theorem bufBits_getElem? (m : Memory) (p : Nat) : (bufBits m)[p]? = bitAtPos m p := by
  induction m generalizing p with
  | nil => simp [bitAtPos]
  | cons v m ih =>
    rw [bufBits_cons]
    by_cases h : p < 8
    · rw [List.getElem?_append_left (by simpa using h), byteBits_getElem?]
      simp [bitAtPos, Nat.div_eq_of_lt h, Nat.mod_eq_of_lt h, h]
    · rw [List.getElem?_append_right (by simpa using h), byteBits_length, ih, bitAtPos, bitAtPos]
      have h1 : p / 8 = (p - 8) / 8 + 1 := by omega
      have h2 : p % 8 = (p - 8) % 8 := by omega
      rw [h1, h2]; simp

theorem bitAtPos_isSome {m : Memory} {p : Nat} : (bitAtPos m p).isSome ↔ p < 8 * m.length := by
  rw [← bufBits_getElem?]; simp

theorem bitAtPos_none {m : Memory} {p : Nat} (h : 8 * m.length ≤ p) : bitAtPos m p = none := by
  rw [← bufBits_getElem?]; simpa using h

/-- Two bytes with the same bits are the same byte. -/
theorem byteBits_injective {v w : Byte} (h : byteBits v = byteBits w) : v = w := by
  apply BitVec.eq_of_getLsbD_eq
  intro i hi
  have h' : (byteBits v)[i]? = (byteBits w)[i]? := by rw [h]
  rw [byteBits_getElem?, byteBits_getElem?, if_pos hi, if_pos hi] at h'
  exact Option.some.inj h'

/-- Two buffers with the same bits are the same buffer. -/
theorem bufBits_injective {m m' : Memory} (h : bufBits m = bufBits m') : m = m' := by
  induction m generalizing m' with
  | nil =>
    cases m' with
    | nil => rfl
    | cons v m' => have := congrArg List.length h; simp at this; omega
  | cons v m ih =>
    cases m' with
    | nil => have := congrArg List.length h; simp at this
    | cons w m' =>
      obtain ⟨h1, h2⟩ := List.append_inj (by simpa using h) (by simp)
      rw [byteBits_injective h1, ih h2]

/-- Two buffers with the same bit at every position are the same buffer. -/
theorem memory_ext_bits {m m' : Memory} (h : ∀ p, bitAtPos m p = bitAtPos m' p) : m = m' := by
  apply bufBits_injective
  apply List.ext_getElem?
  intro p; rw [bufBits_getElem?, bufBits_getElem?, h]

/-- A byte set in place changes its own eight positions. -/
theorem bitAtPos_set {m : Memory} {i : Nat} (v : Byte) (h : i < m.length) (p : Nat) :
    bitAtPos (m.set i v) p = if p / 8 = i then some (v.getLsbD (p % 8)) else bitAtPos m p := by
  unfold bitAtPos
  split
  · next hp => rw [hp]; simp [h]
  · next hp => rw [List.getElem?_set_ne (Ne.symm hp)]

theorem bitAtPos_append_left {m m' : Memory} {p : Nat} (h : p < 8 * m.length) :
    bitAtPos (m ++ m') p = bitAtPos m p := by
  unfold bitAtPos; rw [List.getElem?_append_left (by omega)]

theorem bitAtPos_append_right {m m' : Memory} {p : Nat} (h : 8 * m.length ≤ p) :
    bitAtPos (m ++ m') p = bitAtPos m' (p - 8 * m.length) := by
  unfold bitAtPos
  rw [List.getElem?_append_right (by omega)]
  have h1 : p / 8 - m.length = (p - 8 * m.length) / 8 := by omega
  have h2 : p % 8 = (p - 8 * m.length) % 8 := by omega
  rw [h1, h2]

theorem ofLsbFirst_lsbFirst {n p : Nat} (h : p < 2 ^ n) : ofLsbFirst (lsbFirst n p) = p := by
  induction n generalizing p with
  | zero => simp at h; subst h; rfl
  | succ n ih =>
    have hs : lsbFirst (n + 1) p = p.testBit 0 :: lsbFirst n (p / 2) := by
      simp [lsbFirst, List.range_succ_eq_map, Function.comp_def, Nat.testBit_succ]
    rw [hs, ofLsbFirst, ih (by rw [Nat.pow_succ] at h; omega), Nat.testBit_zero]
    rcases Nat.mod_two_eq_zero_or_one p with h | h <;> simp [h] <;> omega

theorem ofLsbFirst_lt (bs : List Bool) : ofLsbFirst bs < 2 ^ bs.length := by
  induction bs with
  | nil => simp [ofLsbFirst]
  | cons b bs ih => cases b <;> simp [ofLsbFirst, Nat.pow_succ] <;> omega

theorem ofLsbFirst_testBit (bs : List Bool) (j : Nat) : (ofLsbFirst bs).testBit j = bs[j]?.getD false := by
  induction bs generalizing j with
  | nil => simp [ofLsbFirst]
  | cons b bs ih =>
    cases j with
    | zero => cases b <;> simp [ofLsbFirst, Nat.testBit_zero]
    | succ j =>
      have : (ofLsbFirst (b :: bs)) / 2 = ofLsbFirst bs := by
        cases b <;> simp [ofLsbFirst]
        omega
      rw [Nat.testBit_succ, this, ih]; simp

theorem lsbFirst_ofLsbFirst (bs : List Bool) : lsbFirst bs.length (ofLsbFirst bs) = bs := by
  apply List.ext_getElem?
  intro j
  rw [lsbFirst_getElem?]
  split
  · next h => rw [ofLsbFirst_testBit]; simp [h]
  · next h => rw [List.getElem?_eq_none (by omega)]

/-- The byte made of eight bits read has those bits. -/
theorem byteBits_ofLsbFirst {bs : List Bool} (h : bs.length = 8) : byteBits (BitVec.ofNat 8 (ofLsbFirst bs)) = bs := by
  have hlt := ofLsbFirst_lt bs
  rw [h] at hlt
  unfold byteBits
  rw [BitVec.toNat_ofNat, Nat.mod_eq_of_lt hlt, ← h, lsbFirst_ofLsbFirst]

theorem ofLsbFirst_byteBits (v : Byte) : ofLsbFirst (byteBits v) = v.toNat := ofLsbFirst_lsbFirst v.isLt

/-- Reading a byte by its bits gives the byte. -/
theorem ofNat_ofLsbFirst_byteBits (v : Byte) : BitVec.ofNat 8 (ofLsbFirst (byteBits v)) = v := by
  rw [ofLsbFirst_byteBits]; simp

end Sys2Proof.Machine
end

