-- ==== Sys2Proof/Laws/Answers.lean ====
section
/-! SUPPORT. What the pseudocode of a command can answer, and how `begin`, `finish` and `runCodec` end it. -/

namespace Sys2Proof.Machine

/-- `r` answers a value with `P`, or a fatal fault whose cause is listed, and never leaves `MemRead`'s domain. -/
def Answers {α : Type} (causes : List Cause) (P : α → Prop) (r : Except Stop α) : Prop :=
  match r with
  | .ok a => P a
  | .error (.fatal c) => c ∈ causes
  | .error .outside => False

section
variable {α β : Type} {P Q : α → Prop} {cs ds : List Cause} {r : Except Stop α}

@[simp] theorem answers_ok {a : α} : Answers cs P (.ok a : Except Stop α) ↔ P a := Iff.rfl
@[simp] theorem answers_pure {a : α} : Answers cs P (pure a : Except Stop α) ↔ P a := Iff.rfl
@[simp] theorem answers_fatal {c : Cause} : Answers cs P (.error (.fatal c) : Except Stop α) ↔ c ∈ cs := Iff.rfl

theorem Answers.imp (h : Answers cs P r) (hP : ∀ a, P a → Q a) : Answers cs Q r := by
  rcases r with (_ | _) | a
  · exact h
  · exact h
  · exact hP a h

theorem Answers.causes (h : Answers cs P r) (hc : ∀ c ∈ cs, c ∈ ds) : Answers ds P r := by
  rcases r with (_ | _) | a
  · exact hc _ h
  · exact h
  · exact h

theorem Answers.and (h : Answers cs P r) (h' : Answers cs Q r) : Answers cs (fun a => P a ∧ Q a) r := by
  rcases r with (_ | _) | a
  · exact h
  · exact h
  · exact ⟨h, h'⟩

theorem Answers.bind {f : α → Except Stop β} {R : β → Prop} (h : Answers cs P r)
    (hf : ∀ a, P a → Answers cs R (f a)) : Answers cs R (r >>= f) := by
  rcases r with (_ | _) | a
  · exact h
  · exact h
  · exact hf a h

theorem Answers.map {f : α → β} {R : β → Prop} (h : Answers cs P r) (hf : ∀ a, P a → R (f a)) :
    Answers cs R (r.map f) := by
  rcases r with (_ | _) | a
  · exact h
  · exact h
  · exact hf a h

theorem Answers.of_ok {a : α} (h : Answers cs P r) (hr : r = .ok a) : P a := by subst hr; exact h

/-- With no cause listed a value is answered. -/
theorem Answers.exists_ok (h : Answers [] P r) : ∃ a, r = .ok a ∧ P a := by
  rcases r with (_ | _) | a
  · simp [Answers] at h
  · exact absurd h id
  · exact ⟨a, rfl, h⟩

end

@[simp] theorem except_map_ok {ε α β : Type} (f : α → β) (a : α) : (Except.ok a : Except ε α).map f = .ok (f a) := rfl
@[simp] theorem except_bind_ok {ε α β : Type} (f : α → Except ε β) (a : α) :
    ((Except.ok a : Except ε α) >>= f) = f a := rfl
@[simp] theorem except_pure {ε α : Type} (a : α) : (pure a : Except ε α) = .ok a := rfl

/-- A bind answers a value only through a value of its first part. -/
theorem bind_eq_ok {ε α β : Type} {r : Except ε α} {f : α → Except ε β} {b : β} :
    (r >>= f) = .ok b ↔ ∃ a, r = .ok a ∧ f a = .ok b := by
  cases r with
  | error e => exact ⟨nofun, nofun⟩
  | ok a => simp

/-- A map answers a value only through a value. -/
theorem map_eq_ok {ε α β : Type} {r : Except ε α} {f : α → β} {b : β} :
    r.map f = .ok b ↔ ∃ a, r = .ok a ∧ f a = b := by
  cases r with
  | error e => exact ⟨nofun, nofun⟩
  | ok a => simp

/-! ### `begin`, `finish`, `runCodec` -/

/-- After a fatal fault every command gets the fault response and changes nothing (R244). -/
theorem begin_fatal {legal : Bool} {s : State} {body : Host.Outcome State Fault Refusal} (h : s.fatal = true) :
    begin legal s body = .next (s.respond s.faultResponse) := by simp [begin, h]

/-- A legal command of a block without a fault runs its body (R248). -/
theorem begin_legal {s : State} {body : Host.Outcome State Fault Refusal} (h : s.fatal = false) :
    begin true s body = body := by simp [begin, h]

/-- An illegal command faults and changes nothing else (R75). -/
theorem begin_illegal {s : State} {body : Host.Outcome State Fault Refusal} (h : s.fatal = false) :
    begin false s body = .next (s.raise .illegalCommand) := by simp [begin, h]

/-- Everything `begin` can answer. -/
theorem begin_cases (legal : Bool) (s : State) (body : Host.Outcome State Fault Refusal) :
    (s.fatal = true ∧ begin legal s body = .next (s.respond s.faultResponse)) ∨
    (s.fatal = false ∧ legal = true ∧ begin legal s body = body) ∨
    (s.fatal = false ∧ legal = false ∧ begin legal s body = .next (s.raise .illegalCommand)) := by
  cases hf : s.fatal <;> cases legal <;> simp [begin, hf]

/-- Everything `finish` can answer when its pseudocode stays in `MemRead`'s domain. -/
theorem finish_cases {α : Type} {cs : List Cause} {P : α → Prop} {r : Except Stop α} (h : Answers cs P r)
    (onFatal : Cause → State) (f : α → State) :
    (∃ a, P a ∧ r = .ok a ∧ finish r onFatal f = .next (f a)) ∨
    (∃ c ∈ cs, r = .error (.fatal c) ∧ finish r onFatal f = .next (onFatal c)) := by
  rcases r with (c | _) | a
  · exact .inr ⟨c, h, rfl, rfl⟩
  · exact absurd h id
  · exact .inl ⟨a, h, rfl, rfl⟩

@[simp] theorem finish_ok {α : Type} (a : α) (onFatal : Cause → State) (f : α → State) :
    finish (.ok a) onFatal f = .next (f a) := rfl

@[simp] theorem finish_fatal {α : Type} (c : Cause) (onFatal : Cause → State) (f : α → State) :
    finish (.error (.fatal c)) onFatal f = .next (onFatal c) := rfl

/-- What `codecReady` says (R160): both streams fresh, `OUT` empty. -/
theorem codecReady_iff {s : State} :
    s.codecReady = true ↔ s.s0 = Stream.fresh s.s0.buf ∧ s.s1 = Stream.empty := by
  obtain ⟨⟨b0, i0, o0⟩, ⟨b1, i1, o1⟩, _⟩ := s
  simp [State.codecReady, Stream.fresh, Stream.empty, and_assoc, List.length_eq_zero_iff]

theorem runCodec_not_ready {s : State} {r : CodecResult} (h : s.codecReady = false) :
    runCodec s r = .next (s.raise .codecPrecond) := by simp [runCodec, h]

theorem runCodec_true {s : State} {p : Stream × Stream} (h : s.codecReady = true) :
    runCodec s (.ok (some p)) = .next ((s.setStreams p).complete 1 []) := by simp [runCodec, h, boolValue]

theorem runCodec_false {s : State} (h : s.codecReady = true) :
    runCodec s (.ok none) = .next (s.afterFalse.complete 0 []) := by simp [runCodec, h, boolValue]

/-- Everything a codec command can answer when its codec stays in `MemRead`'s domain. -/
theorem runCodec_cases {s : State} {r : CodecResult} {cs : List Cause} {P : Option (Stream × Stream) → Prop}
    (h : s.codecReady = true → Answers cs P r) :
    (s.codecReady = false ∧ runCodec s r = .next (s.raise .codecPrecond)) ∨
    (s.codecReady = true ∧ ∃ p, P (some p) ∧ runCodec s r = .next ((s.setStreams p).complete 1 [])) ∨
    (s.codecReady = true ∧ P none ∧ runCodec s r = .next (s.afterFalse.complete 0 [])) ∨
    (s.codecReady = true ∧ ∃ c ∈ cs, runCodec s r = .next (s.raiseScrambled c)) := by
  cases hr : s.codecReady with
  | false => exact .inl ⟨rfl, runCodec_not_ready hr⟩
  | true =>
    refine .inr ?_
    have h := h hr
    rcases r with (c | _) | (_ | p)
    · exact .inr (.inr ⟨rfl, c, h, by simp [runCodec, hr]⟩)
    · exact absurd h id
    · exact .inr (.inl ⟨rfl, h, runCodec_false hr⟩)
    · exact .inl ⟨rfl, p, h, runCodec_true hr⟩

end Sys2Proof.Machine
end

