-- ==== Sys2Proof/Laws/Stream.lean ====
section
/-! SUPPORT. What the operations of a stream do, said once for each: reading and writing by bit position. -/

namespace Sys2Proof.Machine

variable {cfg : Config} {t u v : Stream} {m : Memory} {bs cs : List Bool}

/-! ### Limits -/

theorem within_mono {l : Option Nat} {a b : Nat} (h : Config.within l b = true) (hab : a ≤ b) :
    Config.within l a = true := by
  cases l <;> simp_all [Config.within]; omega

theorem bufFits_mono {a b : Nat} (h : cfg.bufFits b = true) (hab : a ≤ b) : cfg.bufFits a = true :=
  within_mono h hab

@[simp] theorem bufFits_unbounded (h : cfg.maxBuf = none) (n : Nat) : cfg.bufFits n = true := by
  simp [Config.bufFits, Config.within, h]

/-! ### Positions -/

@[simp] theorem atPos_buf (p : Nat) : (Stream.atPos m p).buf = m := rfl
@[simp] theorem atPos_pos (p : Nat) : (Stream.atPos m p).pos = p := by
  simp [Stream.atPos, Stream.pos, Fin.ofNat]; omega

theorem atPos_self (t : Stream) : Stream.atPos t.buf t.pos = t := by
  obtain ⟨b, i, o⟩ := t
  have := o.isLt
  simp [Stream.atPos, Stream.pos, Fin.ext_iff]; omega

/-- A stream is its buffer and its position (R24). -/
theorem stream_ext (h : t.buf = u.buf) (hp : t.pos = u.pos) : t = u := by
  rw [← atPos_self t, ← atPos_self u, h, hp]

theorem fresh_eq_atPos (m : Memory) : Stream.fresh m = Stream.atPos m 0 := rfl
theorem empty_eq_atPos : Stream.empty = Stream.atPos [] 0 := rfl
@[simp] theorem empty_buf : Stream.empty.buf = [] := rfl
@[simp] theorem empty_pos : Stream.empty.pos = 0 := rfl
@[simp] theorem fresh_buf : (Stream.fresh m).buf = m := rfl
@[simp] theorem fresh_pos : (Stream.fresh m).pos = 0 := rfl

@[simp] theorem advance_buf : t.advance.buf = t.buf := by unfold Stream.advance; split <;> rfl

/-- `Advance` is one position (R64). -/
@[simp] theorem advance_pos : t.advance.pos = t.pos + 1 := by
  obtain ⟨b, i, o⟩ := t
  unfold Stream.advance
  split
  · next h =>
    change o = 7 at h; subst h
    show 8 * (i + 1) + 0 = 8 * i + 7 + 1; omega
  · next h =>
    have : o.val ≠ 7 := fun h' => h (Fin.ext h')
    have h1 := o.isLt
    have h2 : (o + 1 : Fin 8).val = o.val + 1 := by
      rw [Fin.val_add]; show (o.val + 1) % 8 = o.val + 1; omega
    show 8 * i + (o + 1 : Fin 8).val = 8 * i + o.val + 1
    rw [h2]; omega

theorem pos_lt_iff : t.pos < 8 * t.buf.length ↔ t.bi < t.buf.length := by
  have := t.bo.isLt; unfold Stream.pos; omega

theorem pos_div : t.pos / 8 = t.bi := by have := t.bo.isLt; unfold Stream.pos; omega
theorem pos_mod : t.pos % 8 = t.bo.val := by have := t.bo.isLt; unfold Stream.pos; omega

/-- The cursor is where a bit can be written: inside the buffer, or at the aligned append position. -/
theorem pos_le_iff : t.pos ≤ 8 * t.buf.length ↔ t.bi < t.buf.length ∨ (t.bi = t.buf.length ∧ t.bo = 0) := by
  have := t.bo.isLt
  have h : t.bo = 0 ↔ t.bo.val = 0 := ⟨fun h => by rw [h]; rfl, fun h => Fin.ext h⟩
  rw [h]; unfold Stream.pos; omega

theorem bi_le_of_pos (h : t.pos ≤ 8 * t.buf.length) : t.bi ≤ t.buf.length := by
  have := t.bo.isLt; unfold Stream.pos at h; omega

theorem Stream.Ok.of_pos (h : t.pos ≤ 8 * t.buf.length) (hf : cfg.bufFits t.buf.length = true) : t.Ok cfg :=
  ⟨bi_le_of_pos h, hf⟩

/-! ### Reading -/

/-- `BitAt` at the cursor is the bit at its position (R66). -/
theorem bitAt_eq : t.bitAt = match bitAtPos t.buf t.pos with
    | some b => .ok b
    | none => .error (.fatal .readPastEnd) := by
  unfold Stream.bitAt bitAtPos
  rw [pos_div, pos_mod]
  cases t.buf[t.bi]? <;> rfl

/-- A read of `n` bits gives the bits at the next `n` positions and moves past them (R107). -/
theorem takeBits_ok {n p : Nat} (h : n = 0 ∨ p + n ≤ 8 * m.length) :
    (Stream.atPos m p).takeBits n = .ok (((bufBits m).drop p).take n, Stream.atPos m (p + n)) := by
  induction n generalizing p with
  | zero => simp [Stream.takeBits]
  | succ n ih =>
    have hp : p < 8 * m.length := by omega
    have hlen : p < (bufBits m).length := by simpa using hp
    have hb : bitAtPos m p = some (bufBits m)[p] := by rw [← bufBits_getElem?]; simp [hp]
    have hadv : (Stream.atPos m p).advance = Stream.atPos m (p + 1) := stream_ext (by simp) (by simp)
    rw [Stream.takeBits, bitAt_eq]
    simp only [atPos_buf, atPos_pos, hb, hadv]
    rw [except_bind_ok, ih (by omega)]
    simp only [except_bind_ok, except_pure, Except.ok.injEq, Prod.mk.injEq]
    exact ⟨by rw [List.drop_eq_getElem_cons hlen, List.take_succ_cons], by congr 1; omega⟩

/-- A read of a bit outside the buffer is the fault `READ_PAST_END` (R66). -/
theorem takeBits_past {n p : Nat} (hn : n ≠ 0) (h : 8 * m.length < p + n) :
    (Stream.atPos m p).takeBits n = .error (.fatal .readPastEnd) := by
  induction n generalizing p with
  | zero => exact absurd rfl hn
  | succ n ih =>
    rw [Stream.takeBits, bitAt_eq]
    simp only [atPos_buf, atPos_pos]
    cases hb : bitAtPos m p with
    | none => rfl
    | some b =>
      have hp : p < 8 * m.length := by rw [← bitAtPos_isSome, hb]; rfl
      have hadv : (Stream.atPos m p).advance = Stream.atPos m (p + 1) := stream_ext (by simp) (by simp)
      rw [except_bind_ok, hadv, ih (by omega) (by omega)]
      rfl

/-- `readBits` inside the buffer (R107). -/
theorem readBits_ok {n p : Nat} (h : n = 0 ∨ p + n ≤ 8 * m.length) :
    (Stream.atPos m p).readBits n = .ok (ofLsbFirst (((bufBits m).drop p).take n), Stream.atPos m (p + n)) := by
  simp [Stream.readBits, takeBits_ok h]

/-- `readBits` outside the buffer (R107). -/
theorem readBits_past {n p : Nat} (hn : n ≠ 0) (h : 8 * m.length < p + n) :
    (Stream.atPos m p).readBits n = .error (.fatal .readPastEnd) := by
  simp [Stream.readBits, takeBits_past hn h, Except.map]

/-- Everything `takeBits` can do. -/
theorem takeBits_answers (n : Nat) (t : Stream) :
    Answers [.readPastEnd]
      (fun r => (n = 0 ∨ t.pos + n ≤ 8 * t.buf.length) ∧ r.1 = ((bufBits t.buf).drop t.pos).take n ∧
        r.2 = Stream.atPos t.buf (t.pos + n)) (t.takeBits n) := by
  by_cases h : n = 0 ∨ t.pos + n ≤ 8 * t.buf.length
  · have := takeBits_ok h
    rw [atPos_self] at this
    rw [this]; exact ⟨h, rfl, rfl⟩
  · have := takeBits_past (m := t.buf) (n := n) (p := t.pos) (by omega) (by omega)
    rw [atPos_self] at this
    rw [this]; simp

/-- The eight bits from an aligned position are the byte there. -/
theorem bufBits_drop_take_byte {i : Nat} (h : i < m.length) :
    ((bufBits m).drop (8 * i)).take 8 = byteBits m[i] := by
  apply List.ext_getElem?
  intro j
  rw [List.getElem?_take, byteBits_getElem?]
  split
  · next hj =>
    rw [List.getElem?_drop, bufBits_getElem?]
    have h1 : (8 * i + j) / 8 = i := by omega
    have h2 : (8 * i + j) % 8 = j := by omega
    simp [bitAtPos, h1, h2, h]
  · rfl

/-- `read()` is `readBits(8)` at every offset (R55, R109). -/
theorem readByte_eq (t : Stream) :
    t.readByte = (t.readBits 8).map fun r => (BitVec.ofNat 8 r.1, r.2) := by
  unfold Stream.readByte
  split
  · next h0 =>
    have hp : t.pos = 8 * t.bi := by unfold Stream.pos; simp [h0]
    split
    · next h =>
      have := readBits_past (m := t.buf) (p := t.pos) (n := 8) (by omega) (by omega)
      rw [atPos_self] at this; rw [this]; rfl
    · next h =>
      have hi : t.bi < t.buf.length := by omega
      have := readBits_ok (m := t.buf) (p := t.pos) (n := 8) (by omega)
      rw [atPos_self] at this
      rw [this, hp, bufBits_drop_take_byte hi]
      have hr : Memory.read t.buf t.bi = .ok t.buf[t.bi] := memory_read_eq_ok.2 (by simp [hi])
      simp only [hr, except_map_ok, ofNat_ofLsbFirst_byteBits]
      congr 2
      refine stream_ext rfl ?_
      rw [atPos_pos]
      show 8 * (t.bi + 1) + t.bo.val = _
      rw [h0]; simp; omega
  · rfl

/-- `peek()` is `peekBits(8)` at every offset (R55, R110). -/
theorem peekByte_eq (t : Stream) : t.peekByte = (t.peekBits 8).map (BitVec.ofNat 8) := by
  unfold Stream.peekByte
  split
  · next h0 =>
    have hp : t.pos = 8 * t.bi := by unfold Stream.pos; simp [h0]
    unfold Stream.peekBits
    split
    · next h =>
      have := readBits_past (m := t.buf) (p := t.pos) (n := 8) (by omega) (by omega)
      rw [atPos_self] at this; rw [this]; rfl
    · next h =>
      have hi : t.bi < t.buf.length := by omega
      have := readBits_ok (m := t.buf) (p := t.pos) (n := 8) (by omega)
      rw [atPos_self] at this
      rw [this, hp, bufBits_drop_take_byte hi]
      have hr : Memory.read t.buf t.bi = .ok t.buf[t.bi] := memory_read_eq_ok.2 (by simp [hi])
      simp only [hr, except_map_ok, ofNat_ofLsbFirst_byteBits]
  · rfl

/-- A byte read inside the buffer. -/
theorem readByte_ok {p : Nat} (h : p + 8 ≤ 8 * m.length) :
    (Stream.atPos m p).readByte =
      .ok (BitVec.ofNat 8 (ofLsbFirst (((bufBits m).drop p).take 8)), Stream.atPos m (p + 8)) := by
  rw [readByte_eq, readBits_ok (.inr h)]; rfl

/-- The scan from the start reads every byte and ends at the append position (R161). -/
theorem scan_ok_from {n i : Nat} (hi : i ≤ m.length) (hn : m.length - i ≤ n) :
    (Stream.atPos m (8 * i)).scan n = .ok (m.drop i, Stream.atPos m (8 * m.length)) := by
  induction n generalizing i with
  | zero =>
    have : i = m.length := by omega
    subst this; simp [Stream.scan]
  | succ n ih =>
    rw [Stream.scan]
    by_cases h : i = m.length
    · subst h
      have : (Stream.atPos m (8 * m.length)).atEnd = true := by simp [Stream.atEnd, Stream.atPos]
      simp [this]
    · have hlt : i < m.length := by omega
      have : (Stream.atPos m (8 * i)).atEnd = false := by simp [Stream.atEnd, Stream.atPos]; omega
      rw [this, readByte_ok (by omega), bufBits_drop_take_byte hlt, ofNat_ofLsbFirst_byteBits]
      have he : 8 * i + 8 = 8 * (i + 1) := by omega
      rw [if_neg (by simp), except_bind_ok, he]
      simp only
      rw [ih (by omega) (by omega)]
      rw [List.drop_eq_getElem_cons hlt]; rfl

/-- The scan of a fresh stream (R161). -/
theorem scan_fresh (m : Memory) :
    (Stream.fresh m).scan m.length = .ok (m, Stream.atPos m (8 * m.length)) := by
  have := scan_ok_from (m := m) (n := m.length) (i := 0) (by omega) (by omega)
  simpa [fresh_eq_atPos] using this

/-- `seek` to the start (R111). -/
theorem seek_zero (t : Stream) : t.seek 0 0 = .ok (Stream.fresh t.buf) := by
  simp [Stream.seek, Stream.fresh]

/-! ### Writing -/

theorem WroteBits.nil (t : Stream) (h : t.pos ≤ 8 * t.buf.length) : WroteBits [] t t where
  pos := by simp
  len := by simp [bytesFor]; omega
  written := by simp
  kept := by simp
  fresh := by intro p h1 _ h3; omega

theorem WroteBits.trans (h1 : WroteBits bs t u) (h2 : WroteBits cs u v) : WroteBits (bs ++ cs) t v where
  pos := by rw [h2.pos, h1.pos, List.length_append]; omega
  len := by
    rw [h2.len, h1.len, h1.pos, List.length_append]
    have : bytesFor (t.pos + bs.length) ≤ bytesFor (t.pos + bs.length + cs.length) := by unfold bytesFor; omega
    rw [← Nat.add_assoc]; omega
  written := by
    intro j hj
    rw [List.length_append] at hj
    by_cases h : j < bs.length
    · rw [List.getElem?_append_left h, ← h1.written j h]
      refine h2.kept _ ?_ (.inl (by rw [h1.pos]; omega))
      rw [h1.len]; unfold bytesFor; omega
    · rw [List.getElem?_append_right (by omega), ← h2.written (j - bs.length) (by omega), h1.pos]
      congr 1; omega
  kept := by
    intro p hp hr
    rw [List.length_append] at hr
    rw [h2.kept p (by rw [h1.len]; omega) (by rw [h1.pos]; omega), h1.kept p hp (by omega)]
  fresh := by
    intro p h3 h4 h5
    rw [List.length_append] at h4
    by_cases h : p < 8 * u.buf.length
    · rw [h2.kept p h (by rw [h1.pos]; omega)]
      exact h1.fresh p h3 (by omega) h
    · exact h2.fresh p (by omega) (by rw [h1.pos]; omega) h5

/-- What writing leaves is determined. -/
theorem WroteBits.unique (hp0 : t.pos ≤ 8 * t.buf.length) (h1 : WroteBits bs t u) (h2 : WroteBits bs t v) :
    u = v := by
  have hl : u.buf.length = v.buf.length := by rw [h1.len, h2.len]
  refine stream_ext (memory_ext_bits fun p => ?_) (by rw [h1.pos, h2.pos])
  by_cases hp : p < 8 * u.buf.length
  · by_cases hw : t.pos ≤ p ∧ p < t.pos + bs.length
    · have e : t.pos + (p - t.pos) = p := by omega
      have h3 := h1.written (p - t.pos) (by omega)
      have h4 := h2.written (p - t.pos) (by omega)
      rw [e] at h3 h4; rw [h3, h4]
    · by_cases hk : p < 8 * t.buf.length
      · rw [h1.kept p hk (by omega), h2.kept p hk (by omega)]
      · rw [h1.fresh p (by omega) (by omega) hp, h2.fresh p (by omega) (by omega) (by omega)]
  · rw [bitAtPos_none (by omega), bitAtPos_none (by omega)]

/-- The cursor stays where a bit can be written. -/
theorem WroteBits.pos_le (h : WroteBits bs t u) : u.pos ≤ 8 * u.buf.length := by
  rw [h.pos, h.len]; unfold bytesFor; omega

theorem WroteBits.bits_lt (h : WroteBits bs t u) {p : Nat} (hp : p < t.pos + bs.length) :
    p < 8 * u.buf.length := by rw [h.len]; unfold bytesFor; omega

/-- What `WriteBit` leaves inside the buffer. -/
theorem wroteBits_set {b : Bool} {p : Nat} (hp : p < 8 * m.length) (k : Fin 8) (hk : k.val = p % 8) (w : Byte)
    (hw : m[p / 8]? = some w) :
    WroteBits [b] (Stream.atPos m p) (Stream.atPos (m.set (p / 8) (withBit w k b)) (p + 1)) where
  pos := by simp
  len := by simp [bytesFor]; omega
  written := by
    intro j hj
    have : j = 0 := by simpa using hj
    subst this
    simp only [atPos_buf, atPos_pos, Nat.add_zero]
    rw [bitAtPos_set _ (by omega), if_pos rfl, withBit_getLsbD _ _ _ (by omega), if_pos hk.symm]; rfl
  kept := by
    intro q hq hr
    simp only [atPos_buf, atPos_pos, List.length_singleton] at hq hr ⊢
    rw [bitAtPos_set _ (by omega)]
    split
    · next h =>
      rw [withBit_getLsbD _ _ _ (by omega), if_neg (by omega), bitAtPos, h, hw]; rfl
    · rfl
  fresh := by intro q h1 _ h3; simp at h1 h3; omega

/-- What the fresh byte of an append leaves (R65). -/
theorem bitAtPos_append_zero {p : Nat} :
    bitAtPos (m ++ [0]) p = if p < 8 * m.length then bitAtPos m p else if p < 8 * m.length + 8 then some false else none := by
  split
  · next h => exact bitAtPos_append_left h
  · split
    · next h h' =>
      rw [bitAtPos_append_right (by omega)]
      have : (p - 8 * m.length) / 8 = 0 := by omega
      simp [bitAtPos, this]
    · next h h' => exact bitAtPos_none (by simp; omega)

/-- `WriteBit` where a bit can be written and, for an append, where there is room (R65). -/
theorem writeBit_ok {b : Bool} (hp : t.pos ≤ 8 * t.buf.length)
    (hf : t.pos = 8 * t.buf.length → canAppend cfg t.buf = true) :
    ∃ u, t.writeBit cfg b = .ok u ∧ WroteBits [b] t u := by
  by_cases h : t.bi < t.buf.length
  · have he : t.ensureByte cfg = .ok t := by simp [Stream.ensureByte, Nat.ne_of_lt h]
    have hr : Memory.read t.buf t.bi = .ok t.buf[t.bi] := memory_read_eq_ok.2 (by simp [h])
    refine ⟨_, by
      rw [Stream.writeBit, he, except_bind_ok, hr, except_bind_ok, memory_write_inside _ h]; rfl, ?_⟩
    have hw := wroteBits_set (m := t.buf) (b := b) (p := t.pos) (pos_lt_iff.2 h) t.bo pos_mod.symm t.buf[t.bi]
      (by rw [pos_div]; simp [h])
    rw [atPos_self, pos_div] at hw
    convert hw using 1
    exact stream_ext (by simp) (by rw [advance_pos, atPos_pos]; rfl)
  · have hb : t.bi = t.buf.length ∧ t.bo = 0 := (pos_le_iff.1 hp).resolve_left h
    have hpos : t.pos = 8 * t.buf.length := by simp [Stream.pos, hb.1, hb.2]
    let m' := t.buf ++ [0]
    let t' : Stream := { t with buf := m' }
    have he : t.ensureByte cfg = .ok t' := by
      simp [Stream.ensureByte, hb.1, hb.2, hf hpos, memory_write_append, t', m']
    have hlt : t.bi < m'.length := by simp [m', hb.1]
    have hget : m'[t.bi]? = some 0 := by simp [m', hb.1]
    have hr : Memory.read m' t.bi = .ok 0 := memory_read_eq_ok.2 hget
    refine ⟨_, by
      rw [Stream.writeBit, he, except_bind_ok]
      show (Memory.read m' t.bi >>= _) = _
      rw [hr, except_bind_ok]
      show (Memory.write m' t.bi _ >>= _) = _
      rw [memory_write_inside _ hlt]; rfl, ?_⟩
    have hw := wroteBits_set (m := m') (b := b) (p := t.pos) (by simp [m', hpos]) t.bo pos_mod.symm 0
      (by rw [pos_div]; exact hget)
    have hself : Stream.atPos m' t.pos = t' := by
      exact stream_ext rfl (by rw [atPos_pos]; rfl)
    rw [pos_div, hself] at hw
    have heq : ({ t' with buf := m'.set t.bi (withBit 0 t.bo b) } : Stream).advance =
        Stream.atPos (m'.set t.bi (withBit 0 t.bo b)) (t.pos + 1) :=
      stream_ext (by simp) (by rw [advance_pos, atPos_pos]; rfl)
    show WroteBits [b] t ({ t' with buf := m'.set t.bi (withBit 0 t.bo b) } : Stream).advance
    rw [heq]
    have hlen : t'.buf.length = t.buf.length + 1 := by simp [t', m']
    have hpos' : t'.pos = t.pos := rfl
    have hb' : t'.buf = t.buf ++ [0] := rfl
    constructor
    · simp
    · rw [hw.len, hlen, hpos']; simp [bytesFor]; omega
    · exact hw.written
    · intro q hq hr'
      rw [hw.kept q (by omega) hr', hb', bitAtPos_append_zero, if_pos hq]
    · intro q h1 h2 h3
      have : q < 8 * t'.buf.length := by
        have := hw.len; rw [this] at h3; rw [hlen, hpos'] at *; simp [bytesFor] at h3; omega
      rw [hw.kept q this (.inr h2), hb', bitAtPos_append_zero, if_neg (by omega), if_pos (by omega)]

/-- `WriteBit` at the unaligned append position (R65). -/
theorem writeBit_unaligned {b : Bool} (h : t.bi = t.buf.length) (h0 : t.bo ≠ 0) :
    t.writeBit cfg b = .error (.fatal .appendUnaligned) := by
  simp [Stream.writeBit, Stream.ensureByte, h, h0]; rfl

/-- `WriteBit` at the aligned append position of a full buffer (R65). -/
theorem writeBit_full {b : Bool} (hp : t.pos = 8 * t.buf.length) (hf : canAppend cfg t.buf = false) :
    t.writeBit cfg b = .error (.fatal .capacity) := by
  have hb := (pos_le_iff.1 (Nat.le_of_eq hp)).resolve_left (by rw [← pos_lt_iff]; omega)
  simp [Stream.writeBit, Stream.ensureByte, hb.1, hb.2, hf]; rfl

/-- Writing bits where they fit (R105): `WroteBits`. Only bits past the buffer's end need room. -/
theorem writeBits_ok (hp : t.pos ≤ 8 * t.buf.length)
    (hf : t.pos + bs.length ≤ 8 * t.buf.length ∨ cfg.bufFits (bytesFor (t.pos + bs.length)) = true) :
    ∃ u, t.writeBits cfg bs = .ok u ∧ WroteBits bs t u := by
  induction bs generalizing t with
  | nil => exact ⟨t, rfl, .nil t hp⟩
  | cons b bs ih =>
    rw [List.length_cons] at hf
    obtain ⟨u, hu, hw⟩ := writeBit_ok (cfg := cfg) (b := b) hp (fun h => by
      unfold canAppend
      refine bufFits_mono (hf.resolve_left (by omega)) ?_
      rw [h]; simp [bytesFor]; omega)
    obtain ⟨v, hv, hw'⟩ := ih (t := u) hw.pos_le (by
      rw [hw.pos, hw.len, List.length_singleton, Nat.add_assoc, Nat.add_comm 1]
      exact hf.imp (fun h => by omega) id)
    exact ⟨v, by rw [Stream.writeBits, hu]; exact hv, hw.trans hw'⟩

/-- Everything writing bits can do from a sound cursor. -/
theorem writeBits_answers (hok : t.Ok cfg) (hp : t.pos ≤ 8 * t.buf.length) :
    Answers [.capacity] (fun u => WroteBits bs t u ∧ u.Ok cfg) (t.writeBits cfg bs) := by
  induction bs generalizing t with
  | nil => exact ⟨.nil t hp, hok⟩
  | cons b bs ih =>
    rw [Stream.writeBits]
    by_cases hc : t.pos = 8 * t.buf.length ∧ canAppend cfg t.buf = false
    · rw [writeBit_full hc.1 hc.2]; simp [Answers, bind, Except.bind]
    · obtain ⟨u, hu, hw⟩ := writeBit_ok (cfg := cfg) (b := b) hp (fun h => by
        cases hx : canAppend cfg t.buf
        · exact absurd ⟨h, hx⟩ hc
        · rfl)
      rw [hu]
      have hou : u.Ok cfg := by
        refine .of_pos hw.pos_le ?_
        rw [hw.len]
        rcases Nat.lt_or_ge t.pos (8 * t.buf.length) with h | h
        · refine bufFits_mono hok.fits ?_; simp [bytesFor]; omega
        · have hx : canAppend cfg t.buf = true := by
            cases hx : canAppend cfg t.buf
            · exact absurd ⟨by omega, hx⟩ hc
            · rfl
          refine bufFits_mono hx ?_; simp [bytesFor]; omega
      exact (ih hou hw.pos_le).imp fun v hv => ⟨hw.trans hv.1, hv.2⟩

/-- Writing bits from any cursor of R23: the unaligned append position is the other fault. -/
theorem writeBits_answers_any (hok : t.Ok cfg) :
    Answers [.capacity, .appendUnaligned] (fun u => u.Ok cfg) (t.writeBits cfg bs) := by
  by_cases hp : t.pos ≤ 8 * t.buf.length
  · exact ((writeBits_answers hok hp).imp fun _ h => h.2).causes (by simp)
  · have hc := hok.cursor
    have hb : t.bi = t.buf.length ∧ t.bo ≠ 0 := by
      rw [pos_le_iff] at hp; push Not at hp
      exact ⟨by omega, hp.2 (by omega)⟩
    cases bs with
    | nil => exact hok
    | cons b bs => rw [Stream.writeBits, writeBit_unaligned hb.1 hb.2]; simp [Answers, bind, Except.bind]

/-- Writing at least one bit at the unaligned append position (R23, R65). -/
theorem writeBits_unaligned (h : t.bi = t.buf.length) (h0 : t.bo ≠ 0) (hbs : bs ≠ []) :
    t.writeBits cfg bs = .error (.fatal .appendUnaligned) := by
  cases bs with
  | nil => exact absurd rfl hbs
  | cons b bs => rw [Stream.writeBits, writeBit_unaligned h h0]; rfl

/-- Writing bits that do not fit (R36). -/
theorem writeBits_full (hok : t.Ok cfg) (hp : t.pos ≤ 8 * t.buf.length)
    (hf : cfg.bufFits (bytesFor (t.pos + bs.length)) = false) :
    t.writeBits cfg bs = .error (.fatal .capacity) := by
  have h := writeBits_answers (bs := bs) hok hp
  rcases hr : t.writeBits cfg bs with (c | _) | u
  · rw [hr] at h; simp at h; rw [h]
  · rw [hr] at h; exact absurd h id
  · rw [hr] at h
    have := bufFits_mono h.2.fits (a := bytesFor (t.pos + bs.length)) (by rw [h.1.len]; omega)
    rw [this] at hf; cases hf

/-- Bits that reach past the end of a buffer that may not grow that far are fatal, whatever the buffer's length (R36). -/
theorem writeBits_capacity (hp : t.pos ≤ 8 * t.buf.length) (hgt : 8 * t.buf.length < t.pos + bs.length)
    (hf : cfg.bufFits (bytesFor (t.pos + bs.length)) = false) :
    t.writeBits cfg bs = .error (.fatal .capacity) := by
  induction bs generalizing t with
  | nil => simp at hgt; omega
  | cons b bs ih =>
    rw [Stream.writeBits]
    by_cases h : t.pos = 8 * t.buf.length ∧ canAppend cfg t.buf = false
    · rw [writeBit_full h.1 h.2]; rfl
    · obtain ⟨u, hu, hw⟩ := writeBit_ok (cfg := cfg) (b := b) hp fun he => Bool.not_eq_false _ ▸ fun hc => h ⟨he, hc⟩
      rw [hu, except_bind_ok]
      have hpos := hw.pos
      have hlen := hw.len
      simp only [List.length_cons, List.length_nil] at hpos hlen hgt hf
      refine ih hw.pos_le ?_ (by rw [hpos, ← hf]; congr 2; omega)
      rcases Nat.lt_or_ge t.pos (8 * t.buf.length) with hlt | hge
      · rw [hlen, hpos]; unfold bytesFor; omega
      · have he : t.pos = 8 * t.buf.length := by omega
        have hc : cfg.bufFits (t.buf.length + 1) = true :=
          Bool.not_eq_false _ ▸ fun hc => h ⟨he, hc⟩
        have : ¬ bytesFor (t.pos + (bs.length + 1)) ≤ t.buf.length + 1 := fun hle => by
          rw [bufFits_mono hc hle] at hf; cases hf
        rw [hlen, hpos]; unfold bytesFor at *; omega

/-- `writeBits` of a concatenation. -/
theorem writeBits_append (t : Stream) (bs cs : List Bool) :
    t.writeBits cfg (bs ++ cs) = t.writeBits cfg bs >>= fun u => u.writeBits cfg cs := by
  induction bs generalizing t with
  | nil => rfl
  | cons b bs ih =>
    rw [List.cons_append, Stream.writeBits, Stream.writeBits, bind_assoc]
    congr 1; funext u; exact ih u

/-! ### `put` -/

/-- What a byte written leaves when it is written whole (R103). -/
theorem wroteBits_byte (h0 : t.bo = 0) {m' : Memory} {w : Byte} (h : Memory.write t.buf t.bi w = .ok m') :
    WroteBits (byteBits w) t { t with buf := m', bi := t.bi + 1 } := by
  have hpos : t.pos = 8 * t.bi := by unfold Stream.pos; rw [h0]; rfl
  have hlen : m'.length = max t.buf.length (t.bi + 1) := by
    obtain ⟨hi, rfl⟩ | ⟨hi, rfl⟩ := memory_write_cases h <;> simp <;> omega
  have hother : ∀ p, p / 8 ≠ t.bi → bitAtPos m' p = bitAtPos t.buf p := fun p hp => by
    unfold bitAtPos; rw [memory_read_write_other h hp]
  constructor
  · rw [hpos, byteBits_length]
    show 8 * (t.bi + 1) + t.bo.val = _
    rw [h0]; show 8 * (t.bi + 1) + 0 = _; omega
  · rw [hpos, byteBits_length]; show m'.length = _; rw [hlen]; unfold bytesFor; omega
  · intro j hj
    rw [byteBits_length] at hj
    have h1 : (t.pos + j) / 8 = t.bi := by omega
    have h2 : (t.pos + j) % 8 = j := by omega
    show bitAtPos m' _ = _
    rw [byteBits_getElem?, if_pos hj, bitAtPos, h1, h2, memory_read_write_same h]; rfl
  · intro p _ hr
    rw [byteBits_length] at hr
    exact hother p (by omega)
  · intro p h1 h2 h3
    exfalso
    rw [byteBits_length] at h2
    change p < 8 * m'.length at h3
    rw [hlen] at h3; omega

/-- `put` is `putBits(byte, 8)` at every offset (R55, R103). -/
theorem put_eq (t : Stream) (w : Byte) : t.put cfg w = t.writeBits cfg (byteBits w) := by
  unfold Stream.put
  split
  · next h0 =>
    have hpos : t.pos = 8 * t.bi := by unfold Stream.pos; rw [h0]; rfl
    have key : ∀ m', Memory.write t.buf t.bi w = .ok m' → t.pos ≤ 8 * t.buf.length →
        (t.bi = t.buf.length → canAppend cfg t.buf = true) →
        (Except.ok { t with buf := m', bi := t.bi + 1 } : Except Stop Stream) = t.writeBits cfg (byteBits w) := by
      intro m' hm hp hc
      obtain ⟨u, hu, hw⟩ := writeBits_ok (cfg := cfg) (bs := byteBits w) hp (by
        rw [byteBits_length]
        by_cases h : t.bi = t.buf.length
        · refine .inr ?_
          have e : bytesFor (t.pos + 8) = t.buf.length + 1 := by rw [hpos, h]; unfold bytesFor; omega
          rw [e]; exact hc h
        · exact .inl (by omega))
      rw [hu, (wroteBits_byte h0 hm).unique hp hw]
    split
    · next h =>
      rw [show byteBits w = w.toNat.testBit 0 :: (byteBits w).tail from rfl, Stream.writeBits,
        writeBit_full (by omega) h.2]; rfl
    · next h =>
      rcases Nat.lt_trichotomy t.bi t.buf.length with hi | hi | hi
      · rw [memory_write_inside _ hi, ← key _ (memory_write_inside _ hi) (by omega) (by omega)]; rfl
      · have hm : Memory.write t.buf t.bi w = .ok (t.buf ++ [w]) := by rw [hi]; exact memory_write_append _ _
        rw [hm, ← key _ hm (by omega) (fun h' => by
          cases hc : canAppend cfg t.buf
          · exact absurd ⟨h', hc⟩ h
          · rfl)]; rfl
      · have hm : Memory.write t.buf t.bi w = .error .outside := by
          simp [Memory.write, Nat.not_lt_of_gt hi, Nat.ne_of_gt hi]
        have hr : Memory.read t.buf t.bi = .error .outside := by
          unfold Memory.read; rw [List.getElem?_eq_none (by omega)]
        rw [hm, show byteBits w = w.toNat.testBit 0 :: (byteBits w).tail from rfl, Stream.writeBits,
          Stream.writeBit, Stream.ensureByte, if_neg (Nat.ne_of_gt hi), except_bind_ok, hr]; rfl
  · rfl

/-- `putFast` inside the buffer, aligned (R104): the byte there, the length unchanged. -/
theorem putFast_ok {w : Byte} (h : t.bi < t.buf.length) (h0 : t.bo = 0) :
    t.putFast w = .ok { t with buf := t.buf.set t.bi w, bi := t.bi + 1 } := by
  simp [Stream.putFast, h, h0, memory_write_inside]

/-- `putFast` anywhere else (R104). -/
theorem putFast_fault {w : Byte} (h : ¬ (t.bi < t.buf.length ∧ t.bo = 0)) :
    t.putFast w = .error (.fatal .putfastPrecond) := by simp [Stream.putFast, h]

/-- Putting a list of bytes is writing their bits. -/
theorem putAll_eq (t : Stream) (ws : List Byte) : t.putAll cfg ws = t.writeBits cfg (bufBits ws) := by
  induction ws generalizing t with
  | nil => rfl
  | cons w ws ih =>
    rw [Stream.putAll, put_eq, bufBits_cons, writeBits_append]
    congr 1; funext u; exact ih u

/-- A write that starts at the aligned append position appends whole bytes. -/
theorem wroteBits_append (m ws : Memory) :
    WroteBits (bufBits ws) (Stream.atPos m (8 * m.length)) (Stream.atPos (m ++ ws) (8 * (m ++ ws).length)) where
  pos := by simp; omega
  len := by simp [bytesFor]; omega
  written := by
    intro j hj
    rw [bufBits_length] at hj
    rw [atPos_buf, atPos_pos, bitAtPos_append_right (by omega), bufBits_getElem?]; congr 1; omega
  kept := by
    intro p hp _
    exact bitAtPos_append_left hp
  fresh := by
    intro p h1 h2 h3
    exfalso
    simp at h2 h3; omega

end Sys2Proof.Machine
end

