-- ==== Sys2Proof/Laws/Codec.lean ====
section
/-! SUPPORT. The codecs as strings of bits: what the encoders write, where the decoders can stop. -/

namespace Sys2Proof.Machine

variable {cfg : Config} {t u v : Stream} {m : Memory} {bs cs : List Bool}

/-! ### What the encoders write -/

@[simp] theorem headerBits_length (fbi size : Nat) : (headerBits fbi size).length = 12 := by simp [headerBits]

theorem three_le_hufBits (fbi : Nat) (m : Memory) : 3 ≤ (hufBits fbi m).length := by simp [hufBits]; omega
theorem three_le_recBits (fbi short long : Nat) (m : Memory) : 3 ≤ (recBits fbi short long m).length := by
  simp [recBits]; omega

theorem headerBits_drop (fbi size : Nat) (rest : List Bool) :
    (headerBits fbi size ++ rest).drop 3 = lsbFirst 9 size ++ rest := by
  rw [headerBits, List.append_assoc, List.drop_left' (by simp)]

/-- The patch turns the bits written into the wire format with its count (R170). -/
theorem hufBits_patch (fbi : Nat) (m : Memory) : lsbFirst 3 fbi ++ (hufBits 0 m).drop 3 = hufBits fbi m := by
  rw [hufBits, List.append_assoc, headerBits_drop, hufBits, headerBits]; simp

theorem recBits_patch (fbi short long : Nat) (m : Memory) :
    lsbFirst 3 fbi ++ (recBits 0 short long m).drop 3 = recBits fbi short long m := by
  rw [recBits, List.append_assoc, headerBits_drop, recBits, headerBits]; simp

theorem hufBits_length (fbi fbi' : Nat) (m : Memory) : (hufBits fbi m).length = (hufBits fbi' m).length := by
  simp [hufBits]

theorem recBits_length (fbi fbi' short long : Nat) (m : Memory) :
    (recBits fbi short long m).length = (recBits fbi' short long m).length := by
  simp [recBits]

theorem putHeader_eq (size : Nat) (t : Stream) : putHeader cfg size t = t.writeBits cfg (headerBits 0 size) := by
  rw [headerBits, writeBits_append]; rfl

theorem putEntries_eq (alpha : List (Byte × Seq)) (vs : List Byte) (t : Stream) :
    putEntries cfg alpha vs t = t.writeBits cfg (entryBits alpha vs) := by
  induction vs generalizing t with
  | nil => rfl
  | cons w vs ih =>
    have : entryBits alpha (w :: vs) =
        byteBits w ++ (lsbFirst 9 (codeOf alpha w).length ++ (codeOf alpha w ++ entryBits alpha vs)) := by
      simp [entryBits]
    rw [this, writeBits_append, putEntries]
    congr 1; funext a
    rw [writeBits_append]
    show (a.writeBits cfg _ >>= _) = _
    congr 1; funext b
    rw [writeBits_append]
    show (b.writeBits cfg _ >>= _) = _
    congr 1; funext c; exact ih c

theorem putCodes_eq (alpha : List (Byte × Seq)) (vs : List Byte) (t : Stream) :
    putCodes cfg alpha vs t = t.writeBits cfg (codeBits alpha vs) := by
  induction vs generalizing t with
  | nil => rfl
  | cons w vs ih =>
    rw [show codeBits alpha (w :: vs) = codeOf alpha w ++ codeBits alpha vs from rfl, writeBits_append, putCodes]
    show (t.writeBits cfg _ >>= _) = _
    congr 1; funext a; exact ih a

theorem putSymbols_eq (short long : Nat) (table vs : List Byte) (t : Stream) :
    putSymbols cfg short long table vs t = t.writeBits cfg (symbolBits short long table vs) := by
  induction vs generalizing t with
  | nil => rfl
  | cons w vs ih =>
    rw [show symbolBits short long table (w :: vs) =
      lsbFirst (symbolOf short long (table.idxOf w)).2 (symbolOf short long (table.idxOf w)).1 ++
        symbolBits short long table vs from rfl, writeBits_append, putSymbols]
    show (t.writeBits cfg _ >>= _) = _
    congr 1; funext a; exact ih a

/-- `HUF.ENC` on fresh streams: its bits, then the patch (R171). -/
theorem hufEncode_eq (m : Memory) (out : Stream) :
    hufEncode cfg (Stream.fresh m) out = (do
      let o ← out.writeBits cfg (hufBits 0 m)
      let o ← patchHeader cfg o
      return some (Stream.atPos m (8 * m.length), o)) := by
  have h : (Stream.atPos m (8 * m.length)).buf.length = m.length := rfl
  simp only [hufEncode, fresh_buf, scan_fresh, except_bind_ok, seek_zero, atPos_buf, putHeader_eq,
    putEntries_eq, putCodes_eq, hufBits, writeBits_append, bind_assoc]

/-- `REC.ENC` on fresh streams: its bits, then the patch (R204, R205). -/
theorem recEncode_eq (short long : Nat) (m : Memory) (out : Stream) :
    recEncode cfg short long (Stream.fresh m) out = (do
      let o ← out.writeBits cfg (recBits 0 short long m)
      let o ← patchHeader cfg o
      return some (Stream.atPos m (8 * m.length), o)) := by
  simp only [recEncode, fresh_buf, scan_fresh, except_bind_ok, seek_zero, atPos_buf, putHeader_eq,
    putAll_eq, putSymbols_eq, recBits, writeBits_append, bind_assoc]

/-- The identity step on a fresh stream: the bytes themselves (R234). -/
theorem identityStep_eq (m : Memory) (out : Stream) :
    identityStep cfg (Stream.fresh m) out = (do
      let o ← out.writeBits cfg (bufBits m)
      return some (Stream.atPos m (8 * m.length), o)) := by
  simp only [identityStep, fresh_buf, scan_fresh, except_bind_ok, putAll_eq]

/-- A compressed buffer made of `bits` (R85, R89, R170): their count modulo 8 in the first three positions, the
rest as written, zero padding, the cursor at (0,3). -/
structure Encoded (bits : List Bool) (o : Stream) : Prop where
  pos   : o.pos = 3
  holds : HoldsBits (lsbFirst 3 (bits.length % 8) ++ bits.drop 3) o.buf

theorem Encoded.len {bits : List Bool} {o : Stream} (h : Encoded bits o) (h3 : 3 ≤ bits.length) :
    o.buf.length = bytesFor bits.length := by
  rw [h.holds.1]; congr 1; simp; omega

/-- The bit string a stream holds after `bits` were written to an empty one. -/
theorem WroteBits.bufBits_eq (h : WroteBits bs Stream.empty u) :
    bufBits u.buf = bs ++ List.replicate (8 * bytesFor bs.length - bs.length) false := by
  have hl : u.buf.length = bytesFor bs.length := by rw [h.len]; simp
  have hle : bs.length ≤ 8 * bytesFor bs.length := by unfold bytesFor; omega
  apply List.ext_getElem?
  intro p
  rw [bufBits_getElem?]
  by_cases hp : p < bs.length
  · rw [List.getElem?_append_left hp, ← h.written p hp]; simp
  · rw [List.getElem?_append_right (by omega), List.getElem?_replicate]
    split
    · rw [h.fresh p (by simp) (by simp; omega) (by rw [hl]; omega)]
    · rw [bitAtPos_none (by rw [hl]; omega)]

/-- The patch (R170) of a stream that holds at least a header. -/
theorem patchHeader_ok (h : WroteBits bs Stream.empty u) (h3 : 3 ≤ bs.length) :
    ∃ o, patchHeader cfg u = .ok o ∧ Encoded bs o := by
  have hl : u.buf.length = bytesFor bs.length := by rw [h.len]; simp
  have h8 : bs.length ≤ 8 * u.buf.length := by rw [hl]; unfold bytesFor; omega
  have hbo : u.bo.val = bs.length % 8 := by rw [← pos_mod, h.pos]; simp
  obtain ⟨o, ho, hw⟩ := writeBits_ok (cfg := cfg) (t := Stream.fresh u.buf) (bs := lsbFirst 3 u.bo.val)
    (by simp) (.inl (by simp; omega))
  have hlo : o.buf.length = u.buf.length := by rw [hw.len]; simp [bytesFor]; omega
  have hlb : (lsbFirst 3 (bs.length % 8) ++ bs.drop 3).length = bs.length := by simp; omega
  refine ⟨o, by rw [patchHeader, seek_zero]; exact ho, by rw [hw.pos]; simp, by rw [hlb, hlo, hl], ?_⟩
  rw [hlb, hlo, hl]
  · have hub := h.bufBits_eq
    apply List.ext_getElem?
    intro p
    rw [bufBits_getElem?]
    by_cases hp : p < 3
    · have := hw.written p (by simpa using hp)
      simp only [fresh_pos, Nat.zero_add] at this
      rw [this, List.append_assoc, List.getElem?_append_left (by simpa using hp), hbo]
    · have hk : bitAtPos o.buf p = bitAtPos u.buf p := by
        by_cases hp8 : p < 8 * u.buf.length
        · exact hw.kept p hp8 (.inr (by simp; omega))
        · rw [bitAtPos_none (by omega), bitAtPos_none (by omega)]
      rw [hk, ← bufBits_getElem?, hub]
      have ht : (bs.take 3).length = 3 := by simp; omega
      generalize List.replicate (8 * bytesFor bs.length - bs.length) false = pad
      have hb : bs ++ pad = bs.take 3 ++ (bs.drop 3 ++ pad) := by
        rw [← List.append_assoc, List.take_append_drop]
      rw [hb, List.append_assoc, List.getElem?_append_right (by omega),
        List.getElem?_append_right (l₁ := lsbFirst 3 (bs.length % 8)) (by simp; omega), ht, lsbFirst_length]

/-- Bits written to an empty stream and patched, where they fit (R171, R205). -/
theorem encode_ok {bits : List Bool} (h3 : 3 ≤ bits.length) (hf : cfg.bufFits (bytesFor bits.length) = true) :
    ∃ u o, Stream.empty.writeBits cfg bits = .ok u ∧ patchHeader cfg u = .ok o ∧ Encoded bits o := by
  obtain ⟨u, hu, hw⟩ := writeBits_ok (cfg := cfg) (t := Stream.empty) (bs := bits) (by simp) (.inr (by simpa using hf))
  obtain ⟨o, ho, he⟩ := patchHeader_ok (cfg := cfg) hw h3
  exact ⟨u, o, hu, ho, he⟩

/-- `HUF.ENC` where its output fits (R171). -/
theorem hufEncode_ok {m : Memory} (hf : cfg.bufFits (bytesFor (hufBits 0 m).length) = true) :
    ∃ o, hufEncode cfg (Stream.fresh m) Stream.empty = .ok (some (Stream.atPos m (8 * m.length), o)) ∧
      Encoded (hufBits 0 m) o := by
  obtain ⟨u, o, hu, ho, he⟩ := encode_ok (three_le_hufBits 0 m) hf
  exact ⟨o, by rw [hufEncode_eq, hu, except_bind_ok, ho]; rfl, he⟩

/-- `REC.ENC` where its output fits (R205). -/
theorem recEncode_ok {short long : Nat} {m : Memory}
    (hf : cfg.bufFits (bytesFor (recBits 0 short long m).length) = true) :
    ∃ o, recEncode cfg short long (Stream.fresh m) Stream.empty =
        .ok (some (Stream.atPos m (8 * m.length), o)) ∧ Encoded (recBits 0 short long m) o := by
  obtain ⟨u, o, hu, ho, he⟩ := encode_ok (three_le_recBits 0 short long m) hf
  exact ⟨o, by rw [recEncode_eq, hu, except_bind_ok, ho]; rfl, he⟩

/-- Everything writing bits to the empty stream and patching can do. -/
theorem encode_answers {bits : List Bool} (h3 : 3 ≤ bits.length) (hz : cfg.bufFits 0 = true) :
    Answers [.capacity] (fun o => o.Ok cfg ∧ Encoded bits o)
      (Stream.empty.writeBits cfg bits >>= patchHeader cfg) := by
  refine (writeBits_answers (bs := bits) ⟨by simp [Stream.empty], hz⟩ (by simp)).bind fun u hu => ?_
  obtain ⟨o, ho, he⟩ := patchHeader_ok (cfg := cfg) hu.1 h3
  rw [ho]
  refine ⟨.of_pos ?_ ?_, he⟩
  · rw [he.pos, he.len h3]; unfold bytesFor; omega
  · rw [he.len h3]; have := hu.2.fits; rw [hu.1.len] at this; simpa using this

/-! ### Where the decoders can stop -/

/-- A put at the aligned append position (R103). -/
theorem put_append (w : Byte) :
    (Stream.atPos m (8 * m.length)).put cfg w =
      if canAppend cfg m then .ok (Stream.atPos (m ++ [w]) (8 * (m ++ [w]).length))
      else .error (.fatal .capacity) := by
  have hb : (Stream.atPos m (8 * m.length)).bi = m.length := by simp [Stream.atPos]
  have h0 : (Stream.atPos m (8 * m.length)).bo = 0 := by
    apply Fin.ext; simp [Stream.atPos, Fin.ofNat]
  have e : (8 * m.length + 8) / 8 = m.length + 1 := by omega
  unfold Stream.put
  rw [if_pos h0, hb]
  cases hc : canAppend cfg m
  · simp [hc]
  · simp only [atPos_buf, hc, Bool.true_eq_false, and_false, if_false, if_true]
    rw [memory_write_append, except_map_ok]
    congr 1
    exact stream_ext rfl (by
      rw [atPos_pos]
      show 8 * (m.length + 1) + (Stream.atPos m (8 * m.length)).bo.val = _
      rw [h0]; simp)

/-- A put at the aligned append position grows the buffer by the byte, or the buffer is full. -/
theorem put_append_answers (w : Byte) :
    Answers [.capacity] (fun o => o = Stream.atPos (m ++ [w]) (8 * (m ++ [w]).length) ∧
      cfg.bufFits (m ++ [w]).length = true) ((Stream.atPos m (8 * m.length)).put cfg w) := by
  rw [put_append]
  cases hc : canAppend cfg m
  · simp
  · simp only [if_true, answers_ok, true_and]
    simpa [canAppend] using hc

theorem endBoundary_le {n fbi : Nat} (h : fbi < 8) (hn : 1 ≤ n) : endBoundary n fbi ≤ 8 * n := by
  unfold endBoundary; split <;> omega

/-- `readBits` where its bits exist. -/
theorem readBits_answers {n : Nat} (h : t.pos + n ≤ 8 * t.buf.length) :
    Answers [] (fun r => r.1 = ofLsbFirst (((bufBits t.buf).drop t.pos).take n) ∧ r.1 < 2 ^ n ∧
      r.2 = Stream.atPos t.buf (t.pos + n)) (t.readBits n) := by
  have := readBits_ok (m := t.buf) (p := t.pos) (n := n) (.inr h)
  rw [atPos_self] at this
  rw [this]
  refine ⟨rfl, ?_, rfl⟩
  have h1 := ofLsbFirst_lt (((bufBits t.buf).drop t.pos).take n)
  have h2 : (((bufBits t.buf).drop t.pos).take n).length = n := by simp; omega
  rw [h2] at h1; exact h1

/-- `takeBits` where its bits exist. -/
theorem takeBits_answers_inside {n : Nat} (h : t.pos + n ≤ 8 * t.buf.length) :
    Answers [] (fun r => r.1 = ((bufBits t.buf).drop t.pos).take n ∧ r.2 = Stream.atPos t.buf (t.pos + n))
      (t.takeBits n) := by
  have := takeBits_ok (m := t.buf) (p := t.pos) (n := n) (.inr h)
  rw [atPos_self] at this
  rw [this]; exact ⟨rfl, rfl⟩

/-- A byte read where its bits exist. -/
theorem readByte_answers (h : t.pos + 8 ≤ 8 * t.buf.length) :
    Answers [] (fun r => r.2 = Stream.atPos t.buf (t.pos + 8)) t.readByte := by
  have := readByte_ok (m := t.buf) (p := t.pos) h
  rw [atPos_self] at this
  rw [this]; exact rfl

/-- The alphabet (R174) is read without a fault and not past the end boundary. -/
theorem readEntries_answers {e : Nat} (n : Nat) (inv : InverseAlphabet) (t : Stream)
    (he : e ≤ 8 * t.buf.length) :
    Answers [] (fun r => ∀ p, r = some p → p.2.buf = t.buf ∧ t.pos ≤ p.2.pos ∧ p.2.pos ≤ max t.pos e)
      (readEntries e n inv t) := by
  induction n generalizing inv t with
  | zero => intro p hp; cases hp; simp
  | succ n ih =>
    rw [readEntries]
    split
    · intro p hp; cases hp
    · next h17 =>
      refine (readBits_answers (by omega)).bind fun r hr => ?_
      obtain ⟨rv, r⟩ := r
      obtain ⟨-, -, rfl⟩ := hr
      refine (readBits_answers (by simp; omega)).bind fun r hr => ?_
      obtain ⟨clen, r⟩ := r
      obtain ⟨-, -, rfl⟩ := hr
      simp only [atPos_pos, atPos_buf]
      split
      · intro p hp; cases hp
      · next hc =>
        push Not at hc
        refine (takeBits_answers_inside (by simp; omega)).bind fun r hr => ?_
        obtain ⟨q, r⟩ := r
        obtain ⟨-, rfl⟩ := hr
        simp only [atPos_pos, atPos_buf]
        split
        · intro p hp; cases hp
        · refine (ih _ (Stream.atPos t.buf (t.pos + 8 + 9 + clen)) he).imp fun a ha p hp => ?_
          obtain ⟨h1, h2, h3⟩ := ha p hp
          simp only [atPos_pos, atPos_buf] at h1 h2 h3
          exact ⟨h1, by omega, by omega⟩

/-- The decode loop (R175) reads exactly the bits before `E` and appends whole bytes to `OUT`. -/
theorem decodeBits_answers (inv : InverseAlphabet) (n : Nat) (scratch : Seq) (t : Stream) (o : Memory)
    (h : t.pos + n ≤ 8 * t.buf.length) (hf : cfg.bufFits o.length = true) :
    Answers [.capacity] (fun r => ∀ p, r = some p → p.1 = Stream.atPos t.buf (t.pos + n) ∧
        ∃ o', p.2 = Stream.atPos o' (8 * o'.length) ∧ cfg.bufFits o'.length = true)
      (decodeBits cfg inv n scratch t (Stream.atPos o (8 * o.length))) := by
  induction n generalizing scratch t o with
  | zero =>
    rw [decodeBits]
    intro p hp
    split at hp
    · cases hp; exact ⟨(atPos_self t).symm, o, rfl, hf⟩
    · cases hp
  | succ n ih =>
    rw [decodeBits]
    refine ((takeBits_answers_inside (n := 1) (by omega)).causes (by simp)).bind fun r hr => ?_
    obtain ⟨bits, r⟩ := r
    obtain ⟨-, rfl⟩ := hr
    have e : t.pos + 1 + n = t.pos + (n + 1) := by omega
    simp only
    split
    · refine (put_append_answers _).bind fun o1 ho => ?_
      obtain ⟨rfl, hf'⟩ := ho
      refine (ih [] (Stream.atPos t.buf (t.pos + 1)) _ (by simp; omega) hf').imp fun a ha p hp => ?_
      simpa [e] using ha p hp
    · refine (ih _ (Stream.atPos t.buf (t.pos + 1)) o (by simp; omega) hf).imp fun a ha p hp => ?_
      simpa [e] using ha p hp

/-- What a decoder leaves when it answers `true` (R177, R209): `IN.buf` as it was, its cursor at `endPos`, `OUT` at its
append position, both streams sound. -/
structure Decoded (cfg : Config) (m : Memory) (endPos : Nat) (p : Stream × Stream) : Prop where
  inBuf  : p.1.buf = m
  inPos  : p.1.pos = endPos
  inside : endPos ≤ 8 * m.length
  outPos : p.2.pos = 8 * p.2.buf.length
  outFits : cfg.bufFits p.2.buf.length = true

/-- `HUF.DEC` on fresh streams: `true`, `false`, or a full `OUT`; never `READ_PAST_END` (R177, R246). -/
theorem hufDecode_answers (hz : cfg.bufFits 0 = true) (m : Memory) :
    Answers [.capacity] (fun r => ∀ p, r = some p → Decoded cfg m (max (endBoundary m.length (fbiOf m)) 12) p)
      (hufDecode cfg (Stream.fresh m) Stream.empty) := by
  rw [hufDecode, fresh_buf]
  split
  · intro p hp; cases hp
  · next h2 =>
    refine ((readBits_answers (by simp; omega)).causes (by simp)).bind fun r hr => ?_
    obtain ⟨fbi, r⟩ := r
    obtain ⟨hfe, hfbi, rfl⟩ := hr
    have hfe : fbi = fbiOf m := hfe
    refine ((readBits_answers (by simp; omega)).causes (by simp)).bind fun r hr => ?_
    obtain ⟨size, r⟩ := r
    obtain ⟨-, -, rfl⟩ := hr
    simp only [atPos_buf, fresh_buf, atPos_pos, fresh_pos]
    have hE := endBoundary_le (n := m.length) (fbi := fbi) hfbi (by omega)
    rw [← hfe]
    split
    · intro p hp; cases hp
    · refine ((readEntries_answers size [] (Stream.atPos m (0 + 3 + 9)) (by simpa using hE)).causes
        (by simp)).bind fun r hr => ?_
      cases r with
      | none => intro p hp; cases hp
      | some q =>
        obtain ⟨inv, s⟩ := q
        obtain ⟨h1, h2', h3⟩ := hr _ rfl
        simp only [atPos_buf, atPos_pos] at h1 h2' h3
        have := decodeBits_answers (cfg := cfg) inv (endBoundary m.length fbi - s.pos) [] s []
          (by rw [h1]; omega) hz
        refine this.imp fun a ha p hp => ?_
        obtain ⟨h4, o', h5, h6⟩ := ha p hp
        refine ⟨by rw [h4, atPos_buf, h1], ?_, by omega, by rw [h5]; simp, by rw [h5]; exact h6⟩
        rw [h4, atPos_pos]; omega

/-- The rank table (R206) is read without a fault where it fits. -/
theorem readTable_answers (n : Nat) (t : Stream) (h : t.pos + 8 * n ≤ 8 * t.buf.length) :
    Answers [] (fun r => r.1.length = n ∧ r.2 = Stream.atPos t.buf (t.pos + 8 * n)) (readTable n t) := by
  induction n generalizing t with
  | zero => exact ⟨rfl, (atPos_self t).symm⟩
  | succ n ih =>
    rw [readTable]
    refine (readByte_answers (by omega)).bind fun r hr => ?_
    obtain ⟨w, r⟩ := r
    simp only at hr
    subst hr
    refine (ih (Stream.atPos t.buf (t.pos + 8)) (by simp; omega)).bind fun r hr => ?_
    obtain ⟨ws, r⟩ := r
    obtain ⟨h1, h2⟩ := hr
    simp only at h1 h2
    subst h2
    exact ⟨by simp [h1], by simp; congr 1; omega⟩

/-- One symbol (R203, R207) is read without a fault, moves the cursor, and not past the end boundary. -/
theorem readRank_answers {short long e : Nat} (hs : 0 < short) (hl : short ≤ long) (t : Stream)
    (he : e ≤ 8 * t.buf.length) :
    Answers [] (fun r => ∀ p, r = some p → ∃ k, 0 < k ∧ t.pos + k ≤ e ∧ p.2 = Stream.atPos t.buf (t.pos + k))
      (readRank short long e t) := by
  rw [readRank]
  split
  · intro p hp; cases hp
  · next h1 =>
    have hp : Answers [] (fun _ => True) (t.peekBits short) := (readBits_answers (by omega)).map fun _ _ => trivial
    refine hp.bind fun pv _ => ?_
    split
    · refine (readBits_answers (by omega)).bind fun r hr => ?_
      obtain ⟨-, -, h⟩ := hr
      intro p hp; cases hp
      exact ⟨short, hs, by omega, h⟩
    · split
      · intro p hp; cases hp
      · next h2 =>
        refine (readBits_answers (n := long) (by omega)).bind fun r hr => ?_
        obtain ⟨rv, r⟩ := r
        obtain ⟨-, -, h⟩ := hr
        intro p hp; cases hp
        exact ⟨long, by omega, by omega, h⟩

/-- The decode loop (R207) ends at the end boundary and appends whole bytes to `OUT`. -/
theorem decodeSymbols_answers {short long e : Nat} (hs : 0 < short) (hl : short ≤ long) (table : List Byte)
    (n : Nat) (t : Stream) (o : Memory) (he : e ≤ 8 * t.buf.length) (hn : e - t.pos ≤ n)
    (ht : t.pos ≤ 8 * t.buf.length) (hf : cfg.bufFits o.length = true) :
    Answers [.capacity] (fun r => ∀ p, r = some p → p.1 = Stream.atPos t.buf (max t.pos e) ∧
        ∃ o', p.2 = Stream.atPos o' (8 * o'.length) ∧ cfg.bufFits o'.length = true)
      (decodeSymbols cfg short long e table n t (Stream.atPos o (8 * o.length))) := by
  have done : e ≤ t.pos → ∀ p, some (t, Stream.atPos o (8 * o.length)) = some p →
      p.1 = Stream.atPos t.buf (max t.pos e) ∧
        ∃ o', p.2 = Stream.atPos o' (8 * o'.length) ∧ cfg.bufFits o'.length = true := by
    intro h p hp
    cases hp
    exact ⟨by rw [Nat.max_eq_left h]; exact (atPos_self t).symm, o, rfl, hf⟩
  induction n generalizing t o with
  | zero => exact done (by omega)
  | succ n ih =>
    rw [decodeSymbols]
    split
    · refine ((readRank_answers hs hl t he).causes (by simp)).bind fun r hr => ?_
      cases r with
      | none => intro p hp; cases hp
      | some q =>
        obtain ⟨k, hk, hke, h2⟩ := hr _ rfl
        obtain ⟨rk, s⟩ := q
        simp only at h2
        subst h2
        simp only
        split
        · intro p hp; cases hp
        · refine (put_append_answers _).bind fun o1 ho => ?_
          obtain ⟨rfl, hf'⟩ := ho
          have := ih (Stream.atPos t.buf (t.pos + k)) _ (by simpa using he) (by simp; omega) (by simp; omega) hf'
            (by
              intro h p hp; cases hp
              exact ⟨by rw [atPos_pos, Nat.max_eq_left (by simpa using h)]; rfl, _, rfl, hf'⟩)
          refine this.imp fun a ha p hp => ?_
          have h3 := ha p hp
          simp only [atPos_pos, atPos_buf] at h3
          rw [Nat.max_eq_right (by omega)] at h3
          rw [Nat.max_eq_right (by omega)]
          exact h3
    · next h => exact done (by omega)

/-- `REC.DEC` on fresh streams: `true`, `false`, or a full `OUT`; never `READ_PAST_END` (R209, R246). -/
theorem recDecode_answers {short long : Nat} (hs : 0 < short) (hl : short ≤ long) (hz : cfg.bufFits 0 = true)
    (m : Memory) :
    Answers [.capacity]
      (fun r => ∀ p, r = some p →
        Decoded cfg m (max (endBoundary m.length (fbiOf m)) (12 + 8 * alphaSizeOf m)) p)
      (recDecode cfg short long (Stream.fresh m) Stream.empty) := by
  rw [recDecode, fresh_buf]
  split
  · intro p hp; cases hp
  · next h2 =>
    refine ((readBits_answers (by simp; omega)).causes (by simp)).bind fun r hr => ?_
    obtain ⟨fbi, r⟩ := r
    obtain ⟨hfe, hfbi, rfl⟩ := hr
    have hfe : fbi = fbiOf m := hfe
    refine ((readBits_answers (by simp; omega)).causes (by simp)).bind fun r hr => ?_
    obtain ⟨size, r⟩ := r
    obtain ⟨hse, -, rfl⟩ := hr
    have hse : size = alphaSizeOf m := by simpa [alphaSizeOf] using hse
    simp only [atPos_buf, fresh_buf, atPos_pos, fresh_pos]
    have hE := endBoundary_le (n := m.length) (fbi := fbi) hfbi (by omega)
    rw [← hfe, ← hse]
    split
    · intro p hp; cases hp
    · next hc =>
      push Not at hc
      refine ((readTable_answers size (Stream.atPos m (0 + 3 + 9)) (by simp; omega)).causes
        (by simp)).bind fun r hr => ?_
      obtain ⟨table, s⟩ := r
      obtain ⟨-, h3⟩ := hr
      simp only [atPos_buf, atPos_pos] at h3
      subst h3
      simp only [atPos_pos]
      have := decodeSymbols_answers (cfg := cfg) hs hl table (endBoundary m.length fbi - (0 + 3 + 9 + 8 * size))
        (Stream.atPos m (0 + 3 + 9 + 8 * size)) [] (by simpa using hE) (by simp) (by simp; omega) hz
      simp only [atPos_pos] at this
      refine this.imp fun a ha p hp => ?_
      obtain ⟨h4, o', h5, h6⟩ := ha p hp
      refine ⟨by rw [h4]; rfl, ?_, by omega, by rw [h5]; simp, by rw [h5]; exact h6⟩
      rw [h4, atPos_pos]; omega

end Sys2Proof.Machine
end

