-- ==== Sys2Proof/Laws/PerInstr.lean ====
section
/-! SUPPORT. Statements for every instruction, one lemma per constructor. -/

namespace Sys2Proof

/-- The fields of a word that fit their widths (`30_encoding.md` R71), with selectors 0 or 1 and `zero` 0 (R73). -/
structure Fields.Fit (f : Fields) : Prop where
  opcode : f.opcode < 2 ^ 8
  a      : f.a < 2
  b      : f.b < 2
  n      : f.n ≤ 32
  k      : f.k < 2 ^ 3
  zero   : f.zero = 0
  imm    : f.imm < 2 ^ 32

theorem streamCode_lt (x : StreamId) : x.code < 2 := by cases x <;> decide
theorem seqCode_lt (a : SeqId) : a.code < 2 := by cases a <;> decide

theorem wfPattern_iff {n p : Nat} : wfPattern n p = true ↔ n ≤ 32 ∧ p < 2 ^ n := by
  rw [wfPattern, Bool.and_eq_true, decide_eq_true_iff, decide_eq_true_iff]; exact Iff.rfl
theorem wfWidth_iff {n : Nat} : wfWidth n = true ↔ n ≤ 32 := by
  rw [wfWidth, decide_eq_true_iff]; exact Iff.rfl
theorem wfAlg_iff {n : Nat} : wfAlg n = true ↔ n ≤ 7 := by simp [wfAlg]

/-- The six pairs (R200). -/
theorem wfPair_iff {short long : Nat} : wfPair short long = true ↔ 2 ≤ short ∧ short ≤ 7 ∧ long = short + 8 := by
  simp [wfPair, Config.pairs]
  omega

theorem pattern_lt {n p : Nat} (h : wfPattern n p = true) : p < 2 ^ 32 := by
  obtain ⟨hn, hp⟩ := wfPattern_iff.1 h
  exact Nat.lt_of_lt_of_le hp (Nat.pow_le_pow_right (by decide) hn)

end Sys2Proof

namespace Sys2Proof.Laws.FieldsFit

/-- A well-formed command's fields fit the word, and only the three commands of R70 have a payload. -/
def Statement (i : Instr) : Prop :=
  i.wf = true → i.fields.Fit ∧ (i.payload ≠ [] → i.fields.opcode = 0x01 ∨ i.fields.opcode = 0x30 ∨ i.fields.opcode = 0x31)

/-- Fields within their bounds. -/
theorem fit {opcode a b n k imm : Nat} (ho : opcode < 2 ^ 8) (ha : a < 2) (hb : b < 2) (hn : n ≤ 32) (hk : k < 2 ^ 3)
    (hi : imm < 2 ^ 32) : Fields.Fit { opcode := opcode, a := a, b := b, n := n, k := k, zero := 0, imm := imm } :=
  ⟨ho, ha, hb, hn, hk, rfl, hi⟩

/-- Fields of one selector. -/
theorem of_selector {opcode a : Nat} (ho : opcode < 2 ^ 8) (ha : a < 2) :
    Fields.Fit { opcodeOnly opcode with a := a } :=
  fit (b := 0) (n := 0) (k := 0) (imm := 0) ho ha (by decide) (by decide) (by decide) (by decide)

/-- No payload. -/
theorem none_taken {p : List Byte} {q : Prop} (h : p = []) : p ≠ [] → q := fun h' => absurd h h'

theorem bsNew (s : StreamId) : Statement (.bsNew s) := fun _ => ⟨of_selector (by decide) (streamCode_lt s), none_taken rfl⟩
theorem bsLoad (s : StreamId) (p : List Byte) : Statement (.bsLoad s p) :=
  fun _ => ⟨of_selector (by decide) (streamCode_lt s), fun _ => .inl rfl⟩
theorem bsPut (s : StreamId) (v : Byte) : Statement (.bsPut s v) := fun _ =>
  ⟨fit (by decide) (streamCode_lt s) (by decide) (by decide) (by decide) (Nat.lt_trans v.isLt (by decide)), none_taken rfl⟩
theorem bsPutf (s : StreamId) (v : Byte) : Statement (.bsPutf s v) := fun _ =>
  ⟨fit (by decide) (streamCode_lt s) (by decide) (by decide) (by decide) (Nat.lt_trans v.isLt (by decide)), none_taken rfl⟩
theorem bsPutb (s : StreamId) (n p : Nat) : Statement (.bsPutb s n p) := fun h =>
  ⟨fit (by decide) (streamCode_lt s) (by decide) (wfPattern_iff.1 h).1 (by decide) (pattern_lt h), none_taken rfl⟩
theorem bsPutq (s : StreamId) (q : SeqId) : Statement (.bsPutq s q) := fun _ =>
  ⟨fit (by decide) (streamCode_lt s) (seqCode_lt q) (by decide) (by decide) (by decide), none_taken rfl⟩
theorem bsRdb (s : StreamId) (n : Nat) : Statement (.bsRdb s n) := fun h =>
  ⟨fit (by decide) (streamCode_lt s) (by decide) (wfWidth_iff.1 h) (by decide) (by decide), none_taken rfl⟩
theorem bsPkb (s : StreamId) (n : Nat) : Statement (.bsPkb s n) := fun h =>
  ⟨fit (by decide) (streamCode_lt s) (by decide) (wfWidth_iff.1 h) (by decide) (by decide), none_taken rfl⟩
theorem bsRd (s : StreamId) : Statement (.bsRd s) := fun _ => ⟨of_selector (by decide) (streamCode_lt s), none_taken rfl⟩
theorem bsPk (s : StreamId) : Statement (.bsPk s) := fun _ => ⟨of_selector (by decide) (streamCode_lt s), none_taken rfl⟩
theorem bsSeek (s : StreamId) (i : BitVec 32) (k : Fin 8) : Statement (.bsSeek s i k) := fun _ =>
  ⟨fit (by decide) (streamCode_lt s) (by decide) (by decide) k.isLt i.isLt, none_taken rfl⟩
theorem bsAtend (s : StreamId) : Statement (.bsAtend s) := fun _ => ⟨of_selector (by decide) (streamCode_lt s), none_taken rfl⟩
theorem bsTell (s : StreamId) : Statement (.bsTell s) := fun _ => ⟨of_selector (by decide) (streamCode_lt s), none_taken rfl⟩
theorem bsLen (s : StreamId) : Statement (.bsLen s) := fun _ => ⟨of_selector (by decide) (streamCode_lt s), none_taken rfl⟩
theorem bsDump (s : StreamId) : Statement (.bsDump s) := fun _ => ⟨of_selector (by decide) (streamCode_lt s), none_taken rfl⟩
theorem qClr (a : SeqId) : Statement (.qClr a) := fun _ => ⟨of_selector (by decide) (seqCode_lt a), none_taken rfl⟩
theorem qAdd1 (a : SeqId) (bit : Bool) : Statement (.qAdd1 a bit) := fun _ =>
  ⟨fit (by decide) (seqCode_lt a) (by decide) (by decide) (by decide) (by cases bit <;> decide), none_taken rfl⟩
theorem qAddn (a : SeqId) (n p : Nat) : Statement (.qAddn a n p) := fun h =>
  ⟨fit (by decide) (seqCode_lt a) (by decide) (wfPattern_iff.1 h).1 (by decide) (pattern_lt h), none_taken rfl⟩
theorem qAddq (a b : SeqId) : Statement (.qAddq a b) := fun _ =>
  ⟨fit (by decide) (seqCode_lt a) (seqCode_lt b) (by decide) (by decide) (by decide), none_taken rfl⟩
theorem qUint (a : SeqId) : Statement (.qUint a) := fun _ => ⟨of_selector (by decide) (seqCode_lt a), none_taken rfl⟩
theorem qHash (a : SeqId) : Statement (.qHash a) := fun _ => ⟨of_selector (by decide) (seqCode_lt a), none_taken rfl⟩
theorem qLen (a : SeqId) : Statement (.qLen a) := fun _ => ⟨of_selector (by decide) (seqCode_lt a), none_taken rfl⟩
theorem hufEnc : Statement .hufEnc := fun _ => ⟨of_selector (by decide) (by decide), none_taken rfl⟩
theorem hufDec : Statement .hufDec := fun _ => ⟨of_selector (by decide) (by decide), none_taken rfl⟩

/-- Fields of a pair (S, L). -/
theorem of_pair {opcode short long : Nat} (ho : opcode < 2 ^ 8) (h : wfPair short long = true) :
    Fields.Fit { opcodeOnly opcode with imm := long * 2 ^ 8 + short } := by
  obtain ⟨h1, h2, rfl⟩ := wfPair_iff.1 h
  exact fit (a := 0) (b := 0) (n := 0) (k := 0) ho (by decide) (by decide) (by decide) (by decide) (by omega)

/-- Fields of an algorithm identifier. -/
theorem of_alg {opcode alg : Nat} (ho : opcode < 2 ^ 8) (h : wfAlg alg = true) :
    Fields.Fit { opcodeOnly opcode with imm := alg } :=
  fit (a := 0) (b := 0) (n := 0) (k := 0) ho (by decide) (by decide) (by decide) (by decide)
    (Nat.lt_of_le_of_lt (wfAlg_iff.1 h) (by decide))

theorem recEnc (short long : Nat) : Statement (.recEnc short long) := fun h => ⟨of_pair (by decide) h, none_taken rfl⟩
theorem recDec (short long : Nat) : Statement (.recDec short long) := fun h => ⟨of_pair (by decide) h, none_taken rfl⟩
theorem drvComp (alg : Nat) (p : List Byte) : Statement (.drvComp alg p) := fun h =>
  ⟨of_alg (by decide) h, fun _ => .inr (.inl rfl)⟩
theorem drvDecomp (alg : Nat) (p : List Byte) : Statement (.drvDecomp alg p) := fun h =>
  ⟨of_alg (by decide) h, fun _ => .inr (.inr rfl)⟩

/-- The case split over the constructors. -/
theorem all (i : Instr) : Statement i := by
  cases i
  exacts [bsNew _, bsLoad _ _, bsPut _ _, bsPutf _ _, bsPutb _ _ _, bsPutq _ _, bsRdb _ _, bsPkb _ _, bsRd _, bsPk _,
    bsSeek _ _ _, bsAtend _, bsTell _, bsLen _, bsDump _, qClr _, qAdd1 _ _, qAddn _ _ _, qAddq _ _, qUint _, qHash _,
    qLen _, hufEnc, hufDec, recEnc _ _, recDec _ _, drvComp _ _, drvDecomp _ _]

end Sys2Proof.Laws.FieldsFit
end

