-- ==== Sys2Proof/Laws/Encoding.lean ====
section
/-! SUPPORT. Fields and words (`30_encoding.md` R71): each determines the other. -/

namespace Sys2Proof

/-- A word holds the fields it was made of. -/
theorem fieldsOf_wordOf {f : Fields} (h : f.Fit) : fieldsOf (wordOf f) = f := by
  obtain ⟨o, a, b, n, k, z, i⟩ := f
  obtain ⟨h1, h2, h3, h4, h5, h6, h7⟩ := h
  simp only at h1 h2 h3 h4 h5 h6 h7
  simp only [fieldsOf, slice, wordOf, BitVec.toNat_ofNat, Fields.mk.injEq]
  refine ⟨?_, ?_, ?_, ?_, ?_, ?_, ?_⟩ <;> omega

/-- A word is made of its fields. -/
theorem wordOf_fieldsOf (w : CmdWord) : wordOf (fieldsOf w) = w := by
  apply BitVec.eq_of_toNat_eq
  have := w.isLt
  simp only [wordOf, fieldsOf, slice, BitVec.toNat_ofNat]
  omega

/-- The fields of an encoded well-formed command. -/
theorem fieldsOf_encode {i : Instr} (h : i.wf = true) : fieldsOf (encode i).word = i.fields :=
  fieldsOf_wordOf (Laws.FieldsFit.all i h).1

theorem streamSel_code (x : StreamId) : streamSel x.code = .ok x := by cases x <;> rfl
theorem seqSel_code (a : SeqId) : seqSel a.code = .ok a := by cases a <;> rfl

theorem streamSel_ok {n : Nat} {x : StreamId} (h : streamSel n = .ok x) : n = x.code := by
  match n, h with
  | 0, h => cases h; rfl
  | 1, h => cases h; rfl
  | n + 2, h => cases h

theorem seqSel_ok {n : Nat} {a : SeqId} (h : seqSel n = .ok a) : n = a.code := by
  match n, h with
  | 0, h => cases h; rfl
  | 1, h => cases h; rfl
  | n + 2, h => cases h

/-! ### What each form accepts (R72, R73) -/

section forms
variable {f : Fields} {i : Instr}

theorem map_ok_iff {α β : Type} {r : Except Illegal α} {g : α → β} {b : β} : r.map g = .ok b ↔ ∃ a, r = .ok a ∧ g a = b := by
  cases r with
  | error e => exact ⟨nofun, nofun⟩
  | ok a => exact ⟨fun h => ⟨a, rfl, Except.ok.inj h⟩, fun ⟨a', h, h'⟩ => by cases h; exact congrArg _ h'⟩

theorem ite_ok_iff {c : Prop} [Decidable c] {r : Except Illegal Instr} {e : Illegal} :
    (if c then r else .error e) = .ok i ↔ c ∧ r = .ok i := by
  split
  · next h => exact ⟨fun h' => ⟨h, h'⟩, fun h' => h'.2⟩
  · next h => exact ⟨nofun, fun h' => absurd h'.1 h⟩

theorem streamSel_iff {n : Nat} {x : StreamId} : streamSel n = .ok x ↔ n = x.code :=
  ⟨streamSel_ok, fun h => h ▸ streamSel_code x⟩

theorem seqSel_iff {n : Nat} {a : SeqId} : seqSel n = .ok a ↔ n = a.code :=
  ⟨seqSel_ok, fun h => h ▸ seqSel_code a⟩

theorem noPayload_ok {payload : List Byte} {r : Except Illegal Instr} :
    noPayload payload r = .ok i ↔ payload = [] ∧ r = .ok i := ite_ok_iff

theorem formF0_ok {j : Instr} : formF0 f j = .ok i ↔ (f.a = 0 ∧ f.b = 0 ∧ f.n = 0 ∧ f.k = 0 ∧ f.imm = 0) ∧ j = i := by
  rw [formF0, ite_ok_iff, Except.ok.injEq]

theorem formFS_ok {mk : StreamId → Instr} :
    formFS f mk = .ok i ↔ (f.b = 0 ∧ f.n = 0 ∧ f.k = 0 ∧ f.imm = 0) ∧ ∃ x, f.a = StreamId.code x ∧ mk x = i := by
  simp only [formFS, ite_ok_iff, map_ok_iff, streamSel_iff]

theorem formFSB_ok {mk : StreamId → Byte → Instr} :
    formFSB f mk = .ok i ↔ (f.b = 0 ∧ f.n = 0 ∧ f.k = 0) ∧ f.imm < 2 ^ 8 ∧
      ∃ x, f.a = StreamId.code x ∧ mk x (BitVec.ofNat 8 f.imm) = i := by
  simp only [formFSB, ite_ok_iff, map_ok_iff, streamSel_iff]

theorem formFSN_ok {mk : StreamId → Nat → Instr} :
    formFSN f mk = .ok i ↔ (f.b = 0 ∧ f.k = 0 ∧ f.imm = 0) ∧ wfWidth f.n = true ∧
      ∃ x, f.a = StreamId.code x ∧ mk x f.n = i := by
  simp only [formFSN, ite_ok_iff, map_ok_iff, streamSel_iff]

theorem formFSNP_ok {mk : StreamId → Nat → Nat → Instr} :
    formFSNP f mk = .ok i ↔ (f.b = 0 ∧ f.k = 0) ∧ wfWidth f.n = true ∧ wfPattern f.n f.imm = true ∧
      ∃ x, f.a = StreamId.code x ∧ mk x f.n f.imm = i := by
  simp only [formFSNP, ite_ok_iff, map_ok_iff, streamSel_iff]

theorem formFSK_ok {mk : StreamId → BitVec 32 → Fin 8 → Instr} :
    formFSK f mk = .ok i ↔ (f.b = 0 ∧ f.n = 0) ∧
      ∃ x, f.a = StreamId.code x ∧ mk x (BitVec.ofNat 32 f.imm) (Fin.ofNat 8 f.k) = i := by
  simp only [formFSK, ite_ok_iff, map_ok_iff, streamSel_iff]

theorem formFQ_ok {mk : SeqId → Instr} :
    formFQ f mk = .ok i ↔ (f.b = 0 ∧ f.n = 0 ∧ f.k = 0 ∧ f.imm = 0) ∧ ∃ a, f.a = SeqId.code a ∧ mk a = i := by
  simp only [formFQ, ite_ok_iff, map_ok_iff, seqSel_iff]

theorem formFQ1_ok {mk : SeqId → Bool → Instr} :
    formFQ1 f mk = .ok i ↔ (f.b = 0 ∧ f.n = 0 ∧ f.k = 0) ∧ f.imm < 2 ∧
      ∃ a, f.a = SeqId.code a ∧ mk a (f.imm == 1) = i := by
  simp only [formFQ1, ite_ok_iff, map_ok_iff, seqSel_iff]

theorem formFQNP_ok {mk : SeqId → Nat → Nat → Instr} :
    formFQNP f mk = .ok i ↔ (f.b = 0 ∧ f.k = 0) ∧ wfWidth f.n = true ∧ wfPattern f.n f.imm = true ∧
      ∃ a, f.a = SeqId.code a ∧ mk a f.n f.imm = i := by
  simp only [formFQNP, ite_ok_iff, map_ok_iff, seqSel_iff]

theorem formFSQ_ok {mk : StreamId → SeqId → Instr} :
    formFSQ f mk = .ok i ↔ (f.n = 0 ∧ f.k = 0 ∧ f.imm = 0) ∧
      ∃ x q, f.a = StreamId.code x ∧ f.b = SeqId.code q ∧ mk x q = i := by
  rw [formFSQ, ite_ok_iff]
  refine and_congr_right fun _ => ?_
  split
  · next x q hx hq =>
    rw [streamSel_iff] at hx; rw [seqSel_iff] at hq
    rw [Except.ok.injEq]
    refine ⟨fun h => ⟨x, q, hx, hq, h⟩, fun ⟨x', q', hx', hq', h⟩ => ?_⟩
    have e1 : x = x' := by rw [hx] at hx'; cases x <;> cases x' <;> first | rfl | exact absurd hx' (by decide)
    have e2 : q = q' := by rw [hq] at hq'; cases q <;> cases q' <;> first | rfl | exact absurd hq' (by decide)
    rw [e1, e2]; exact h
  · next hno =>
    refine ⟨nofun, fun ⟨x, q, hx, hq, _⟩ => ?_⟩
    exact absurd (seqSel_iff.2 hq) (hno x q (streamSel_iff.2 hx))

theorem formFQQ_ok {mk : SeqId → SeqId → Instr} :
    formFQQ f mk = .ok i ↔ (f.n = 0 ∧ f.k = 0 ∧ f.imm = 0) ∧
      ∃ a b, f.a = SeqId.code a ∧ f.b = SeqId.code b ∧ mk a b = i := by
  rw [formFQQ, ite_ok_iff]
  refine and_congr_right fun _ => ?_
  split
  · next x q hx hq =>
    rw [seqSel_iff] at hx hq
    rw [Except.ok.injEq]
    refine ⟨fun h => ⟨x, q, hx, hq, h⟩, fun ⟨x', q', hx', hq', h⟩ => ?_⟩
    have e1 : x = x' := by rw [hx] at hx'; cases x <;> cases x' <;> first | rfl | exact absurd hx' (by decide)
    have e2 : q = q' := by rw [hq] at hq'; cases q <;> cases q' <;> first | rfl | exact absurd hq' (by decide)
    rw [e1, e2]; exact h
  · next hno =>
    refine ⟨nofun, fun ⟨x, q, hx, hq, _⟩ => ?_⟩
    exact absurd (seqSel_iff.2 hq) (hno x q (seqSel_iff.2 hx))

theorem formFSL_ok {mk : Nat → Nat → Instr} :
    formFSL f mk = .ok i ↔ (f.a = 0 ∧ f.b = 0 ∧ f.n = 0 ∧ f.k = 0) ∧ f.imm < 2 ^ 16 ∧
      wfPair (f.imm % 2 ^ 8) (f.imm / 2 ^ 8) = true ∧ mk (f.imm % 2 ^ 8) (f.imm / 2 ^ 8) = i := by
  simp only [formFSL, ite_ok_iff, Except.ok.injEq]

theorem formFALG_ok {mk : Nat → Instr} :
    formFALG f mk = .ok i ↔ (f.a = 0 ∧ f.b = 0 ∧ f.n = 0 ∧ f.k = 0) ∧ f.imm < 2 ^ 8 ∧ wfAlg f.imm = true ∧ mk f.imm = i := by
  simp only [formFALG, ite_ok_iff, Except.ok.injEq]

end forms

/-- What `decode` accepts: the field `zero` is 0 and the fields and payload are a command's. -/
theorem decode_ok {c : Command} {i : Instr} :
    decode c = .ok i ↔ (fieldsOf c.word).zero = 0 ∧ decodeFields (fieldsOf c.word) c.payload = .ok i := ite_ok_iff

/-! ### The rows of `opcode_table.json` -/

theorem slice_and (v w : CmdWord) (hi lo : Nat) : slice (v &&& w) hi lo = slice v hi lo &&& slice w hi lo := by
  simp [slice, Nat.and_div_two_pow, Nat.and_mod_two_pow]

/-- A word selects a row when each of its fields, under that field of the mask, is that field of the pattern. -/
theorem selects_iff {r : OpRow} {w : CmdWord} {f m p : Fields} (hf : fieldsOf w = f) (hm : fieldsOf r.mask = m)
    (hp : fieldsOf r.pattern = p) : r.selects w = true ↔
      f.opcode &&& m.opcode = p.opcode ∧ f.a &&& m.a = p.a ∧ f.b &&& m.b = p.b ∧ f.n &&& m.n = p.n ∧
      f.k &&& m.k = p.k ∧ f.zero &&& m.zero = p.zero ∧ f.imm &&& m.imm = p.imm := by
  subst hf hm hp
  have h : ∀ v w : CmdWord, v = w ↔ fieldsOf v = fieldsOf w :=
    fun v w => ⟨congrArg _, fun h => by rw [← wordOf_fieldsOf v, h, wordOf_fieldsOf]⟩
  rw [OpRow.selects, beq_iff_eq, h]
  simp only [fieldsOf, slice_and, Fields.mk.injEq]

/-- The fields of a word fit. -/
theorem fieldsOf_fit (w : CmdWord) : (fieldsOf w).opcode < 256 ∧ (fieldsOf w).a < 4 ∧ (fieldsOf w).b < 4 ∧
    (fieldsOf w).n < 64 ∧ (fieldsOf w).k < 8 ∧ (fieldsOf w).zero < 2048 ∧ (fieldsOf w).imm < 2 ^ 32 :=
  ⟨Nat.mod_lt _ (by decide), Nat.mod_lt _ (by decide), Nat.mod_lt _ (by decide), Nat.mod_lt _ (by decide),
    Nat.mod_lt _ (by decide), Nat.mod_lt _ (by decide), Nat.mod_lt _ (by decide)⟩

theorem and_full {n x : Nat} (h : x < 2 ^ n) : x &&& (2 ^ n - 1) = x := by
  rw [Nat.and_two_pow_sub_one_eq_mod, Nat.mod_eq_of_lt h]

/-- The high bits of a field are clear when the field is small. -/
theorem and_high {n k x : Nat} (hk : k ≤ n) (h : x < 2 ^ n) : x &&& (2 ^ n - 2 ^ k) = 0 ↔ x < 2 ^ k := by
  have e : 2 ^ n - 2 ^ k = 2 ^ k * (2 ^ (n - k) - 1) := by
    rw [Nat.mul_sub, Nat.mul_one, ← Nat.pow_add, Nat.add_sub_cancel' hk]
  have h2 : x / 2 ^ k < 2 ^ (n - k) := by
    rw [Nat.div_lt_iff_lt_mul (Nat.two_pow_pos k), ← Nat.pow_add, Nat.sub_add_cancel hk]; exact h
  have e2 : x &&& (2 ^ n - 2 ^ k) = 2 ^ k * (x / 2 ^ k) := by
    apply Nat.eq_of_testBit_eq
    intro j
    rw [Nat.testBit_and, e, Nat.testBit_two_pow_mul, Nat.testBit_two_pow_mul, Nat.testBit_div_two_pow]
    by_cases hj : k ≤ j
    · simp only [hj, decide_true, Bool.true_and, Nat.sub_add_cancel hj, Nat.testBit_two_pow_sub_one]
      by_cases hn : j < n
      · simp; omega
      · rw [Nat.testBit_lt_two_pow (lt_of_lt_of_le h (Nat.pow_le_pow_right (by decide) (Nat.le_of_not_lt hn)))]; rfl
    · simp [hj]
  rw [e2]
  have := Nat.two_pow_pos k
  constructor
  · intro h0
    have := Nat.mul_eq_zero.1 h0
    have h3 : x / 2 ^ k = 0 := by omega
    exact (Nat.div_eq_zero_iff_lt (Nat.two_pow_pos k)).1 h3
  · intro h0; rw [Nat.div_eq_of_lt h0]; rfl

end Sys2Proof
end

