-- ==== Sys2Proof/Laws/Step.lean ====
section
/-! SUPPORT. Everything `exec` can do, said once. -/

namespace Sys2Proof.Machine

variable {cfg : Config}

/-! ### Free values stay inside the limits of R23 and R36 -/

theorem freeInIndex_le (n len : Nat) : freeInIndex n len ≤ len := by
  unfold freeInIndex
  split
  · have := Nat.mod_lt (Config.freeIndex n) (y := len + 1) (by omega); omega
  · have := Nat.mod_lt (Config.freeIndex n) (y := len) (by omega); omega

theorem freeOutBuf_fits (cfg : Config) (n : Nat) : cfg.bufFits (freeOutBuf cfg n).length = true := by
  unfold freeOutBuf Config.bufFits Config.within
  split <;> simp_all

theorem afterFalse_in_ok {s : State} (h : s.s0.Ok s.cfg) : s.afterFalse.s0.Ok s.cfg :=
  ⟨freeInIndex_le _ _, h.fits⟩

theorem afterFalse_out_ok (s : State) : s.afterFalse.s1.Ok s.cfg := by
  refine ⟨?_, freeOutBuf_fits _ _⟩
  show Config.freeIndex (s.freeCount + 1) % ((freeOutBuf s.cfg s.freeCount).length + 1) ≤
    (freeOutBuf s.cfg s.freeCount).length
  have := Nat.mod_lt (Config.freeIndex (s.freeCount + 1)) (y := (freeOutBuf s.cfg s.freeCount).length + 1) (by omega)
  omega

/-! ### The codecs and the driver from sound streams -/

theorem wfPair_bounds {short long : Nat} (h : wfPair short long = true) :
    2 ≤ short ∧ short ≤ 7 ∧ long = short + 8 := by
  simp [wfPair, Config.pairs] at h
  omega

theorem fresh_ok {m : Memory} (h : cfg.bufFits m.length = true) : (Stream.fresh m).Ok cfg :=
  ⟨by simp [Stream.fresh], h⟩

/-- Both streams of a codec's result are sound. -/
def PairOk (cfg : Config) (p : Stream × Stream) : Prop := p.1.Ok cfg ∧ p.2.Ok cfg

theorem Decoded.pairOk {m : Memory} {e : Nat} {p : Stream × Stream} (h : Decoded cfg m e p)
    (hm : cfg.bufFits m.length = true) : PairOk cfg p := by
  refine ⟨.of_pos ?_ (by rw [h.inBuf]; exact hm), .of_pos (by rw [h.outPos]) h.outFits⟩
  rw [h.inPos, h.inBuf]; exact h.inside

theorem atPos_end_ok {m : Memory} (h : cfg.bufFits m.length = true) : (Stream.atPos m (8 * m.length)).Ok cfg :=
  .of_pos (by simp) h

theorem zero_fits {n : Nat} (h : cfg.bufFits n = true) : cfg.bufFits 0 = true := bufFits_mono h (Nat.zero_le n)

/-- What a codec step can do from fresh streams: an encoder answers `true`. -/
theorem codecStep_answers {m : Memory} (h : cfg.bufFits m.length = true) (alg : Algorithm) (dir : Direction)
    (ha : ∀ short long, alg = .ranked short long → 0 < short ∧ short ≤ long) :
    Answers [.capacity] (fun r => (dir = .compress → r.isSome = true) ∧ ∀ p, r = some p → PairOk cfg p)
      (codecStep cfg alg dir (Stream.fresh m) Stream.empty) := by
  have hz := zero_fits h
  have henc : ∀ bits : List Bool, 3 ≤ bits.length →
      Answers [.capacity] (fun r => (dir = .compress → r.isSome = true) ∧ ∀ p, r = some p → PairOk cfg p)
        (do
          let o ← Stream.empty.writeBits cfg bits
          let o ← patchHeader cfg o
          return some (Stream.atPos m (8 * m.length), o)) := by
    intro bits h3
    rw [← bind_assoc]
    refine (encode_answers h3 hz).bind fun o ho => ⟨fun _ => rfl, fun p hp => ?_⟩
    cases hp; exact ⟨atPos_end_ok h, ho.1⟩
  cases alg with
  | identity =>
    rw [codecStep, identityStep_eq]
    refine (writeBits_answers ⟨by simp [Stream.empty], hz⟩ (by simp)).bind fun o ho => ⟨fun _ => rfl, fun p hp => ?_⟩
    cases hp; exact ⟨atPos_end_ok h, ho.2⟩
  | huffman =>
    cases dir with
    | compress => rw [codecStep, hufEncode_eq]; exact henc _ (three_le_hufBits 0 m)
    | decompress =>
      rw [codecStep]
      exact (hufDecode_answers hz m).imp fun r hr => ⟨nofun, fun p hp => (hr p hp).pairOk h⟩
  | ranked short long =>
    obtain ⟨hs, hl⟩ := ha _ _ rfl
    cases dir with
    | compress => rw [codecStep, recEncode_eq]; exact henc _ (three_le_recBits 0 short long m)
    | decompress =>
      rw [codecStep]
      exact (recDecode_answers hs hl hz m).imp fun r hr => ⟨nofun, fun p hp => (hr p hp).pairOk h⟩

theorem algorithmOf_ranked {alg short long : Nat} (h : algorithmOf alg = .ranked short long) :
    short = alg ∧ long = alg + 8 ∧ 2 ≤ alg := by
  unfold algorithmOf at h
  split at h
  · cases h
  · cases h
  · cases h; refine ⟨rfl, rfl, ?_⟩; rename_i h0 h1; simp at h0 h1; omega

/-- Everything the driver's streams can be (R230, R235): an encoder never ends in `DRIVER_ASSERT`. -/
theorem driveStreams_answers (cfg : Config) (alg : Nat) (dir : Direction) (bytes : List Byte) :
    Answers [.capacity, .driverAssert] (PairOk cfg) (driveStreams cfg (algorithmOf alg) dir bytes) := by
  rw [driveStreams, Stream.load]
  split
  · next h =>
    refine ((codecStep_answers h (algorithmOf alg) dir (fun s l hs => ?_)).causes (by simp)).bind fun r hr => ?_
    · obtain ⟨rfl, rfl, h2⟩ := algorithmOf_ranked hs; omega
    · cases r with
      | none => simp [Answers, throw, throwThe, MonadExceptOf.throw]
      | some p => exact hr.2 p rfl
  · simp [Answers, bind, Except.bind]

/-! ### The inversion lemma of `exec` -/

/-- What a completed command may have changed when it makes its response: data, kept sound. -/
structure Completed (s s' : State) : Prop where
  fatal     : s'.fatal = false
  cause     : s'.cause = s.cause
  cfg       : s'.cfg = s.cfg
  pending   : s'.pending = s.pending
  responses : s'.responses = s.responses
  streams   : ∀ x, (s'.stream x).Ok s.cfg
  seqs      : ∀ a, s.cfg.seqFits (s'.seq a).length = true

/-- The four things a command can do. -/
inductive Effect (s : State) : State → Prop where
  /-- a fatal fault came earlier (R244) -/
  | latched : s.fatal = true → Effect s (s.respond s.faultResponse)
  /-- a fatal fault that changes nothing else -/
  | kept (c : Cause) : s.fatal = false → c.code ∈ latchedCodes → Effect s (s.raise c)
  /-- a fatal fault after which the data is unspecified (R243) -/
  | scrambled (c : Cause) : s.fatal = false → c.code ∈ latchedCodes → Effect s (s.raiseScrambled c)
  /-- completion -/
  | completed (s' : State) (v : Nat) (p : List Byte) : s.fatal = false → Completed s s' → Effect s (s'.complete v p)

/-- What the data of a block without a fault must satisfy for a command to answer. -/
structure DataOk (s : State) : Prop where
  streams : ∀ x, (s.stream x).Ok s.cfg
  seqs    : ∀ a, s.cfg.seqFits (s.seq a).length = true

theorem Inv.dataOk {s : State} (h : Inv s) (hf : s.fatal = false) : DataOk s := ⟨h.streams hf, h.seqs hf⟩

section effects
variable {s : State}

theorem DataOk.completed (h : DataOk s) (hf : s.fatal = false) : Completed s s :=
  ⟨hf, rfl, rfl, rfl, rfl, h.streams, h.seqs⟩

theorem DataOk.completed_setStream (h : DataOk s) (hf : s.fatal = false) {x : StreamId} {t : Stream}
    (ht : t.Ok s.cfg) : Completed s (s.setStream x t) := by
  refine ⟨by simpa using hf, by simp, by simp, by simp, by simp, fun y => ?_, fun a => ?_⟩
  · by_cases hy : y = x
    · subst hy; simpa using ht
    · rw [setStream_stream_other _ _ _ _ hy]; exact h.streams y
  · rw [setStream_seq]; exact h.seqs a

theorem DataOk.completed_setSeq (h : DataOk s) (hf : s.fatal = false) {a : SeqId} {q : Seq}
    (hq : s.cfg.seqFits q.length = true) : Completed s (s.setSeq a q) := by
  refine ⟨by simpa using hf, by simp, by simp, by simp, by simp, fun y => ?_, fun b => ?_⟩
  · rw [setSeq_stream]; exact h.streams y
  · by_cases hb : b = a
    · subst hb; simpa using hq
    · rw [setSeq_seq_other _ _ _ _ hb]; exact h.seqs b

theorem DataOk.completed_setStreams (h : DataOk s) (hf : s.fatal = false) {p : Stream × Stream}
    (hp : PairOk s.cfg p) : Completed s (s.setStreams p) :=
  ⟨hf, rfl, rfl, rfl, rfl, forall_stream.2 hp, fun a => by cases a; exacts [h.seqs .q0, h.seqs .q1]⟩

theorem DataOk.completed_afterFalse (h : DataOk s) (hf : s.fatal = false) : Completed s s.afterFalse :=
  ⟨hf, rfl, rfl, rfl, rfl, forall_stream.2 ⟨afterFalse_in_ok (h.streams .s0), afterFalse_out_ok s⟩,
    fun a => by rw [afterFalse_seq]; exact h.seqs a⟩

/-- A command that passes the latch and the legality check does what its body does. -/
theorem begin_effect {legal : Bool} {body : Host.Outcome State Fault Refusal}
    (h : s.fatal = false → legal = true → ∃ t, body = .next t ∧ Effect s t) :
    ∃ t, begin legal s body = .next t ∧ Effect s t := by
  obtain ⟨hf, he⟩ | ⟨hf, hl, he⟩ | ⟨hf, -, he⟩ := begin_cases legal s body
  · exact ⟨_, he, .latched hf⟩
  · rw [he]; exact h hf hl
  · exact ⟨_, he, .kept .illegalCommand hf (by decide)⟩

/-- Pseudocode that faults with a state of R243. -/
theorem finish_effect_scrambled {α : Type} {cs : List Cause} {P : α → Prop} {r : Except Stop α}
    (hf : s.fatal = false) (h : Answers cs P r) (hcs : ∀ c ∈ cs, c.code ∈ latchedCodes) {f : α → State}
    (hP : ∀ a, P a → Effect s (f a)) : ∃ t, finish r s.raiseScrambled f = .next t ∧ Effect s t := by
  obtain ⟨a, ha, -, he⟩ | ⟨c, hc, -, he⟩ := finish_cases h s.raiseScrambled f
  · exact ⟨_, he, hP a ha⟩
  · exact ⟨_, he, .scrambled c hf (hcs c hc)⟩

/-- Pseudocode that faults before it changes anything. -/
theorem finish_effect_kept {α : Type} {cs : List Cause} {P : α → Prop} {r : Except Stop α}
    (hf : s.fatal = false) (h : Answers cs P r) (hcs : ∀ c ∈ cs, c.code ∈ latchedCodes) {f : α → State}
    (hP : ∀ a, P a → Effect s (f a)) : ∃ t, finish r s.raise f = .next t ∧ Effect s t := by
  obtain ⟨a, ha, -, he⟩ | ⟨c, hc, -, he⟩ := finish_cases h s.raise f
  · exact ⟨_, he, hP a ha⟩
  · exact ⟨_, he, .kept c hf (hcs c hc)⟩

/-- A codec command. -/
theorem runCodec_effect {r : CodecResult} (h : DataOk s) (hf : s.fatal = false)
    (hr : s.codecReady = true → Answers [.capacity] (fun r => ∀ p, r = some p → PairOk s.cfg p) r) :
    ∃ t, runCodec s r = .next t ∧ Effect s t := by
  obtain ⟨-, he⟩ | ⟨-, p, hp, he⟩ | ⟨-, -, he⟩ | ⟨-, c, hc, he⟩ := runCodec_cases hr
  · exact ⟨_, he, .kept .codecPrecond hf (by decide)⟩
  · exact ⟨_, he, .completed _ 1 [] hf (h.completed_setStreams hf (hp p rfl))⟩
  · exact ⟨_, he, .completed _ 0 [] hf (h.completed_afterFalse hf)⟩
  · refine ⟨_, he, .scrambled c hf ?_⟩
    rw [List.mem_singleton.1 hc]; decide

theorem appendSeq_effect (h : DataOk s) (hf : s.fatal = false) (a : SeqId) (bits : Seq) :
    ∃ t, appendSeq a bits s = .next t ∧ Effect s t := by
  unfold appendSeq
  split
  · next hc => exact ⟨_, rfl, .completed _ 0 [] hf (h.completed_setSeq hf (by simpa using hc))⟩
  · exact ⟨_, rfl, .kept .capacity hf (by decide)⟩

theorem codecStep_of_ready {s : State} (h : DataOk s) (hr : s.codecReady = true) (alg : Algorithm) (dir : Direction)
    (ha : ∀ short long, alg = .ranked short long → 0 < short ∧ short ≤ long) :
    Answers [.capacity] (fun r => ∀ p, r = some p → PairOk s.cfg p) (codecStep s.cfg alg dir s.s0 s.s1) := by
  obtain ⟨h0, h1⟩ := codecReady_iff.1 hr
  rw [h0, h1]
  exact (codecStep_answers (h.streams .s0).fits alg dir ha).imp fun r hr => hr.2

end effects

/-- A legal cause. -/
theorem latched_of_mem {c : Cause} (h : c ≠ .codecInvariant) : c.code ∈ latchedCodes := by
  cases c <;> first | decide | exact absurd rfl h

/-- Every command answers a next state by one of the four effects, when the data is sound while no fault is set. -/
theorem exec_effect {s : State} (h : s.fatal = false → DataOk s) (i : Instr) :
    ∃ t, exec i s = .next t ∧ Effect s t := by
  have hw : ∀ x bits, s.fatal = false →
      ∃ t, finishWrite x s ((s.stream x).writeBits s.cfg bits) = .next t ∧ Effect s t := by
    intro x bits hf
    exact finish_effect_scrambled hf (writeBits_answers_any ((h hf).streams x)) (by simp; decide)
      fun u hu => .completed _ 0 [] hf ((h hf).completed_setStream hf hu)
  have hread : ∀ x n, s.fatal = false →
      Answers [.readPastEnd] (fun r => r.2.Ok s.cfg) ((s.stream x).readBits n) := by
    intro x n hf
    refine (takeBits_answers n (s.stream x)).map fun r hr => ?_
    obtain ⟨hn, -, h2⟩ := hr
    have hok := (h hf).streams x
    show r.2.Ok s.cfg
    rw [h2]
    rcases hn with rfl | hn
    · rw [Nat.add_zero, atPos_self]; exact hok
    · exact .of_pos (by simpa using hn) hok.fits
  have hdone : ∀ v p, s.fatal = false → ∃ t, (.next (s.complete v p) : Host.Outcome State Fault Refusal) = .next t ∧ Effect s t :=
    fun v p hf => ⟨_, rfl, .completed s v p hf ((h hf).completed hf)⟩
  cases i with
  | bsNew x =>
    refine begin_effect fun hf _ => ⟨_, rfl, .completed _ 0 [] hf ((h hf).completed_setStream hf ?_)⟩
    exact ⟨by simp [Stream.empty], zero_fits ((h hf).streams x).fits⟩
  | bsLoad x payload =>
    refine begin_effect fun hf _ => ?_
    refine finish_effect_scrambled (cs := [.capacity]) (P := fun t => t.Ok s.cfg) hf ?_ (by simp; decide)
      fun t ht => .completed _ 0 [] hf ((h hf).completed_setStream hf ht)
    unfold Stream.load
    split
    · next hp => exact fresh_ok hp
    · simp
  | bsPut x v => exact begin_effect fun hf _ => by rw [put_eq]; exact hw x _ hf
  | bsPutf x v =>
    refine begin_effect fun hf _ => ?_
    refine finish_effect_kept (cs := [.putfastPrecond]) (P := fun t => t.Ok s.cfg) hf ?_ (by simp; decide)
      fun t ht => .completed _ 0 [] hf ((h hf).completed_setStream hf ht)
    by_cases hp : (s.stream x).bi < (s.stream x).buf.length ∧ (s.stream x).bo = 0
    · rw [putFast_ok hp.1 hp.2]
      exact ⟨by simp; omega, by simpa using ((h hf).streams x).fits⟩
    · rw [putFast_fault hp]; simp
  | bsPutb x n p => exact begin_effect fun hf _ => hw x _ hf
  | bsPutq x q => exact begin_effect fun hf _ => hw x _ hf
  | bsRdb x n =>
    exact begin_effect fun hf _ => finish_effect_scrambled hf (hread x n hf) (by simp; decide)
      fun r hr => .completed _ _ [] hf ((h hf).completed_setStream hf hr)
  | bsPkb x n =>
    exact begin_effect fun hf _ => finish_effect_kept hf ((hread x n hf).map (R := fun _ => True) fun _ _ => trivial)
      (by simp; decide) fun r _ => .completed _ _ [] hf ((h hf).completed hf)
  | bsRd x =>
    refine begin_effect fun hf _ => ?_
    rw [readByte_eq]
    exact finish_effect_scrambled hf ((hread x 8 hf).map (R := fun r => r.2.Ok s.cfg) fun _ hr => hr)
      (by simp; decide) fun r hr => .completed _ _ [] hf ((h hf).completed_setStream hf hr)
  | bsPk x =>
    refine begin_effect fun hf _ => ?_
    rw [peekByte_eq]
    exact finish_effect_kept hf
      (((hread x 8 hf).map (R := fun _ => True) fun _ _ => trivial).map (R := fun _ => True) fun _ _ => trivial)
      (by simp; decide) fun r _ => .completed _ _ [] hf ((h hf).completed hf)
  | bsSeek x i k =>
    refine begin_effect fun hf _ => ?_
    refine finish_effect_kept (cs := [.seekRange]) (P := fun t => t.Ok s.cfg) hf ?_ (by simp; decide)
      fun t ht => .completed _ 0 [] hf ((h hf).completed_setStream hf ht)
    unfold Stream.seek
    split
    · simp
    · next hi => exact ⟨Nat.le_of_not_lt hi, ((h hf).streams x).fits⟩
  | bsAtend x => exact begin_effect fun hf _ => hdone _ _ hf
  | bsTell x => exact begin_effect fun hf _ => hdone _ _ hf
  | bsLen x => exact begin_effect fun hf _ => hdone _ _ hf
  | bsDump x => exact begin_effect fun hf _ => hdone _ _ hf
  | qClr a =>
    exact begin_effect fun hf _ => ⟨_, rfl, .completed _ 0 [] hf ((h hf).completed_setSeq hf
      (within_mono ((h hf).seqs a) (Nat.zero_le _)))⟩
  | qAdd1 a bit => exact begin_effect fun hf _ => appendSeq_effect (h hf) hf a _
  | qAddn a n p => exact begin_effect fun hf _ => appendSeq_effect (h hf) hf a _
  | qAddq a b => exact begin_effect fun hf _ => appendSeq_effect (h hf) hf a _
  | qUint a => exact begin_effect fun hf _ => hdone _ _ hf
  | qHash a => exact begin_effect fun hf _ => hdone _ _ hf
  | qLen a => exact begin_effect fun hf _ => hdone _ _ hf
  | hufEnc =>
    exact begin_effect fun hf _ => runCodec_effect (h hf) hf fun hr =>
      codecStep_of_ready (h hf) hr .huffman .compress (by simp)
  | hufDec =>
    exact begin_effect fun hf _ => runCodec_effect (h hf) hf fun hr =>
      codecStep_of_ready (h hf) hr .huffman .decompress (by simp)
  | recEnc short long =>
    refine begin_effect fun hf hl => runCodec_effect (h hf) hf fun hr =>
      codecStep_of_ready (h hf) hr (.ranked short long) .compress fun a b hab => ?_
    cases hab; have := wfPair_bounds hl; omega
  | recDec short long =>
    refine begin_effect fun hf hl => runCodec_effect (h hf) hf fun hr =>
      codecStep_of_ready (h hf) hr (.ranked short long) .decompress fun a b hab => ?_
    cases hab; have := wfPair_bounds hl; omega
  | drvComp alg payload =>
    exact begin_effect fun hf _ => finish_effect_scrambled hf (driveStreams_answers s.cfg alg .compress payload)
      (by simp; decide) fun p hp => .completed _ _ _ hf ((h hf).completed_setStreams hf hp)
  | drvDecomp alg payload =>
    exact begin_effect fun hf _ => finish_effect_scrambled hf (driveStreams_answers s.cfg alg .decompress payload)
      (by simp; decide) fun p hp => .completed _ _ _ hf ((h hf).completed_setStreams hf hp)

/-! ### Steps -/

theorem step_idle {s : State} (h : s.pending = []) : step s = .next s := by simp [step, h]

theorem step_reset {s : State} {rest : List HostEvent} (h : s.pending = .reset :: rest) :
    step s = .next s.dropEvent.assertReset := by simp [step, h]

theorem step_command {s : State} {c : Command} {rest : List HostEvent} (h : s.pending = .command c :: rest) :
    step s = runCommand c s.dropEvent := by simp [step, h]

/-- A run goes on from the state a step answers. -/
theorem core_run_succ (M : Host.Core) {n : Nat} {s u : M.State} (h : M.step s = .next u) : M.run (n + 1) s = M.run n u := by
  rw [Host.Core.run, h]

/-- A run of one step or more answers only through the state its first step answers. -/
theorem core_run_next (M : Host.Core) {n : Nat} {s t : M.State} (h : M.run (n + 1) s = .next t) :
    ∃ u, M.step s = .next u ∧ M.run n u = .next t := by
  rw [Host.Core.run] at h
  split at h
  · next u hs => exact ⟨u, hs, h⟩
  · cases h
  · cases h

theorem run_succ {n : Nat} {s u : State} (h : step s = .next u) :
    Host.Core.run Sys2Proof.core (n + 1) s = Host.Core.run Sys2Proof.core n u := core_run_succ Sys2Proof.core h

theorem run_succ_next {n : Nat} {s t : State} (h : Host.Core.run Sys2Proof.core (n + 1) s = .next t) :
    ∃ u, step s = .next u ∧ Host.Core.run Sys2Proof.core n u = .next t := core_run_next Sys2Proof.core h

theorem rejectCommand_fatal {s : State} (h : s.fatal = true) :
    rejectCommand s = .next (s.respond s.faultResponse) := begin_fatal h

theorem rejectCommand_clear {s : State} (h : s.fatal = false) :
    rejectCommand s = .next (s.raise .illegalCommand) := begin_illegal h

end Sys2Proof.Machine
end

