-- ==== Sys2Proof/Laws/Exec.lean ====
section
/-! SUPPORT. Everything `exec` can do in any state, sound or not, said once: the causes it can latch and what it keeps. -/

namespace Sys2Proof.Machine

variable {cfg : Config} {α β : Type}

/-! ### The causes a stopped operation can have -/

/-- `r` stops by no cause but those of `cs`. Of its value nothing is said. -/
def StopsBy (cs : List Cause) (r : Except Stop α) : Prop := ∀ c, r = .error (.fatal c) → c ∈ cs

theorem StopsBy.ok {cs : List Cause} {a : α} : StopsBy cs (.ok a : Except Stop α) := nofun

theorem StopsBy.bind {cs : List Cause} {r : Except Stop α} {f : α → Except Stop β} (h : StopsBy cs r)
    (hf : ∀ a, StopsBy cs (f a)) : StopsBy cs (r >>= f) := by
  rcases r with e | a
  · intro c hc; cases hc; exact h c rfl
  · exact hf a

theorem StopsBy.map {cs : List Cause} {r : Except Stop α} {f : α → β} (h : StopsBy cs r) : StopsBy cs (r.map f) := by
  rcases r with e | a
  · intro c hc; cases hc; exact h c rfl
  · nofun

/-- The causes of stream writes: `CAPACITY` only where `MAXBUF` is finite (`10_state.md` R36). -/
def writeCauses (cfg : Config) : List Cause :=
  .appendUnaligned :: if cfg.maxBuf = none then [] else [.capacity]

/-- The causes of reads and writes. -/
def streamCauses (cfg : Config) : List Cause := .readPastEnd :: writeCauses cfg

theorem mem_writeCauses {c : Cause} :
    c ∈ writeCauses cfg ↔ c = .appendUnaligned ∨ (c = .capacity ∧ cfg.maxBuf ≠ none) := by
  unfold writeCauses; split <;> simp_all

theorem bounded_of_capacity (h : Cause.capacity ∈ streamCauses cfg) : cfg.maxBuf ≠ none := by
  simpa [streamCauses, mem_writeCauses] using h

theorem bounded_of_not_fits {n : Nat} (h : cfg.bufFits n = false) : cfg.maxBuf ≠ none :=
  fun h' => by rw [bufFits_unbounded h'] at h; cases h

theorem read_stopsBy {cs : List Cause} (m : Memory) (i : Nat) : StopsBy cs (m.read i) := by
  unfold Memory.read; split <;> nofun

theorem write_stopsBy {cs : List Cause} (m : Memory) (i : Nat) (w : Byte) : StopsBy cs (m.write i w) := by
  unfold Memory.write; split
  · nofun
  · split <;> nofun

theorem writeBits_stopsBy_write (bs : List Bool) (t : Stream) : StopsBy (writeCauses cfg) (t.writeBits cfg bs) := by
  induction bs generalizing t with
  | nil => nofun
  | cons b bs ih =>
    refine StopsBy.bind (.bind ?_ fun _ => (read_stopsBy _ _).bind fun _ => (write_stopsBy _ _ _).bind fun _ => .ok) ih
    unfold Stream.ensureByte
    split
    · split
      · intro c hc; cases hc; exact mem_writeCauses.2 (.inl rfl)
      · split
        · exact (write_stopsBy _ _ _).map
        · next h => intro c hc; cases hc; exact mem_writeCauses.2 (.inr ⟨rfl, bounded_of_not_fits (by simpa [canAppend] using h)⟩)
    · nofun

theorem takeBits_stopsBy (n : Nat) (t : Stream) : StopsBy [.readPastEnd] (t.takeBits n) := by
  intro c hc
  have := takeBits_answers n t
  rw [hc] at this; exact this

theorem StopsBy.mono {cs ds : List Cause} {r : Except Stop α} (h : StopsBy cs r) (hs : ∀ c ∈ cs, c ∈ ds) : StopsBy ds r :=
  fun c hc => hs c (h c hc)

theorem readPastEnd_only : ∀ c ∈ [Cause.readPastEnd], c ∈ streamCauses cfg := by
  intro c hc; simp_all [streamCauses]

theorem writeBits_stopsBy (bs : List Bool) (t : Stream) : StopsBy (streamCauses cfg) (t.writeBits cfg bs) :=
  (writeBits_stopsBy_write bs t).mono fun _ h => List.mem_cons_of_mem _ h

theorem readBits_stopsBy (n : Nat) (t : Stream) : StopsBy [.readPastEnd] (t.readBits n) := (takeBits_stopsBy n t).map

theorem readByte_stopsBy (t : Stream) : StopsBy [.readPastEnd] t.readByte := by
  rw [readByte_eq]; exact (readBits_stopsBy 8 t).map

theorem put_stopsBy (w : Byte) (t : Stream) : StopsBy (streamCauses cfg) (t.put cfg w) := by
  rw [put_eq]; exact writeBits_stopsBy _ _

theorem readEntries_stopsBy (e n : Nat) (inv : InverseAlphabet) (t : Stream) :
    StopsBy [.readPastEnd] (readEntries e n inv t) := by
  induction n generalizing inv t with
  | zero => nofun
  | succ n ih =>
    rw [readEntries]
    split
    · nofun
    · refine (readBits_stopsBy _ _).bind fun _ => (readBits_stopsBy _ _).bind fun _ => ?_
      dsimp only
      split
      · nofun
      · refine (takeBits_stopsBy _ _).bind fun _ => ?_
        split
        · nofun
        · exact ih _ _

theorem decodeBits_stopsBy (inv : InverseAlphabet) (n : Nat) (scratch : Seq) (t o : Stream) :
    StopsBy (streamCauses cfg) (decodeBits cfg inv n scratch t o) := by
  induction n generalizing scratch t o with
  | zero => nofun
  | succ n ih =>
    rw [decodeBits]
    refine ((takeBits_stopsBy _ _).mono readPastEnd_only).bind fun _ => ?_
    dsimp only
    split
    · exact (put_stopsBy _ _).bind fun _ => ih _ _ _
    · exact ih _ _ _

theorem hufDecode_stopsBy (t o : Stream) : StopsBy (streamCauses cfg) (hufDecode cfg t o) := by
  unfold hufDecode
  split
  · nofun
  · refine ((readBits_stopsBy _ _).mono readPastEnd_only).bind fun _ =>
      ((readBits_stopsBy _ _).mono readPastEnd_only).bind fun _ => ?_
    dsimp only
    split
    · nofun
    · refine ((readEntries_stopsBy _ _ _ _).mono readPastEnd_only).bind fun r => ?_
      rcases r with _ | ⟨_, _⟩
      · nofun
      · exact decodeBits_stopsBy _ _ _ _ _

theorem readTable_stopsBy (n : Nat) (t : Stream) : StopsBy [.readPastEnd] (readTable n t) := by
  induction n generalizing t with
  | zero => nofun
  | succ n ih => exact (readByte_stopsBy _).bind fun _ => (ih _).bind fun _ => .ok

theorem readRank_stopsBy (short long e : Nat) (t : Stream) : StopsBy [.readPastEnd] (readRank short long e t) := by
  unfold readRank
  split
  · nofun
  · refine StopsBy.bind (readBits_stopsBy _ _).map fun _ => ?_
    split
    · exact (readBits_stopsBy _ _).bind fun _ => .ok
    · split
      · nofun
      · exact (readBits_stopsBy _ _).bind fun _ => .ok

theorem decodeSymbols_stopsBy (short long e : Nat) (table : List Byte) (n : Nat) (t o : Stream) :
    StopsBy (streamCauses cfg) (decodeSymbols cfg short long e table n t o) := by
  induction n generalizing t o with
  | zero => nofun
  | succ n ih =>
    rw [decodeSymbols]
    split
    · refine ((readRank_stopsBy _ _ _ _).mono readPastEnd_only).bind fun r => ?_
      rcases r with _ | ⟨_, _⟩
      · nofun
      · dsimp only
        split
        · nofun
        · exact (put_stopsBy _ _).bind fun _ => ih _ _
    · nofun

theorem recDecode_stopsBy (short long : Nat) (t o : Stream) :
    StopsBy (streamCauses cfg) (recDecode cfg short long t o) := by
  unfold recDecode
  split
  · nofun
  · refine ((readBits_stopsBy _ _).mono readPastEnd_only).bind fun _ =>
      ((readBits_stopsBy _ _).mono readPastEnd_only).bind fun _ => ?_
    dsimp only
    split
    · nofun
    · exact ((readTable_stopsBy _ _).mono readPastEnd_only).bind fun _ => decodeSymbols_stopsBy _ _ _ _ _ _ _

theorem patchHeader_stopsBy (t : Stream) : StopsBy (streamCauses cfg) (patchHeader cfg t) := by
  unfold patchHeader
  rw [seek_zero]; exact writeBits_stopsBy _ _

/-- A codec step on fresh streams. -/
theorem codecStep_stopsBy (alg : Algorithm) (dir : Direction) (m : Memory) :
    StopsBy (streamCauses cfg) (codecStep cfg alg dir (Stream.fresh m) Stream.empty) := by
  cases alg <;> cases dir <;> simp only [codecStep, identityStep_eq, hufEncode_eq, recEncode_eq]
  case identity.compress => exact (writeBits_stopsBy _ _).bind fun _ => .ok
  case identity.decompress => exact (writeBits_stopsBy _ _).bind fun _ => .ok
  case huffman.compress => exact (writeBits_stopsBy _ _).bind fun _ => (patchHeader_stopsBy _).bind fun _ => .ok
  case huffman.decompress => exact hufDecode_stopsBy _ _
  case ranked.compress => exact (writeBits_stopsBy _ _).bind fun _ => (patchHeader_stopsBy _).bind fun _ => .ok
  case ranked.decompress => exact recDecode_stopsBy _ _ _ _

theorem fits_zero (cfg : Config) : cfg.bufFits 0 = true := by
  cases hb : cfg.maxBuf <;> simp [Config.bufFits, Config.within, hb]

/-- A codec step on fresh streams, its input within `MAXBUF` or not: an encoder answers `true`. -/
theorem codecStep_stops (alg : Algorithm) (dir : Direction) (m : Memory)
    (ha : ∀ short long, alg = .ranked short long → 0 < short ∧ short ≤ long) :
    Answers [.capacity] (fun r => dir = .compress → r.isSome = true)
      (codecStep cfg alg dir (Stream.fresh m) Stream.empty) := by
  have hz := fits_zero cfg
  have henc : ∀ {r : Except Stop Stream} {P : Stream → Prop}, Answers [.capacity] P r →
      Answers [.capacity] (fun r => dir = .compress → r.isSome = true)
        (r >>= fun o => pure (some (Stream.atPos m (8 * m.length), o))) :=
    fun h => h.bind fun _ _ _ => rfl
  cases alg with
  | identity =>
    rw [codecStep, identityStep_eq]; exact henc (writeBits_answers ⟨by simp [Stream.empty], hz⟩ (by simp))
  | huffman =>
    cases dir with
    | compress => rw [codecStep, hufEncode_eq, ← bind_assoc]; exact henc (encode_answers (three_le_hufBits 0 m) hz)
    | decompress => exact (hufDecode_answers hz m).imp fun _ _ => nofun
  | ranked short long =>
    obtain ⟨hs, hl⟩ := ha _ _ rfl
    cases dir with
    | compress => rw [codecStep, recEncode_eq, ← bind_assoc]; exact henc (encode_answers (three_le_recBits 0 short long m) hz)
    | decompress => exact (recDecode_answers hs hl hz m).imp fun _ _ => nofun

theorem Answers.stopsBy {cs : List Cause} {P : α → Prop} {r : Except Stop α} (h : Answers cs P r) : StopsBy cs r := by
  intro c hc; rw [hc] at h; exact h

/-! ### What operations that end normally leave -/

/-- Bits of a buffer but for `n` of them from `p` on, and its length, are kept. -/
structure Keeps (n : Nat) (t u : Stream) : Prop where
  bits : ∀ p, p < 8 * t.buf.length → (p < t.pos ∨ t.pos + n ≤ p) → bitAtPos u.buf p = bitAtPos t.buf p
  len  : t.buf.length ≤ u.buf.length

theorem Keeps.of_buf {n : Nat} {t u : Stream} (h : u.buf = t.buf) : Keeps n t u :=
  ⟨fun _ _ _ => by rw [h], by rw [h]⟩

theorem WroteBits.keeps {bs : List Bool} {t u : Stream} (h : WroteBits bs t u) : Keeps bs.length t u :=
  ⟨h.kept, by rw [h.len]; exact Nat.le_max_left _ _⟩

/-- Bits that were written were written as `WroteBits` says, at any cursor; no bit needs no room. -/
theorem writeBits_wrote {bs : List Bool} {t u : Stream} (h : t.writeBits cfg bs = .ok u) :
    (bs = [] ∧ u = t) ∨ (bs ≠ [] ∧ t.pos ≤ 8 * t.buf.length ∧ WroteBits bs t u) := by
  induction bs generalizing t with
  | nil => cases h; exact .inl ⟨rfl, rfl⟩
  | cons b bs ih =>
    rw [Stream.writeBits] at h
    obtain ⟨v, hv, h⟩ := bind_eq_ok.1 h
    have hp : t.pos ≤ 8 * t.buf.length := by
      refine Nat.le_of_not_lt fun hp => ?_
      by_cases hb : t.bi = t.buf.length
      · rw [writeBit_unaligned hb fun h0 => by
          have := pos_le_iff.2 (.inr ⟨hb, h0⟩); omega] at hv
        cases hv
      · have hge : ¬ t.bi < t.buf.length := fun hlt => by have := pos_lt_iff.2 hlt; omega
        simp [Stream.writeBit, Stream.ensureByte, hb, Memory.read, List.getElem?_eq_none (Nat.le_of_not_lt hge),
          bind, Except.bind] at hv
    obtain ⟨v', hv', hw⟩ := writeBit_ok (cfg := cfg) (b := b) hp fun he => Bool.not_eq_false _ ▸ fun hc => by
      rw [writeBit_full he hc] at hv; cases hv
    obtain rfl : v' = v := by rw [hv'] at hv; cases hv; rfl
    refine .inr ⟨by simp, hp, ?_⟩
    obtain ⟨rfl, rfl⟩ | ⟨-, -, hw'⟩ := ih h
    · exact hw
    · exact hw.trans hw'

theorem writeBits_keeps {bs : List Bool} {t u : Stream} (h : t.writeBits cfg bs = .ok u) : Keeps bs.length t u := by
  obtain ⟨-, rfl⟩ | ⟨-, -, hw⟩ := writeBits_wrote h
  · exact .of_buf rfl
  · exact hw.keeps

/-- A codec step leaves its input's buffer alone. -/
theorem codecStep_input {alg : Algorithm} {dir : Direction} {m : Memory} {p : Stream × Stream}
    (ha : ∀ short long, alg = .ranked short long → 0 < short ∧ short ≤ long)
    (h : codecStep cfg alg dir (Stream.fresh m) Stream.empty = .ok (some p)) : p.1.buf = m := by
  have hz := fits_zero cfg
  have henc : ∀ {r : Except Stop Stream}, (r >>= fun o => pure (some (Stream.atPos m (8 * m.length), o))) = .ok (some p) →
      p.1.buf = m := by
    intro r hr
    obtain ⟨o, -, ho⟩ := bind_eq_ok.1 hr
    cases ho; rfl
  cases alg with
  | identity => rw [codecStep, identityStep_eq] at h; exact henc h
  | huffman =>
    cases dir with
    | compress => rw [codecStep, hufEncode_eq, ← bind_assoc] at h; exact henc h
    | decompress => exact ((hufDecode_answers hz m).of_ok h p rfl).inBuf
  | ranked short long =>
    obtain ⟨hs, hl⟩ := ha _ _ rfl
    cases dir with
    | compress => rw [codecStep, recEncode_eq, ← bind_assoc] at h; exact henc h
    | decompress => exact ((recDecode_answers hs hl hz m).of_ok h p rfl).inBuf

/-! ### The inversion lemma -/

/-- What a completed command may have changed when it makes its response. -/
structure Ran (i : Instr) (s u : State) (v : Nat) (p : List Byte) : Prop where
  fatal     : u.fatal = false
  cause     : u.cause = s.cause
  cfg       : u.cfg = s.cfg
  pending   : u.pending = s.pending
  responses : u.responses = s.responses
  value     : i.returnsValue = false → v = 0
  payload   : i.returnsPayload = false → p = []
  streams   : ∀ x, i.writesStream x = false → u.stream x = s.stream x
  seqs      : ∀ a, i.writesSeq a = false → u.seq a = s.seq a
  keeps     : ∀ x, i.replacesBuffer = false → Keeps (storedBits i s x) (s.stream x) (u.stream x)

/-- A cause a legal command can latch; `CAPACITY` only on a block with a limit. -/
structure MayLatch (i : Instr) (s : State) (c : Cause) : Prop where
  wf       : i.wf = true
  raised   : c.code ∈ i.mayRaise
  capacity : c = .capacity → s.cfg.maxBuf ≠ none ∨ s.cfg.qMax ≠ none

/-- The five things a command can do. -/
inductive ExecCase (i : Instr) (s : State) : State → Prop where
  /-- a fatal fault came earlier (R244) -/
  | latched : s.fatal = true → ExecCase i s (s.respond s.faultResponse)
  /-- an operand is out of range (R248) -/
  | illegal : s.fatal = false → i.wf = false → ExecCase i s (s.raise .illegalCommand)
  /-- a fatal fault that changes nothing else -/
  | kept (c : Cause) : s.fatal = false → MayLatch i s c → ExecCase i s (s.raise c)
  /-- a fatal fault after which the data is unspecified (R243) -/
  | scrambled (c : Cause) : s.fatal = false → MayLatch i s c → ExecCase i s (s.raiseScrambled c)
  /-- completion -/
  | completed (u : State) (v : Nat) (p : List Byte) : s.fatal = false → i.wf = true → Ran i s u v p →
      ExecCase i s (u.complete v p)

theorem exec_latched {i : Instr} {s : State} (h : s.fatal = true) : exec i s = .next (s.respond s.faultResponse) := by
  cases i <;> exact begin_fatal h

theorem exec_illegal {i : Instr} {s : State} (h : i.wf = false) (hf : s.fatal = false) :
    exec i s = .next (s.raise .illegalCommand) := by
  cases i <;> simp only [Instr.wf, Bool.true_eq_false] at h <;>
    simp [exec, execBsPutb, execBsRdb, execBsPkb, execQAddn, execRecEnc, execRecDec, execDrvComp, execDrvDecomp, h,
      begin_illegal hf]

section cases
variable {i : Instr} {s t : State}

theorem begin_execCase {legal : Bool} {body : Host.Outcome State Fault Refusal} (hl : legal = i.wf)
    (hb : s.fatal = false → i.wf = true → body = .next t → ExecCase i s t) (h : begin legal s body = .next t) :
    ExecCase i s t := by
  obtain ⟨hf, he⟩ | ⟨hf, h1, he⟩ | ⟨hf, h1, he⟩ := begin_cases legal s body
  · rw [he] at h; cases h; exact .latched hf
  · rw [he] at h; exact hb hf (hl ▸ h1) h
  · rw [he] at h; cases h; exact .illegal hf (hl ▸ h1)

theorem finish_execCase {r : Except Stop α} {onFatal : Cause → State} {f : α → State}
    (hF : ∀ c, r = .error (.fatal c) → ExecCase i s (onFatal c)) (hok : ∀ a, r = .ok a → ExecCase i s (f a))
    (h : finish r onFatal f = .next t) : ExecCase i s t := by
  rcases r with (c | _) | a
  · cases h; exact hF c rfl
  · cases h
  · cases h; exact hok a rfl

theorem Ran.setStream {x : StreamId} {u : Stream} {v : Nat} {p : List Byte} (hf : s.fatal = false)
    (hv : i.returnsValue = false → v = 0) (hp : i.returnsPayload = false → p = [])
    (hw : ∀ y, i.writesStream y = (x == y))
    (hk : i.replacesBuffer = false → Keeps (storedBits i s x) (s.stream x) u) : Ran i s (s.setStream x u) v p := by
  refine ⟨by simpa using hf, by simp, by simp, by simp, by simp, hv, hp, fun y hy => ?_, fun a _ => by simp, fun y hr => ?_⟩
  · rw [hw] at hy; exact setStream_stream_other _ _ _ _ (by rintro rfl; simp at hy)
  · by_cases hy : y = x
    · subst hy; simpa using hk hr
    · rw [setStream_stream_other _ _ _ _ hy]; exact .of_buf rfl

theorem Ran.same {v : Nat} {p : List Byte} (hf : s.fatal = false) (hv : i.returnsValue = false → v = 0)
    (hp : i.returnsPayload = false → p = []) : Ran i s s v p :=
  ⟨hf, rfl, rfl, rfl, rfl, hv, hp, fun _ _ => rfl, fun _ _ => rfl, fun _ _ => .of_buf rfl⟩

theorem Ran.setStreams {p : Stream × Stream} {v : Nat} {q : List Byte} (hf : s.fatal = false)
    (hv : i.returnsValue = false → v = 0) (hp : i.returnsPayload = false → q = [])
    (hw : ∀ y, i.writesStream y = true)
    (hk : i.replacesBuffer = false → p.1.buf = s.s0.buf ∧ s.s1.buf = []) : Ran i s (s.setStreams p) v q := by
  refine ⟨hf, rfl, rfl, rfl, rfl, hv, hp, fun y hy => ?_, fun a _ => by cases a <;> rfl, fun y hr => ?_⟩
  · rw [hw] at hy; cases hy
  · cases y
    · exact .of_buf (hk hr).1
    · refine ⟨fun p hp => ?_, ?_⟩
      · simp [State.stream, (hk hr).2] at hp
      · simp [State.stream, (hk hr).2]

theorem Ran.setSeq {a : SeqId} {q : Seq} {v : Nat} {p : List Byte} (hf : s.fatal = false)
    (hv : i.returnsValue = false → v = 0) (hp : i.returnsPayload = false → p = [])
    (hq : ∀ b, i.writesSeq b = (a == b)) : Ran i s (s.setSeq a q) v p := by
  refine ⟨by simpa using hf, by simp, by simp, by simp, by simp, hv, hp, fun y _ => by simp, fun b hb => ?_,
    fun y _ => .of_buf (by simp)⟩
  rw [hq] at hb; exact setSeq_seq_other _ _ _ _ (by rintro rfl; simp at hb)

end cases

/-- Everything a command can do, in any state. -/
theorem exec_cases {i : Instr} {s t : State} (h : exec i s = .next t) : ExecCase i s t := by
  have write : ∀ (x : StreamId) (bs : List Bool), (∀ y, i.writesStream y = (x == y)) →
      i.mayRaise = [4, 9] → storedBits i s x = bs.length → s.fatal = false → i.wf = true →
      finishWrite x s ((s.stream x).writeBits s.cfg bs) = .next t → ExecCase i s t := by
    intro x bs hw hm hn hf hwf
    refine finish_execCase (fun c hc => .scrambled c hf ⟨hwf, ?_, fun e => .inl ?_⟩) fun u hu => .completed _ _ _ hf hwf
      (.setStream hf (fun _ => rfl) (fun _ => rfl) hw fun _ => hn ▸ writeBits_keeps hu)
    · rw [hm]
      obtain rfl | ⟨rfl, -⟩ := mem_writeCauses.1 (writeBits_stopsBy_write _ _ c hc) <;> decide
    · exact bounded_of_capacity (e ▸ writeBits_stopsBy _ _ c hc)
  have append : ∀ (a : SeqId) (bits : Seq), (∀ b, i.writesSeq b = (a == b)) → i.mayRaise = [9] →
      s.fatal = false → i.wf = true → appendSeq a bits s = .next t → ExecCase i s t := by
    intro a bits hq hm hf hwf h
    unfold appendSeq at h
    split at h
    · cases h; exact .completed _ _ _ hf hwf (.setSeq hf (fun _ => rfl) (fun _ => rfl) hq)
    · next hn =>
      cases h
      refine .kept _ hf ⟨hwf, by rw [hm]; decide, fun _ => .inr fun h' => hn ?_⟩
      simp [Config.seqFits, Config.within, h']
  have codec : ∀ (alg : Algorithm) (dir : Direction), (∀ y, i.writesStream y = true) → i.returnsValue = true →
      i.mayRaise = [6, 9] → (∀ short long, alg = .ranked short long → 0 < short ∧ short ≤ long) →
      s.fatal = false → i.wf = true → runCodec s (codecStep s.cfg alg dir s.s0 s.s1) = .next t → ExecCase i s t := by
    intro alg dir hw hv hm ha hf hwf h
    unfold runCodec at h
    split at h
    · next hr =>
      obtain ⟨h0, h1⟩ := codecReady_iff.1 hr
      rw [h0, h1] at h
      refine finish_execCase (fun c hc => .scrambled c hf ⟨hwf, ?_, fun e => .inl ?_⟩) (fun r hr => ?_) h
      · rw [hm, List.mem_singleton.1 ((codecStep_stops alg dir _ ha).stopsBy c hc)]; decide
      · exact bounded_of_capacity (e ▸ codecStep_stopsBy _ _ _ c hc)
      · cases r with
        | some p =>
          exact .completed _ _ _ hf hwf (.setStreams hf (by simp [hv]) (fun _ => rfl) hw fun _ => ⟨codecStep_input ha hr, by rw [h1]; rfl⟩)
        | none =>
          refine .completed _ _ _ hf hwf ⟨hf, rfl, rfl, rfl, rfl, by simp [hv], fun _ => rfl, fun y hy => ?_, fun a _ => by simp, fun y _ => ?_⟩
          · rw [hw] at hy; cases hy
          · cases y
            · exact .of_buf rfl
            · exact ⟨fun p hp => by simp [State.stream, h1] at hp, by simp [State.stream, h1]⟩
    · cases h; exact .kept _ hf ⟨hwf, by rw [hm]; decide, nofun⟩
  have driver : ∀ (alg : Nat) (dir : Direction) (payload : List Byte), (∀ y, i.writesStream y = true) → i.returnsValue = true →
      i.returnsPayload = true → i.replacesBuffer = true → i.mayRaise = (match dir with | .compress => [9] | .decompress => [8, 9]) →
      s.fatal = false → i.wf = true → drive alg dir payload s = .next t → ExecCase i s t := by
    intro alg dir payload hw hv hp hr hm hf hwf
    have ha : ∀ short long, algorithmOf alg = .ranked short long → 0 < short ∧ short ≤ long := by
      intro a b hab; obtain ⟨rfl, rfl, h2⟩ := algorithmOf_ranked hab; omega
    refine finish_execCase (fun c hc => .scrambled c hf ?_) fun p _ => .completed _ _ _ hf hwf
      (.setStreams hf (by simp [hv]) (by simp [hp]) hw (by simp [hr]))
    unfold driveStreams Stream.load at hc
    split at hc
    · simp only [except_bind_ok] at hc
      have h1 := codecStep_stops (cfg := s.cfg) (algorithmOf alg) dir payload ha
      have h2 := codecStep_stopsBy (cfg := s.cfg) (algorithmOf alg) dir payload
      rcases hcs : codecStep s.cfg (algorithmOf alg) dir (Stream.fresh payload) Stream.empty with e | r
      · rw [hcs] at hc h1 h2
        obtain rfl : e = .fatal c := by simpa [bind, Except.bind] using hc
        have := h1.stopsBy c rfl
        rw [List.mem_singleton] at this; subst this
        refine ⟨hwf, ?_, fun _ => .inl (bounded_of_capacity (h2 _ rfl))⟩
        rw [hm]; cases dir <;> decide
      · rw [hcs] at hc h1
        cases r with
        | some p => cases hc
        | none =>
          cases hc
          cases dir with
          | compress => exact absurd (h1 rfl) (by simp)
          | decompress => exact ⟨hwf, by rw [hm]; decide, nofun⟩
    · next hn =>
      cases hc
      exact ⟨hwf, by rw [hm]; cases dir <;> decide, fun _ => .inl (bounded_of_not_fits (by simpa using hn))⟩
  have read : ∀ (x : StreamId) (n : Nat) (g : Nat × Stream → Nat), i.mayRaise = [1] → i.returnsValue = true →
      (∀ y, i.writesStream y = (x == y)) → i.replacesBuffer = false → s.fatal = false → i.wf = true →
      finish ((s.stream x).readBits n) s.raiseScrambled (fun r => (s.setStream x r.2).complete (g r) []) = .next t →
      ExecCase i s t := by
    intro x n g hm hv hw hr hf hwf
    refine finish_execCase (fun c hc => .scrambled c hf ?_) fun r hr => .completed _ _ _ hf hwf
      (.setStream hf (by simp [hv]) (fun _ => rfl) hw fun _ => .of_buf ?_)
    · rw [List.mem_singleton.1 (readBits_stopsBy _ _ c hc)]; exact ⟨hwf, by rw [hm]; decide, nofun⟩
    · obtain ⟨q, hq, rfl⟩ := map_eq_ok.1 hr
      rw [((takeBits_answers n (s.stream x)).of_ok hq).2.2]; rfl
  have peek : ∀ (x : StreamId) (n : Nat) (g : Nat × Stream → Nat), i.mayRaise = [1] → i.returnsValue = true →
      s.fatal = false → i.wf = true →
      finish ((s.stream x).readBits n) s.raise (fun r => s.complete (g r) []) = .next t → ExecCase i s t := by
    intro x n g hm hv hf hwf
    refine finish_execCase (fun c hc => .kept c hf ?_) fun r hr => .completed _ _ _ hf hwf
      (.same hf (by simp [hv]) (fun _ => rfl))
    rw [List.mem_singleton.1 (readBits_stopsBy _ _ c hc)]; exact ⟨hwf, by rw [hm]; decide, nofun⟩
  have fmap : ∀ {α β : Type} (r : Except Stop α) (g : α → β) (onFatal : Cause → State) (f : β → State),
      finish (r.map g) onFatal f = finish r onFatal (fun a => f (g a)) := by
    intro α β r g onFatal f; rcases r with (_ | _) | _ <;> rfl
  have report : ∀ (v : Nat) (p : List Byte), i.returnsValue = true → (i.returnsPayload = false → p = []) →
      s.fatal = false → i.wf = true → (.next (s.complete v p) : Host.Outcome State Fault Refusal) = .next t →
      ExecCase i s t := by
    intro v p hv hp hf hwf h; cases h; exact .completed _ _ _ hf hwf (.same hf (by simp [hv]) hp)
  cases i with
  | bsNew x =>
    refine begin_execCase rfl (fun hf hwf h => ?_) h
    cases h; exact .completed _ _ _ hf hwf (.setStream hf (fun _ => rfl) (fun _ => rfl) (fun _ => rfl) nofun)
  | bsLoad x payload =>
    refine begin_execCase rfl (fun hf hwf h => ?_) h
    refine finish_execCase (fun c hc => .scrambled c hf ?_) (fun u _ => .completed _ _ _ hf hwf
      (.setStream hf (fun _ => rfl) (fun _ => rfl) (fun _ => rfl) nofun)) h
    unfold Stream.load at hc
    split at hc
    · cases hc
    · next hn => cases hc; exact ⟨rfl, by simp [Instr.mayRaise, Cause.code], fun _ => .inl (bounded_of_not_fits (by simpa using hn))⟩
  | bsPut x w =>
    exact begin_execCase rfl (fun hf hwf => by
      rw [put_eq]; exact write x _ (fun _ => rfl) rfl (by simp [storedBits]) hf hwf) h
  | bsPutf x w =>
    refine begin_execCase rfl (fun hf hwf h => ?_) h
    by_cases hp : (s.stream x).bi < (s.stream x).buf.length ∧ (s.stream x).bo = 0
    · rw [putFast_ok hp.1 hp.2] at h
      cases h
      refine .completed _ _ _ hf hwf (.setStream hf (fun _ => rfl) (fun _ => rfl) (fun _ => rfl) fun _ => ?_)
      have := (wroteBits_byte (w := w) hp.2 (memory_write_inside w hp.1)).keeps
      simpa [storedBits] using this
    · rw [putFast_fault hp] at h
      cases h; exact .kept _ hf ⟨rfl, by simp [Instr.mayRaise, Cause.code], nofun⟩
  | bsPutb x n p =>
    exact begin_execCase rfl (fun hf hwf => write x _ (fun _ => rfl) rfl (by simp [storedBits]) hf hwf) h
  | bsPutq x q =>
    exact begin_execCase rfl (fun hf hwf => write x _ (fun _ => rfl) rfl (by simp [storedBits]) hf hwf) h
  | bsRdb x n =>
    exact begin_execCase rfl (fun hf hwf => read x n (fun r => r.1) rfl rfl (fun _ => rfl) rfl hf hwf) h
  | bsPkb x n =>
    exact begin_execCase rfl (fun hf hwf h => by
      rw [Stream.peekBits, fmap] at h; exact peek x n _ rfl rfl hf hwf h) h
  | bsRd x =>
    exact begin_execCase rfl (fun hf hwf h => by
      rw [readByte_eq, fmap] at h; exact read x 8 (fun r => (BitVec.ofNat 8 r.1).toNat) rfl rfl (fun _ => rfl) rfl hf hwf h) h
  | bsPk x =>
    exact begin_execCase rfl (fun hf hwf h => by
      rw [peekByte_eq, Stream.peekBits, fmap, fmap] at h; exact peek x 8 _ rfl rfl hf hwf h) h
  | bsSeek x j k =>
    refine begin_execCase rfl (fun hf hwf h => ?_) h
    unfold Stream.seek at h
    split at h
    · cases h; exact .kept _ hf ⟨rfl, by simp [Instr.mayRaise, Cause.code], nofun⟩
    · cases h
      exact .completed _ _ _ hf hwf (.setStream hf (fun _ => rfl) (fun _ => rfl) (fun _ => rfl) fun _ => .of_buf rfl)
  | bsAtend x => exact begin_execCase rfl (report _ _ rfl (fun _ => rfl)) h
  | bsTell x => exact begin_execCase rfl (report _ _ rfl (fun _ => rfl)) h
  | bsLen x => exact begin_execCase rfl (report _ _ rfl (fun _ => rfl)) h
  | bsDump x => exact begin_execCase rfl (report _ _ rfl nofun) h
  | qClr a =>
    refine begin_execCase rfl (fun hf hwf h => ?_) h
    cases h; exact .completed _ _ _ hf hwf (.setSeq hf (fun _ => rfl) (fun _ => rfl) (fun _ => rfl))
  | qAdd1 a bit => exact begin_execCase rfl (append a _ (fun _ => rfl) rfl) h
  | qAddn a n p => exact begin_execCase rfl (append a _ (fun _ => rfl) rfl) h
  | qAddq a b => exact begin_execCase rfl (append a _ (fun _ => rfl) rfl) h
  | qUint a => exact begin_execCase rfl (report _ _ rfl (fun _ => rfl)) h
  | qHash a => exact begin_execCase rfl (report _ _ rfl (fun _ => rfl)) h
  | qLen a => exact begin_execCase rfl (report _ _ rfl (fun _ => rfl)) h
  | hufEnc => exact begin_execCase rfl (codec .huffman .compress (fun _ => rfl) rfl rfl nofun) h
  | hufDec => exact begin_execCase rfl (codec .huffman .decompress (fun _ => rfl) rfl rfl nofun) h
  | recEnc short long =>
    refine begin_execCase rfl (fun hf hwf => codec (.ranked short long) .compress (fun _ => rfl) rfl rfl ?_ hf hwf) h
    intro a b hab; cases hab; have := wfPair_bounds hwf; omega
  | recDec short long =>
    refine begin_execCase rfl (fun hf hwf => codec (.ranked short long) .decompress (fun _ => rfl) rfl rfl ?_ hf hwf) h
    intro a b hab; cases hab; have := wfPair_bounds hwf; omega
  | drvComp alg payload =>
    exact begin_execCase rfl (driver alg .compress payload (fun _ => rfl) rfl rfl rfl rfl) h
  | drvDecomp alg payload =>
    exact begin_execCase rfl (driver alg .decompress payload (fun _ => rfl) rfl rfl rfl rfl) h

/-- A command after which `FATAL` is 0 has completed. -/
theorem exec_completed {i : Instr} {s t : State} (h : exec i s = .next t) (ht : t.fatal = false) :
    s.fatal = false ∧ i.wf = true ∧ ∃ u v p, t = u.complete v p ∧ Ran i s u v p := by
  cases exec_cases h with
  | latched hf => rw [respond_fatal, hf] at ht; cases ht
  | illegal hf hw => cases ht
  | kept c _ hm => cases ht
  | scrambled c _ hm => cases ht
  | completed u v p hf hw hr => exact ⟨hf, hw, u, v, p, rfl, hr⟩

/-! ### The two ports -/

/-- Every command gives one response and leaves the pending events alone. -/
theorem exec_ports {i : Instr} {s t : State} (h : exec i s = .next t) :
    t.pending = s.pending ∧ ∃ r, t.responses = s.responses ++ [r] := by
  cases exec_cases h with
  | latched hf => exact ⟨rfl, _, rfl⟩
  | illegal hf hw => exact ⟨rfl, _, rfl⟩
  | kept c _ hm => exact ⟨rfl, _, rfl⟩
  | scrambled c _ hm => exact ⟨rfl, _, rfl⟩
  | completed u v p hf hw hr => exact ⟨hr.pending, _, by rw [complete_responses, hr.responses]⟩

/-- A step takes the oldest event, if there is one, and gives a response exactly when it is a command. -/
theorem step_ports {s t : State} (h : step s = .next t) :
    t.pending = s.pending.tail ∧ ∃ new, t.responses = s.responses ++ new ∧
      new.length = (s.pending.take 1).countP HostEvent.isCommand := by
  cases hp : s.pending with
  | nil => rw [step_idle hp] at h; cases h; exact ⟨hp, [], by simp⟩
  | cons e rest =>
    cases e with
    | reset =>
      rw [step_reset hp] at h; cases h
      exact ⟨by simp [State.assertReset, State.dropEvent, hp], [],
        by simp [State.assertReset, State.dropEvent, HostEvent.isCommand]⟩
    | command c =>
      have key : t.pending = s.dropEvent.pending ∧ ∃ r, t.responses = s.dropEvent.responses ++ [r] := by
        rw [step_command hp, runCommand] at h
        split at h
        · exact exec_ports h
        · cases hf : s.dropEvent.fatal
          · rw [rejectCommand_clear hf] at h; cases h; exact ⟨rfl, _, rfl⟩
          · rw [rejectCommand_fatal hf] at h; cases h; exact ⟨rfl, _, rfl⟩
      obtain ⟨h1, r, h2⟩ := key
      exact ⟨by rw [h1, State.dropEvent, hp, List.tail_cons], [r], by rw [h2]; rfl, by simp [HostEvent.isCommand]⟩

/-! ### From an equation of `exec` to `Done` and `FaultsWith` -/

section ends
variable {i : Instr} {s u : State} {v : Nat} {p : List Byte}

theorem Ran.done (h : Ran i s u v p) (hf : s.fatal = false) : Done i s (u.complete v p) v p where
  fatal := by simp [h.fatal, hf]
  cause := h.cause
  cfg := h.cfg
  pending := h.pending
  response := by simp [h.responses, h.cause]
  streams x hx := by rw [← h.streams x hx]; cases x <;> rfl
  seqs a ha := by rw [← h.seqs a ha]; cases a <;> rfl

/-- A command that answers the completion of a state has done so with that result. -/
theorem done_of_exec (h : exec i s = .next (u.complete v p)) (hf : s.fatal = false) (hu : u.fatal = false)
    (hr : u.responses = s.responses) : Done i s (u.complete v p) v p := by
  obtain ⟨-, -, u', v', p', he, hr'⟩ := exec_completed h hu
  have h1 : (u.complete v p).responses = (u'.complete v' p').responses := by rw [he]
  simp only [complete_responses, hr, hr'.responses, List.append_cancel_left_eq, List.cons.injEq, Response.mk.injEq,
    true_and, and_true] at h1
  obtain ⟨-, rfl, rfl⟩ := h1
  rw [he]; exact hr'.done hf

theorem Done.fatal_false {t : State} (h : Done i s t v p) (hf : s.fatal = false) : t.fatal = false := h.fatal.trans hf

theorem faultsWith_raise {c : Cause} (h : exec i s = .next (s.raise c)) : FaultsWith i s c.code :=
  ⟨_, h, rfl, rfl, rfl, rfl, rfl⟩

theorem faultsWith_scrambled {c : Cause} (h : exec i s = .next (s.raiseScrambled c)) : FaultsWith i s c.code :=
  ⟨_, h, rfl, rfl, rfl, rfl, rfl⟩

end ends

/-! ### The commands with operands to check, past the latch and the check -/

section bodies
variable {s : State} {x : StreamId} {n pattern short long alg : Nat}

theorem exec_bsPut {w : Byte} (hf : s.fatal = false) :
    exec (.bsPut x w) s = finishWrite x s ((s.stream x).writeBits s.cfg (byteBits w)) := by
  rw [exec, execBsPut, begin_legal hf, put_eq]

theorem exec_bsPutb (hn : n ≤ 32) (hp : pattern < 2 ^ n) (hf : s.fatal = false) :
    exec (.bsPutb x n pattern) s = finishWrite x s ((s.stream x).writeBits s.cfg (lsbFirst n pattern)) := by
  rw [exec, execBsPutb, wfPattern_iff.2 ⟨hn, hp⟩, begin_legal hf]; rfl

theorem exec_bsPutq {q : SeqId} (hf : s.fatal = false) :
    exec (.bsPutq x q) s = finishWrite x s ((s.stream x).writeBits s.cfg (s.seq q)) := by
  rw [exec, execBsPutq, begin_legal hf]; rfl

theorem exec_bsRdb (hn : n ≤ 32) (hf : s.fatal = false) : exec (.bsRdb x n) s =
    finish ((s.stream x).readBits n) s.raiseScrambled fun r => (s.setStream x r.2).complete r.1 [] := by
  rw [exec, execBsRdb, wfWidth_iff.2 hn, begin_legal hf]

theorem exec_bsPkb (hn : n ≤ 32) (hf : s.fatal = false) :
    exec (.bsPkb x n) s = finish ((s.stream x).peekBits n) s.raise fun v => s.complete v [] := by
  rw [exec, execBsPkb, wfWidth_iff.2 hn, begin_legal hf]

theorem exec_qAddn {a : SeqId} (hn : n ≤ 32) (hp : pattern < 2 ^ n) (hf : s.fatal = false) :
    exec (.qAddn a n pattern) s = appendSeq a (msbFirst n pattern) s := by
  rw [exec, execQAddn, wfPattern_iff.2 ⟨hn, hp⟩, begin_legal hf]

theorem exec_hufEnc (hf : s.fatal = false) : exec .hufEnc s = runCodec s (hufEncode s.cfg s.s0 s.s1) := by
  rw [exec, execHufEnc, begin_legal hf]

theorem exec_hufDec (hf : s.fatal = false) : exec .hufDec s = runCodec s (hufDecode s.cfg s.s0 s.s1) := by
  rw [exec, execHufDec, begin_legal hf]

theorem exec_recEnc (hp : wfPair short long = true) (hf : s.fatal = false) :
    exec (.recEnc short long) s = runCodec s (recEncode s.cfg short long s.s0 s.s1) := by
  rw [exec, execRecEnc, hp, begin_legal hf]

theorem exec_recDec (hp : wfPair short long = true) (hf : s.fatal = false) :
    exec (.recDec short long) s = runCodec s (recDecode s.cfg short long s.s0 s.s1) := by
  rw [exec, execRecDec, hp, begin_legal hf]

theorem exec_drvComp {payload : List Byte} (ha : alg ≤ 7) (hf : s.fatal = false) :
    exec (.drvComp alg payload) s = drive alg .compress payload s := by
  rw [exec, execDrvComp, wfAlg_iff.2 ha, begin_legal hf]

theorem exec_drvDecomp {payload : List Byte} (ha : alg ≤ 7) (hf : s.fatal = false) :
    exec (.drvDecomp alg payload) s = drive alg .decompress payload s := by
  rw [exec, execDrvDecomp, wfAlg_iff.2 ha, begin_legal hf]

end bodies

end Sys2Proof.Machine
end

