-- ==== Sys2Proof/Laws/Wire.lean ====
section
/-! SUPPORT. The header of a compressed buffer: what an encoder's buffer reads as. -/

namespace Sys2Proof.Machine

variable {m : Memory} {bits rest : List Bool} {fbi size : Nat}

/-- The bits a buffer holds are the first bits of it. -/
theorem HoldsBits.take (h : HoldsBits bits m) : (bufBits m).take bits.length = bits := by
  rw [h.2, List.take_left]

theorem HoldsBits.length_le (h : HoldsBits bits m) : bits.length ≤ 8 * m.length := by
  rw [h.1]; unfold bytesFor; omega

/-- The count of a buffer that holds a header (R85). -/
theorem fbiOf_eq (h : HoldsBits (headerBits fbi size ++ rest) m) (hf : fbi < 8) : fbiOf m = fbi := by
  have : (bufBits m).take 3 = lsbFirst 3 fbi := by
    rw [h.2, headerBits, List.append_assoc, List.append_assoc, List.take_left' (by simp)]
  rw [fbiOf, this, ofLsbFirst_lsbFirst hf]

/-- The alphabet size of a buffer that holds a header (R85). -/
theorem alphaSizeOf_eq (h : HoldsBits (headerBits fbi size ++ rest) m) (hs : size < 512) : alphaSizeOf m = size := by
  have : ((bufBits m).drop 3).take 9 = lsbFirst 9 size := by
    rw [h.2, headerBits, List.append_assoc, List.append_assoc, List.drop_left' (by simp), List.append_assoc,
      List.take_left' (by simp)]
  rw [alphaSizeOf, this, ofLsbFirst_lsbFirst hs]

/-- The end boundary of an encoder's buffer is where its last bit ends (R89). -/
theorem endBoundary_bytesFor {n : Nat} (h : 0 < n) : endBoundary (bytesFor n) (n % 8) = n := by
  unfold endBoundary bytesFor; split <;> omega

theorem endOf_eq (h : HoldsBits (headerBits fbi size ++ rest) m) (hf : fbi = (12 + rest.length) % 8) :
    endOf m = 12 + rest.length := by
  have hl : (headerBits fbi size ++ rest).length = 12 + rest.length := by simp
  rw [endOf, fbiOf_eq h (by omega), h.1, hl, hf, endBoundary_bytesFor (by omega)]

/-- The data of an encoder's buffer is what it wrote. -/
theorem dataFrom_eq (h : HoldsBits (headerBits fbi size ++ rest) m) (hf : fbi = (12 + rest.length) % 8) (p : Nat) :
    dataFrom m p = (headerBits fbi size ++ rest).drop p := by
  have hl : (headerBits fbi size ++ rest).length = 12 + rest.length := by simp
  rw [dataFrom, endOf_eq h hf, ← hl, h.take]

theorem dataFrom_header (h : HoldsBits (headerBits fbi size ++ rest) m) (hf : fbi = (12 + rest.length) % 8) :
    dataFrom m 12 = rest := by
  rw [dataFrom_eq h hf, List.drop_left' (by simp)]

theorem hufBits_eq (fbi : Nat) (data : List Byte) :
    hufBits fbi data = headerBits fbi (distinctBytes data).length ++
      (entryBits (alphabet data) (distinctBytes data) ++ codeBits (alphabet data) data) := by
  rw [hufBits, List.append_assoc]

theorem recBits_eq (fbi short long : Nat) (data : List Byte) :
    recBits fbi short long data = headerBits fbi (rankTable data).length ++
      (bufBits (rankTable data) ++ symbolBits short long (rankTable data) data) := by
  rw [recBits, List.append_assoc]

/-- What `HUF.ENC` leaves in `OUT` (R171). -/
theorem Encoded.holds_huf {data : List Byte} {o : Stream} (h : Encoded (hufBits 0 data) o) :
    HoldsBits (hufBits ((hufBits 0 data).length % 8) data) o.buf := by
  have := h.holds; rwa [hufBits_patch] at this

/-- What `REC.ENC` leaves in `OUT` (R205). -/
theorem Encoded.holds_rec {short long : Nat} {data : List Byte} {o : Stream}
    (h : Encoded (recBits 0 short long data) o) :
    HoldsBits (recBits ((recBits 0 short long data).length % 8) short long data) o.buf := by
  have := h.holds; rwa [recBits_patch] at this

/-- The data before the end boundary, as a slice of the buffer. -/
theorem dataFrom_take {p n : Nat} (h : p + n ≤ endOf m) : (dataFrom m p).take n = ((bufBits m).drop p).take n := by
  unfold dataFrom
  apply List.ext_getElem?
  intro j
  rw [List.getElem?_take, List.getElem?_take]
  split
  · rw [List.getElem?_drop, List.getElem?_drop, List.getElem?_take, if_pos (by omega)]
  · rfl

theorem fbiOf_lt (m : Memory) : fbiOf m < 8 := by
  have h := ofLsbFirst_lt ((bufBits m).take 3)
  have : ((bufBits m).take 3).length ≤ 3 := by simp
  have h8 : 2 ^ ((bufBits m).take 3).length ≤ 2 ^ 3 := Nat.pow_le_pow_right (by omega) this
  unfold fbiOf; omega

theorem endOf_le (h : 1 ≤ m.length) : endOf m ≤ 8 * m.length := endBoundary_le (fbiOf_lt m) h

theorem dataFrom_length (h : 1 ≤ m.length) (p : Nat) : (dataFrom m p).length = endOf m - p := by
  have := endOf_le h
  simp [dataFrom]; omega

end Sys2Proof.Machine
end

