-- ==== Sys2Proof/Laws/HuffmanReads.lean ====
section
/-! SUPPORT. `HUF.DEC` answers `true` with `out` exactly when its input reads as `out` (`HufReads`). -/

namespace Sys2Proof.Machine

variable {cfg : Config} {m : Memory}

/-! ### The key of the inverse alphabet (R146, R148) -/

theorem seqFold_eq (start : Nat) (q : Seq) : seqFold start q = start * 2 ^ q.length + toUint q := by
  induction q using List.reverseRecOn with
  | nil => simp [seqFold, toUint]
  | append_singleton q b ih =>
    have h : ∀ a, seqFold a (q ++ [b]) = 2 * seqFold a q + b.toNat := fun a => by simp [seqFold]
    rw [toUint, h, h, ih, List.length_append, List.length_singleton, Nat.pow_succ, ← toUint, Nat.mul_add,
      show start * (2 ^ q.length * 2) = 2 * (start * 2 ^ q.length) by ring, Nat.add_assoc]

theorem toUint_append_singleton (q : Seq) (b : Bool) : toUint (q ++ [b]) = 2 * toUint q + b.toNat := by
  simp [toUint, seqFold]

theorem seqHash_append_singleton (q : Seq) (b : Bool) : seqHash (q ++ [b]) = 2 * seqHash q + b.toNat := by
  simp [seqHash, seqFold]

theorem one_le_seqHash (q : Seq) : 1 ≤ seqHash q := by
  rw [seqHash, seqFold_eq]
  have := Nat.two_pow_pos q.length
  omega

theorem seqHash_injective {q r : Seq} (h : seqHash q = seqHash r) : q = r := by
  induction q using List.reverseRecOn generalizing r with
  | nil =>
    cases r using List.reverseRecOn with
    | nil => rfl
    | append_singleton r b =>
      rw [seqHash_append_singleton] at h
      have h1 : seqHash [] = 1 := rfl
      have := one_le_seqHash r
      omega
  | append_singleton q a ih =>
    cases r using List.reverseRecOn with
    | nil =>
      rw [seqHash_append_singleton] at h
      have h1 : seqHash [] = 1 := rfl
      have := one_le_seqHash q
      omega
    | append_singleton r b =>
      rw [seqHash_append_singleton, seqHash_append_singleton] at h
      have ha : a.toNat ≤ 1 := Bool.toNat_le a
      have hb : b.toNat ≤ 1 := Bool.toNat_le b
      rw [ih (r := r) (by omega)]
      have : a.toNat = b.toNat := by omega
      cases a <;> cases b <;> simp_all

/-! ### The alphabet (R174) -/

/-- The inverse alphabet holds exactly these entries. -/
def Keys (inv : InverseAlphabet) (es : List Entry) : Prop :=
  ∀ q v, inv.lookup (seqHash q) = some v ↔ (v, q) ∈ es

theorem keys_nil : Keys [] [] := by intro q v; simp

theorem Keys.none_iff {inv : InverseAlphabet} {es : List Entry} (h : Keys inv es) (q : Seq) :
    inv.lookup (seqHash q) = none ↔ q ∉ es.map Prod.snd := by
  constructor
  · intro hn hq
    obtain ⟨⟨v, q'⟩, hm, rfl⟩ := List.mem_map.1 hq
    rw [(h q' v).2 hm] at hn; cases hn
  · intro hq
    cases hl : inv.lookup (seqHash q) with
    | none => rfl
    | some v => exact absurd (List.mem_map.2 ⟨(v, q), (h q v).1 hl, rfl⟩) hq

theorem Keys.cons {inv : InverseAlphabet} {es : List Entry} (h : Keys inv es) {q : Seq} (v : Byte)
    (hq : q ∉ es.map Prod.snd) : Keys ((seqHash q, v) :: inv) (es ++ [(v, q)]) := by
  intro r w
  rw [List.lookup_cons]
  by_cases hr : r = q
  · subst hr
    simp only [beq_self_eq_true, Option.some.injEq, List.mem_append, List.mem_singleton, Prod.mk.injEq]
    constructor
    · rintro rfl; exact .inr (by simp)
    · rintro (hm | ⟨rfl, -⟩)
      · exact absurd (List.mem_map.2 ⟨_, hm, rfl⟩) hq
      · rfl
  · have hb : (seqHash r == seqHash q) = false := by
      simp only [beq_eq_false_iff_ne]; exact fun h' => hr (seqHash_injective h')
    simp only [hb, List.mem_append, List.mem_singleton, Prod.mk.injEq]
    rw [h r w]
    simp [hr]

@[simp] theorem Entry.bits_length (e : Entry) : e.bits.length = 17 + e.2.length := by simp [Entry.bits]; omega

theorem dataFrom_add (m : Memory) (p k : Nat) : dataFrom m (p + k) = (dataFrom m p).drop k := by
  rw [dataFrom, dataFrom, List.drop_drop]

/-- The data of a byte, a length and a codeword. -/
theorem entry_of_data {p n : Nat} (h : p + 17 + n ≤ endOf m)
    (hn : ofLsbFirst (((bufBits m).drop (p + 8)).take 9) = n) (h1 : 1 ≤ m.length) :
    dataFrom m p = Entry.bits (BitVec.ofNat 8 (ofLsbFirst (((bufBits m).drop p).take 8)),
      ((bufBits m).drop (p + 8 + 9)).take n) ++ dataFrom m (p + (17 + n)) := by
  have hlen := dataFrom_length h1 p
  have hl17 := dataFrom_length h1 (p + 8 + 9)
  have hl8 := dataFrom_length h1 (p + 8)
  have hsn : (((bufBits m).drop (p + 8 + 9)).take n).length = n := by
    rw [← dataFrom_take (by omega), List.length_take]; omega
  have hb : byteBits (BitVec.ofNat 8 (ofLsbFirst (((bufBits m).drop p).take 8))) = (dataFrom m p).take 8 := by
    rw [dataFrom_take (by omega)]
    exact byteBits_ofLsbFirst (by rw [← dataFrom_take (by omega), List.length_take]; omega)
  have h9 : lsbFirst 9 n = (dataFrom m (p + 8)).take 9 := by
    have hl : (((bufBits m).drop (p + 8)).take 9).length = 9 := by
      rw [← dataFrom_take (by omega), List.length_take]; omega
    have key : ∀ l : List Bool, l.length = 9 → lsbFirst 9 (ofLsbFirst l) = l := fun l h => h ▸ lsbFirst_ofLsbFirst l
    rw [dataFrom_take (by omega), ← hn, key _ hl]
  rw [Entry.bits]
  simp only [hsn]
  rw [hb, h9, ← dataFrom_take (by omega), show p + (17 + n) = p + 8 + 9 + n by omega, List.append_assoc,
    List.append_assoc, dataFrom_add m (p + 8 + 9), List.take_append_drop, dataFrom_add m (p + 8),
    List.take_append_drop, dataFrom_add m p, List.take_append_drop]

/-- What `readEntries` answers was on the wire. -/
theorem readEntries_sound (h1 : 1 ≤ m.length) {n : Nat} {inv inv' : InverseAlphabet} {es : List Entry} {p : Nat}
    {t : Stream} (h : readEntries (endOf m) n inv (Stream.atPos m p) = .ok (some (inv', t))) (hk : Keys inv es)
    (hd : (es.map Prod.snd).Nodup) :
    ∃ new : List Entry, new.length = n ∧ (∀ e ∈ new, e.2.length ≤ 256) ∧ ((es ++ new).map Prod.snd).Nodup ∧
      Keys inv' (es ++ new) ∧ t = Stream.atPos m (p + (new.flatMap Entry.bits).length) ∧
      dataFrom m p = new.flatMap Entry.bits ++ dataFrom m (p + (new.flatMap Entry.bits).length) := by
  induction n generalizing inv es p with
  | zero =>
    rw [readEntries] at h; cases h
    exact ⟨[], rfl, by simp, by simpa using hd, by simpa using hk, by simp, by simp⟩
  | succ n ih =>
    have hE := endOf_le h1
    rw [readEntries] at h
    split at h
    · cases h
    · next h17 =>
      rw [atPos_pos] at h17
      rw [readBits_ok (.inr (by omega)), except_bind_ok] at h
      simp only at h
      rw [readBits_ok (.inr (by omega)), except_bind_ok] at h
      simp only [atPos_pos] at h
      split at h
      · cases h
      · next hc =>
        push Not at hc
        rw [takeBits_ok (.inr (by omega)), except_bind_ok] at h
        simp only at h
        split at h
        · cases h
        · next hl =>
          have hq := (hk.none_iff _).1 hl
          obtain ⟨new, hlen, h256, hnd, hk', ht, hdata⟩ := ih h (hk.cons _ hq) (by
            rw [List.map_append, List.map_singleton, List.nodup_append]
            exact ⟨hd, by simp, fun a ha b hb => by
              have : b = _ := List.mem_singleton.1 hb
              subst this; exact fun h' => hq (by rw [h'] at ha; exact ha)⟩)
          have he := entry_of_data (m := m) (p := p)
            (n := ofLsbFirst (((bufBits m).drop (p + 8)).take 9)) (by omega) rfl h1
          have hl' : (((bufBits m).drop (p + 8 + 9)).take (ofLsbFirst (((bufBits m).drop (p + 8)).take 9))).length =
              ofLsbFirst (((bufBits m).drop (p + 8)).take 9) := by simp; omega
          obtain ⟨e, hedef⟩ : ∃ e : Entry, e = (BitVec.ofNat 8 (ofLsbFirst (((bufBits m).drop p).take 8)),
            ((bufBits m).drop (p + 8 + 9)).take (ofLsbFirst (((bufBits m).drop (p + 8)).take 9))) := ⟨_, rfl⟩
          have he2 : e.2.length = ofLsbFirst (((bufBits m).drop (p + 8)).take 9) := by rw [hedef]; exact hl'
          rw [← hedef] at he hnd hk'
          rw [← he2] at he ht hdata hc
          have hpos : p + 8 + 9 + e.2.length + (new.flatMap Entry.bits).length =
              p + ((e :: new).flatMap Entry.bits).length := by
            rw [List.flatMap_cons, List.length_append, Entry.bits_length]; omega
          rw [hpos] at ht hdata
          refine ⟨e :: new, by simp [hlen], ?_, by simpa using hnd, by simpa using hk', ht, ?_⟩
          · intro x hm
            rcases List.mem_cons.1 hm with rfl | hm
            · exact hc.1
            · exact h256 x hm
          · rw [he, show p + (17 + e.2.length) = p + 8 + 9 + e.2.length by omega, hdata, List.flatMap_cons,
              List.append_assoc]

/-- What is on the wire `readEntries` answers. -/
theorem readEntries_complete (h1 : 1 ≤ m.length) {new : List Entry} {inv : InverseAlphabet} {es : List Entry} {p : Nat}
    {rest : List Bool} (hk : Keys inv es) (hd : ((es ++ new).map Prod.snd).Nodup) (h256 : ∀ e ∈ new, e.2.length ≤ 256)
    (hdata : dataFrom m p = new.flatMap Entry.bits ++ rest) :
    ∃ inv', readEntries (endOf m) new.length inv (Stream.atPos m p) =
        .ok (some (inv', Stream.atPos m (p + (new.flatMap Entry.bits).length))) ∧
      Keys inv' (es ++ new) ∧ dataFrom m (p + (new.flatMap Entry.bits).length) = rest := by
  induction new generalizing inv es p with
  | nil => exact ⟨inv, by simp [readEntries], by simpa using hk, by simpa using hdata⟩
  | cons e new ih =>
    have hE := endOf_le h1
    have he256 := h256 e (by simp)
    have hlen := dataFrom_length h1 p
    rw [hdata, List.flatMap_cons, List.append_assoc, List.length_append, Entry.bits_length] at hlen
    have h8 : ((bufBits m).drop p).take 8 = byteBits e.1 := by
      rw [← dataFrom_take (by omega), hdata, List.flatMap_cons, Entry.bits, List.append_assoc, List.append_assoc,
        List.append_assoc, List.take_left' (by simp)]
    have h9 : ((bufBits m).drop (p + 8)).take 9 = lsbFirst 9 e.2.length := by
      rw [← dataFrom_take (by omega), dataFrom_add, hdata, List.flatMap_cons, Entry.bits, List.append_assoc,
        List.append_assoc, List.append_assoc, List.drop_left' (by simp), List.take_left' (by simp)]
    have hc : ((bufBits m).drop (p + 8 + 9)).take e.2.length = e.2 := by
      rw [← dataFrom_take (by omega), dataFrom_add, dataFrom_add, hdata, List.flatMap_cons, Entry.bits,
        List.append_assoc, List.append_assoc, List.append_assoc, List.drop_left' (by simp), List.drop_left' (by simp),
        List.take_left' rfl]
    have h9' : ofLsbFirst (((bufBits m).drop (p + 8)).take 9) = e.2.length := by
      rw [h9]; exact ofLsbFirst_lsbFirst (by omega)
    rw [List.map_append, List.map_cons] at hd
    have hq : e.2 ∉ es.map Prod.snd := fun hm => by
      have := List.nodup_append.1 hd
      exact this.2.2 _ hm e.2 (by simp) rfl
    obtain ⟨inv', hr, hk', hrest⟩ := ih (inv := (seqHash e.2, e.1) :: inv) (es := es ++ [e]) (p := p + 8 + 9 + e.2.length)
      (hk.cons e.1 hq) (by simpa using hd) (fun x hx => h256 x (List.mem_cons_of_mem _ hx)) (by
        rw [dataFrom_add, dataFrom_add, dataFrom_add, List.drop_drop, List.drop_drop, hdata, List.flatMap_cons,
          List.append_assoc, List.drop_left' (by rw [Entry.bits_length]; omega)])
    refine ⟨inv', ?_, by simpa using hk', ?_⟩
    · rw [List.length_cons, readEntries, atPos_pos, if_neg (by omega), readBits_ok (.inr (by omega)), except_bind_ok]
      simp only
      rw [readBits_ok (.inr (by omega)), except_bind_ok]
      simp only [atPos_pos]
      rw [h9', if_neg (by push Not; omega), takeBits_ok (.inr (by omega)), except_bind_ok]
      simp only
      rw [hc, (hk.none_iff _).2 hq]
      simp only
      rw [h8, ofNat_ofLsbFirst_byteBits, hr, List.flatMap_cons, List.length_append, Entry.bits_length,
        show p + 8 + 9 + e.2.length + (new.flatMap Entry.bits).length =
          p + (17 + e.2.length + (new.flatMap Entry.bits).length) by omega]
    · rw [← hrest, List.flatMap_cons, List.length_append, Entry.bits_length]
      congr 1; omega

/-! ### The data (R175, R176) -/

theorem prefix_snoc {α : Type} {x q : List α} {b : α} (h : x <+: q ++ [b]) : x <+: q ∨ x = q ++ [b] := by
  rcases List.prefix_concat_iff.1 (by simpa using h) with h | h
  · exact .inr h
  · exact .inl h

/-- No codeword starts `q`. -/
def NoStart (es : List Entry) (q : Seq) : Prop := ∀ e ∈ es, e.2 ≠ [] → ¬ e.2 <+: q

theorem noStart_nil (es : List Entry) : NoStart es [] := fun _ _ hne h => hne (List.prefix_nil.1 h)

theorem takeBit {p : Nat} (h1 : 1 ≤ m.length) (h : p < endOf m) :
    ∃ b, (Stream.atPos m p).takeBits 1 = .ok ([b], Stream.atPos m (p + 1)) ∧ dataFrom m p = b :: dataFrom m (p + 1) := by
  have hE := endOf_le h1
  have hlen := dataFrom_length h1 p
  cases hd : dataFrom m p with
  | nil => rw [hd] at hlen; simp at hlen; omega
  | cons b rest =>
    refine ⟨b, ?_, ?_⟩
    · rw [takeBits_ok (.inr (by omega)), ← dataFrom_take (by omega), hd]; rfl
    · rw [dataFrom_add, hd]; rfl

/-- What the decode loop answers was on the wire, and so was what did not fit `OUT`. -/
theorem decodeBits_sound (h1 : 1 ≤ m.length) {inv : InverseAlphabet} {es : List Entry} (hk : Keys inv es) {n : Nat}
    {scratch : Seq} {p : Nat} {o : Memory} (hn : n = endOf m - p) (hs : NoStart es scratch) :
    (∀ r, decodeBits cfg inv n scratch (Stream.atPos m p) (Stream.atPos o (8 * o.length)) = .ok (some r) →
      ∃ words : List Entry, (∀ w ∈ words, Recognised es w) ∧ scratch ++ dataFrom m p = words.flatMap Prod.snd ∧
        r.2 = Stream.atPos (o ++ words.map Prod.fst) (8 * (o ++ words.map Prod.fst).length)) ∧
    (decodeBits cfg inv n scratch (Stream.atPos m p) (Stream.atPos o (8 * o.length)) = .error (.fatal .capacity) →
      ∃ (words : List Entry) (rest : List Bool), (∀ w ∈ words, Recognised es w) ∧
        scratch ++ dataFrom m p = words.flatMap Prod.snd ++ rest ∧
        cfg.bufFits (o ++ words.map Prod.fst).length = false) := by
  induction n generalizing scratch p o with
  | zero =>
    rw [decodeBits]
    refine ⟨fun r h => ?_, nofun⟩
    split at h
    · next hs0 =>
      cases h
      refine ⟨[], by simp, ?_, by simp⟩
      have := dataFrom_length h1 p
      rw [hs0, List.length_eq_zero_iff.1 (by omega : (dataFrom m p).length = 0)]; rfl
    · cases h
  | succ n ih =>
    obtain ⟨b, hb, hd⟩ := takeBit (m := m) (p := p) h1 (by omega)
    rw [decodeBits, hb, except_bind_ok]
    simp only
    split
    · next v hl =>
      have hw : Recognised es (v, scratch ++ [b]) := ⟨(hk _ _).1 hl, by simp, fun e he hne hpre =>
        (prefix_snoc hpre).resolve_left (hs e he hne)⟩
      rw [put_append]
      cases hc : canAppend cfg o
      · refine ⟨nofun, fun _ => ⟨[(v, scratch ++ [b])], dataFrom m (p + 1), by simpa using hw, by rw [hd]; simp, ?_⟩⟩
        simpa [canAppend] using hc
      · rw [if_pos rfl, except_bind_ok]
        obtain ⟨ih1, ih2⟩ := ih (p := p + 1) (o := o ++ [v]) (by omega) (noStart_nil es)
        refine ⟨fun r h => ?_, fun h => ?_⟩
        · obtain ⟨words, hws, hbits, hr⟩ := ih1 r h
          exact ⟨(v, scratch ++ [b]) :: words, by simpa using ⟨hw, fun _ _ h => hws _ h⟩,
            by rw [List.flatMap_cons, ← hbits, hd]; simp, by rw [hr]; simp⟩
        · obtain ⟨words, rest, hws, hbits, hr⟩ := ih2 h
          exact ⟨(v, scratch ++ [b]) :: words, rest, by simpa using ⟨hw, fun _ _ h => hws _ h⟩,
            by rw [List.flatMap_cons, List.append_assoc, ← hbits, hd]; simp, by simpa using hr⟩
    · next hl =>
      have := ih (p := p + 1) (o := o) (by omega) (scratch := scratch ++ [b]) (fun e he hne hpre => by
        rcases prefix_snoc hpre with hp | hp
        · exact hs e he hne hp
        · exact (hk.none_iff _).1 hl (List.mem_map.2 ⟨e, he, hp⟩))
      rw [hd]
      simpa using this

/-- One codeword on the wire: the loop puts its byte and goes on behind it, unless `OUT` is full. -/
theorem decodeBits_word (h1 : 1 ≤ m.length) {inv : InverseAlphabet} {es : List Entry} (hk : Keys inv es)
    (hd : (es.map Prod.snd).Nodup) {n : Nat} {scratch : Seq} {p : Nat} {o : Memory} {w : Entry} {rest : List Bool}
    (hn : n = endOf m - p) (hs : NoStart es scratch) (hw : Recognised es w) (hbits : scratch ++ dataFrom m p = w.2 ++ rest) :
    dataFrom m (p + (n - rest.length)) = rest ∧
    decodeBits cfg inv n scratch (Stream.atPos m p) (Stream.atPos o (8 * o.length)) =
      if canAppend cfg o then
        decodeBits cfg inv rest.length [] (Stream.atPos m (p + (n - rest.length)))
          (Stream.atPos (o ++ [w.1]) (8 * (o ++ [w.1]).length))
      else .error (.fatal .capacity) := by
  obtain ⟨hm, hne, hu⟩ := hw
  induction n generalizing scratch p with
  | zero =>
    have := dataFrom_length h1 p
    rw [List.length_eq_zero_iff.1 (by omega : (dataFrom m p).length = 0), List.append_nil] at hbits
    exact absurd (hbits ▸ List.prefix_append _ _) (hs w hm hne)
  | succ n ih =>
    obtain ⟨b, hb, hdat⟩ := takeBit (m := m) (p := p) h1 (by omega)
    have hlen := dataFrom_length h1 (p + 1)
    rw [decodeBits, hb, except_bind_ok]
    simp only
    have hbits' : (scratch ++ [b]) ++ dataFrom m (p + 1) = w.2 ++ rest := by rw [← hbits, hdat]; simp
    split
    · next v hl =>
      have hmv := (hk _ _).1 hl
      have hsw : scratch ++ [b] = w.2 := by
        have hp' : scratch ++ [b] <+: w.2 ++ rest := hbits' ▸ List.prefix_append _ _
        rcases Nat.le_total (scratch ++ [b]).length w.2.length with hle | hle
        · exact hu _ hmv (by simp) (List.prefix_of_prefix_length_le hp' (List.prefix_append _ _) hle)
        · have hp : w.2 <+: scratch ++ [b] := List.prefix_of_prefix_length_le (List.prefix_append _ _) hp' hle
          exact ((prefix_snoc hp).resolve_left (hs w hm hne)).symm
      have hv : w.1 = v := by rw [← List.inj_on_of_nodup_map hd hmv hm hsw]
      have hrest : dataFrom m (p + 1) = rest := by rw [hsw] at hbits'; exact List.append_cancel_left hbits'
      rw [hrest] at hlen
      rw [put_append, show p + (n + 1 - rest.length) = p + 1 by omega, hv, show n = rest.length by omega]
      refine ⟨hrest, ?_⟩
      cases canAppend cfg o <;> rfl
    · next hl =>
      have hle : rest.length ≤ n := by
        have := congrArg List.length hbits'
        have hlt : (scratch ++ [b]).length ≤ w.2.length := by
          rcases Nat.le_total (scratch ++ [b]).length w.2.length with h | h
          · exact h
          · have hp : w.2 <+: scratch ++ [b] := List.prefix_of_prefix_length_le (List.prefix_append _ _)
              (hbits' ▸ List.prefix_append _ _) h
            rcases prefix_snoc hp with hp | hp
            · exact absurd hp (hs w hm hne)
            · exact absurd (List.mem_map.2 ⟨w, hm, hp⟩) ((hk.none_iff _).1 hl)
        simp only [List.length_append] at this hlt
        omega
      have := ih (p := p + 1) (scratch := scratch ++ [b]) (by omega) (fun e he hne' hpre => by
        rcases prefix_snoc hpre with hp | hp
        · exact hs e he hne' hp
        · exact (hk.none_iff _).1 hl (List.mem_map.2 ⟨e, he, hp⟩)) hbits'
      rwa [show p + 1 + (n - rest.length) = p + (n + 1 - rest.length) by omega] at this

/-- Codewords on the wire: the loop puts their bytes and goes on behind them, unless `OUT` is too small. -/
theorem decodeBits_words (h1 : 1 ≤ m.length) {inv : InverseAlphabet} {es : List Entry} (hk : Keys inv es)
    (hd : (es.map Prod.snd).Nodup) {n p : Nat} {o : Memory} {words : List Entry} {rest : List Bool}
    (hn : n = endOf m - p) (hw : ∀ w ∈ words, Recognised es w) (hbits : dataFrom m p = words.flatMap Prod.snd ++ rest)
    (ho : cfg.bufFits o.length = true) :
    decodeBits cfg inv n [] (Stream.atPos m p) (Stream.atPos o (8 * o.length)) =
      if cfg.bufFits (o ++ words.map Prod.fst).length then
        decodeBits cfg inv rest.length [] (Stream.atPos m (p + (n - rest.length)))
          (Stream.atPos (o ++ words.map Prod.fst) (8 * (o ++ words.map Prod.fst).length))
      else .error (.fatal .capacity) := by
  induction words generalizing p n o with
  | nil =>
    have := dataFrom_length h1 p
    rw [hbits] at this
    have : n = rest.length := by simp at this; omega
    simp [ho, this]
  | cons w ws ih =>
    obtain ⟨hrest, hdec⟩ := decodeBits_word (cfg := cfg) (o := o) h1 hk hd hn (noStart_nil es) (hw w (by simp))
      (rest := ws.flatMap Prod.snd ++ rest) (by rw [List.nil_append, hbits, List.flatMap_cons, List.append_assoc])
    have hlen := dataFrom_length h1 p
    have happ : o ++ (w :: ws).map Prod.fst = (o ++ [w.1]) ++ ws.map Prod.fst := by simp
    rw [hdec, happ]
    cases hc : canAppend cfg o
    · have hnf : cfg.bufFits ((o ++ [w.1]) ++ ws.map Prod.fst).length = false := by
        cases hx : cfg.bufFits ((o ++ [w.1]) ++ ws.map Prod.fst).length
        · rfl
        · have := bufFits_mono hx (a := o.length + 1) (by simp)
          unfold canAppend at hc; rw [this] at hc; cases hc
      rw [hnf]; rfl
    · rw [if_pos rfl, ih (by
        have := dataFrom_length h1 (p + (n - (ws.flatMap Prod.snd ++ rest).length)); rw [hrest] at this; exact this)
        (fun x hx => hw x (List.mem_cons_of_mem _ hx)) hrest (by simpa [canAppend] using hc)]
      rw [hbits, List.flatMap_cons] at hlen
      simp only [List.length_append] at hlen ⊢
      rw [show p + (n - ((ws.flatMap Prod.snd).length + rest.length)) +
        ((ws.flatMap Prod.snd).length + rest.length - rest.length) = p + (n - rest.length) by omega]

/-! ### The decoder -/

/-- The header reads (R173). -/
theorem header_reads (h2 : 2 ≤ m.length) :
    (Stream.fresh m).readBits 3 = .ok (fbiOf m, Stream.atPos m 3) ∧
    (Stream.atPos m 3).readBits 9 = .ok (alphaSizeOf m, Stream.atPos m 12) := by
  rw [fresh_eq_atPos, readBits_ok (.inr (by omega)), readBits_ok (.inr (by omega))]
  exact ⟨rfl, rfl⟩

/-- What a buffer starts with is put, unless `OUT` is too small for it (R175). -/
theorem hufDecode_of_starts {out : List Byte} {rest : List Bool} (h : HufStarts m out rest) (hz : cfg.bufFits 0 = true) :
    ∃ inv, hufDecode cfg (Stream.fresh m) Stream.empty =
      if cfg.bufFits out.length then
        decodeBits cfg inv rest.length [] (Stream.atPos m (max (endOf m) 12 - rest.length)) (Stream.atPos out (8 * out.length))
      else .error (.fatal .capacity) := by
  obtain ⟨h2, h256, es, words, hlen, hl, hnd, hrec, hdata, rfl⟩ := h
  have h1 : 1 ≤ m.length := by omega
  obtain ⟨hr3, hr9⟩ := header_reads h2
  obtain ⟨inv, hre, hk, hrest⟩ := readEntries_complete (m := m) h1 (new := es) (p := 12) keys_nil (by simpa using hnd) hl hdata
  refine ⟨inv, ?_⟩
  rw [hufDecode, fresh_buf, if_neg (by omega), hr3, except_bind_ok]
  simp only
  rw [hr9, except_bind_ok]
  simp only [atPos_buf]
  rw [if_neg (by omega), ← hlen]
  change (readEntries (endOf m) es.length [] (Stream.atPos m 12) >>= _) = _
  rw [hre, except_bind_ok]
  simp only [atPos_pos]
  have hd12 := dataFrom_length h1 12
  rw [hdata, List.length_append, List.length_append] at hd12
  have hle : es = [] ∨ 12 + (es.flatMap Entry.bits).length ≤ endOf m := by
    by_cases h : es = []
    · exact .inl h
    · right
      obtain ⟨e, es', rfl⟩ := List.exists_cons_of_ne_nil h
      rw [List.flatMap_cons, List.length_append, Entry.bits_length] at *
      omega
  have := decodeBits_words (cfg := cfg) h1 hk (by simpa using hnd) (n := endOf m - (12 + (es.flatMap Entry.bits).length))
    (p := 12 + (es.flatMap Entry.bits).length) (o := []) (words := words) (rest := rest) rfl
    (by simpa using hrec) hrest hz
  rw [List.nil_append] at this
  have e : 12 + (es.flatMap Entry.bits).length + (endOf m - (12 + (es.flatMap Entry.bits).length) - rest.length) =
      max (endOf m) 12 - rest.length := by
    rcases hle with rfl | hle
    · simp at hd12 ⊢; omega
    · omega
  rw [e] at this
  exact this

/-- A buffer that reads as `out` decodes to `out`, unless `OUT` is too small for it (R177). -/
theorem hufDecode_of_reads {out : List Byte} (h : HufReads m out) (hz : cfg.bufFits 0 = true) :
    hufDecode cfg (Stream.fresh m) Stream.empty =
      if cfg.bufFits out.length then
        .ok (some (Stream.atPos m (max (endOf m) 12), Stream.atPos out (8 * out.length)))
      else .error (.fatal .capacity) := by
  obtain ⟨inv, h⟩ := hufDecode_of_starts h hz
  simpa [decodeBits] using h

/-- What decodes with `true` reads as its output (R177); what overflows `OUT` starts with more than fits. -/
theorem hufDecode_sound :
    (∀ p, hufDecode cfg (Stream.fresh m) Stream.empty = .ok (some p) →
      ∃ out, HufReads m out ∧ p.2 = Stream.atPos out (8 * out.length)) ∧
    (hufDecode cfg (Stream.fresh m) Stream.empty = .error (.fatal .capacity) →
      ∃ out rest, HufStarts m out rest ∧ cfg.bufFits out.length = false) := by
  rw [hufDecode, fresh_buf]
  split
  · exact ⟨nofun, nofun⟩
  · next h2 =>
    have h1 : 1 ≤ m.length := by omega
    obtain ⟨hr3, hr9⟩ := header_reads (m := m) (by omega)
    rw [hr3, except_bind_ok]
    simp only
    rw [hr9, except_bind_ok]
    simp only [atPos_buf]
    split
    · exact ⟨nofun, nofun⟩
    · next h256 =>
      change (∀ p, (readEntries (endOf m) (alphaSizeOf m) [] (Stream.atPos m 12) >>= _) = _ → _) ∧
        ((readEntries (endOf m) (alphaSizeOf m) [] (Stream.atPos m 12) >>= _) = _ → _)
      have hE := endOf_le h1
      have ha := readEntries_answers (e := endOf m) (alphaSizeOf m) [] (Stream.atPos m 12) (by simpa using hE)
      rcases hre : readEntries (endOf m) (alphaSizeOf m) [] (Stream.atPos m 12) with c | (_ | ⟨inv, t⟩)
      · rw [hre] at ha; exact absurd ha (by cases c <;> simp [Answers])
      · exact ⟨nofun, nofun⟩
      · obtain ⟨es, hlen, hl, hnd, hk, rfl, hdata⟩ := readEntries_sound h1 hre keys_nil (by simp)
        rw [List.nil_append] at hnd hk
        rw [except_bind_ok]
        simp only [atPos_pos]
        obtain ⟨ho, hf⟩ := decodeBits_sound (cfg := cfg) (o := []) h1 hk rfl (noStart_nil es)
          (p := 12 + (es.flatMap Entry.bits).length)
        refine ⟨fun p h => ?_, fun h => ?_⟩
        · obtain ⟨words, hrec, hw, hp⟩ := ho p h
          rw [List.nil_append] at hw
          exact ⟨words.map Prod.fst, ⟨by omega, by omega, es, words, hlen, hl, hnd, hrec, by rw [hdata, hw, List.append_nil],
            rfl⟩, by simpa using hp⟩
        · obtain ⟨words, rest, hrec, hw, hp⟩ := hf h
          rw [List.nil_append] at hw hp
          exact ⟨words.map Prod.fst, rest, ⟨by omega, by omega, es, words, hlen, hl, hnd, hrec, by rw [hdata, hw], rfl⟩, hp⟩

theorem hufReads_of_decode {p : Stream × Stream}
    (h : hufDecode cfg (Stream.fresh m) Stream.empty = .ok (some p)) :
    ∃ out, HufReads m out ∧ p.2 = Stream.atPos out (8 * out.length) := hufDecode_sound.1 p h

/-- A buffer reads in one way only. -/
theorem HufReads.unique {out out' : List Byte} (h : HufReads m out) (h' : HufReads m out') : out = out' := by
  have hz : Config.unbounded.bufFits 0 = true := rfl
  have e := hufDecode_of_reads h hz
  rw [hufDecode_of_reads h' hz, if_pos (bufFits_unbounded rfl _), if_pos (bufFits_unbounded rfl _)] at e
  simp only [Except.ok.injEq, Option.some.injEq, Prod.mk.injEq, true_and] at e
  exact (congrArg Stream.buf e).symm

/-- A buffer that reads as nothing, and starts with nothing that does not fit, decodes to `false` (R177). -/
theorem hufDecode_of_not_reads (h : ∀ out, ¬ HufReads m out)
    (hs : ∀ out rest, HufStarts m out rest → cfg.bufFits out.length = true) (hz : cfg.bufFits 0 = true) :
    hufDecode cfg (Stream.fresh m) Stream.empty = .ok none := by
  have ha := hufDecode_answers hz m
  rcases hr : hufDecode cfg (Stream.fresh m) Stream.empty with (c | _) | (_ | p)
  · rw [hr] at ha
    obtain rfl : c = .capacity := by simpa [Answers] using ha
    obtain ⟨out, rest, ho, hf⟩ := hufDecode_sound.2 hr
    rw [hs out rest ho] at hf; cases hf
  · rw [hr] at ha; exact absurd ha (by simp [Answers])
  · rfl
  · obtain ⟨out, ho, -⟩ := hufReads_of_decode hr
    exact absurd ho (h out)

/-- A codeword takes a bit or more, so an output has no more bytes than its input has bits. -/
theorem HufStarts.length_le {out : List Byte} {rest : List Bool} (h : HufStarts m out rest) : out.length ≤ 8 * m.length := by
  obtain ⟨h2, -, es, words, -, -, -, hrec, hdata, rfl⟩ := h
  have hw : words.length ≤ (words.flatMap Prod.snd).length := by
    clear hdata
    induction words with
    | nil => simp
    | cons w ws ih =>
      have := List.length_pos_iff.2 (hrec w (by simp)).2.1
      have := ih fun x hx => hrec x (List.mem_cons_of_mem _ hx)
      rw [List.flatMap_cons, List.length_append, List.length_cons]; omega
  have hlen := dataFrom_length (show 1 ≤ m.length by omega) 12
  have hE := endOf_le (show 1 ≤ m.length by omega)
  rw [hdata, List.length_append, List.length_append] at hlen
  rw [List.length_map]; omega

end Sys2Proof.Machine
end

