-- ==== Sys2Proof/Laws/HuffmanTree.lean ====
section
/-! SUPPORT. The alphabet of an input (R161 to R167): its bytes, its codewords, and that no codeword starts another. -/

namespace Sys2Proof.Machine

/-! ### The distinct bytes (R161) -/

theorem freq_eq_count (data : List Byte) (v : Byte) : freq data v = data.count v := by
  unfold freq List.count
  congr 1
  funext x
  rw [Bool.eq_iff_iff]
  simp [BitVec.toNat_inj]

theorem freq_pos {data : List Byte} {v : Byte} : 0 < freq data v ↔ v ∈ data := by
  rw [freq_eq_count, List.count_pos_iff]

theorem mem_allBytes (v : Byte) : v ∈ allBytes :=
  List.mem_map.2 ⟨v.toNat, List.mem_range.2 v.isLt, by simp⟩

theorem allBytes_sorted : allBytes.Pairwise fun v w => v.toNat < w.toNat := by
  unfold allBytes
  rw [List.pairwise_map]
  refine List.Pairwise.imp_of_mem ?_ List.pairwise_lt_range
  intro a b ha hb h
  rw [List.mem_range] at ha hb
  rw [BitVec.toNat_ofNat, BitVec.toNat_ofNat, Nat.mod_eq_of_lt ha, Nat.mod_eq_of_lt hb]; exact h

theorem mem_distinctBytes {data : List Byte} {v : Byte} : v ∈ distinctBytes data ↔ v ∈ data := by
  simp [distinctBytes, mem_allBytes, freq_pos]

/-- Ascending byte value (R162, R168). -/
theorem distinctBytes_sorted (data : List Byte) : (distinctBytes data).Pairwise fun v w => v.toNat < w.toNat :=
  allBytes_sorted.filter _

theorem distinctBytes_nodup (data : List Byte) : (distinctBytes data).Nodup :=
  (distinctBytes_sorted data).imp fun h => by rintro rfl; exact absurd h (Nat.lt_irrefl _)

/-- An alphabet has at most 256 entries (R253). -/
theorem distinctBytes_length_le (data : List Byte) : (distinctBytes data).length ≤ 256 := by
  have := List.length_filter_le (fun v => 0 < freq data v) allBytes
  have h : allBytes.length = 256 := by simp [allBytes]
  unfold distinctBytes; omega

theorem distinctBytes_eq_nil {data : List Byte} : distinctBytes data = [] ↔ data = [] := by
  constructor
  · intro h
    cases data with
    | nil => rfl
    | cons v vs => have := mem_distinctBytes.2 (List.mem_cons_self (a := v) (l := vs)); rw [h] at this; cases this
  · rintro rfl; exact List.eq_nil_iff_forall_not_mem.2 fun v hv => by simpa using mem_distinctBytes.1 hv

/-! ### Extraction (R164) -/

theorem extractMin_perm (x : Node) (ys : List Node) :
    ((extractMin x ys).1 :: (extractMin x ys).2).Perm (x :: ys) := by
  induction ys generalizing x with
  | nil => exact .refl _
  | cons y ys ih =>
    rw [extractMin]
    split
    · exact .refl _
    · exact (List.Perm.swap _ _ _).trans ((ih y).cons x)

theorem extractMin_length (x : Node) (ys : List Node) : (extractMin x ys).2.length = ys.length := by
  have := (extractMin_perm x ys).length_eq; simpa using this

theorem before_total (x y : Node) : x.before y = true ∨ y.before x = true ∨ (x.freq = y.freq ∧ x.num = y.num) := by
  simp [Node.before]; omega

/-- The member taken goes before, or ties with, every member left. -/
theorem extractMin_le (x : Node) (ys : List Node) :
    ∀ y ∈ (extractMin x ys).2, y.before (extractMin x ys).1 = false := by
  induction ys generalizing x with
  | nil => simp [extractMin]
  | cons z ys ih =>
    rw [extractMin]
    split
    · next h =>
      intro y hy
      simp only at hy
      have hz := ih z
      have hmem : y = (extractMin z ys).1 ∨ y ∈ (extractMin z ys).2 :=
        List.mem_cons.1 ((extractMin_perm z ys).mem_iff.2 hy)
      rcases hmem with rfl | hm
      · simp [Node.before] at h ⊢; omega
      · have := hz y hm
        simp [Node.before] at h this ⊢; omega
    · next h =>
      intro y hy
      rcases List.mem_cons.1 hy with rfl | hy
      · simpa using h
      · exact ih z y hy

/-! ### Trees -/

/-- The bytes of a tree's leaves, in the order of the walk. -/
def Tree.bytes : Tree → List Byte
  | .leaf v => [v]
  | .internal x y => x.bytes ++ y.bytes

theorem Tree.bytes_ne_nil (t : Tree) : t.bytes ≠ [] := by
  induction t with
  | leaf v => simp [Tree.bytes]
  | internal x y hx hy => simp [Tree.bytes, hx]

theorem Tree.codes_bytes (t : Tree) (path : Seq) : (t.codes path).map Prod.fst = t.bytes := by
  induction t generalizing path with
  | leaf v => rfl
  | internal x y hx hy => simp [Tree.codes, Tree.bytes, hx, hy]

/-- Every codeword starts with the path to the tree. -/
theorem Tree.codes_path {t : Tree} {path : Seq} {e : Byte × Seq} (h : e ∈ t.codes path) : path <+: e.2 := by
  induction t generalizing path with
  | leaf v => simp [Tree.codes] at h; subst h; exact List.prefix_refl _
  | internal x y hx hy =>
    simp only [Tree.codes, List.mem_append] at h
    rcases h with h | h
    · exact (List.prefix_append _ _).trans (hx h)
    · exact (List.prefix_append _ _).trans (hy h)

/-- A path and its two children start differently. -/
theorem not_prefix_of_branch {path q r : Seq} {b c : Bool} (hq : path ++ [b] <+: q) (hr : path ++ [c] <+: r)
    (hbc : b ≠ c) : ¬ q <+: r := by
  intro h
  have h1 : path ++ [b] <+: r := hq.trans h
  have := List.prefix_of_prefix_length_le h1 hr (by simp)
  have := this.eq_of_length (by simp)
  simp at this; exact hbc this

/-- Prefix-free (R167): two places of the walk never hold codewords one of which starts the other. -/
theorem Tree.codes_prefixFree (t : Tree) (path : Seq) :
    (t.codes path).Pairwise fun e e' => ¬ e.2 <+: e'.2 ∧ ¬ e'.2 <+: e.2 := by
  induction t generalizing path with
  | leaf v => simp [Tree.codes]
  | internal x y hx hy =>
    rw [Tree.codes, List.pairwise_append]
    exact ⟨hx _, hy _, fun e he e' he' =>
      ⟨not_prefix_of_branch (Tree.codes_path he) (Tree.codes_path he') (by simp),
       not_prefix_of_branch (Tree.codes_path he') (Tree.codes_path he) (by simp)⟩⟩

/-- A codeword is no longer than the other leaves are many (R167). -/
theorem Tree.codes_length_le {t : Tree} {path : Seq} {e : Byte × Seq} (h : e ∈ t.codes path) :
    e.2.length + 1 ≤ path.length + t.bytes.length := by
  induction t generalizing path with
  | leaf v => simp [Tree.codes] at h; subst h; simp [Tree.bytes]
  | internal x y hx hy =>
    have h1 := List.length_pos_iff.2 x.bytes_ne_nil
    have h2 := List.length_pos_iff.2 y.bytes_ne_nil
    simp only [Tree.codes, List.mem_append] at h
    simp only [Tree.bytes, List.length_append]
    rcases h with h | h
    · have := hx h; simp at this; omega
    · have := hy h; simp at this; omega

/-- In a tree of two leaves or more no codeword is empty (R167). -/
theorem Tree.codes_ne_path {t : Tree} {path : Seq} {e : Byte × Seq} (h : e ∈ t.codes path) (h2 : 2 ≤ t.bytes.length) :
    path.length < e.2.length := by
  cases t with
  | leaf v => simp [Tree.bytes] at h2
  | internal x y =>
    simp only [Tree.codes, List.mem_append] at h
    rcases h with h | h
    · have := (Tree.codes_path h).length_le; simp at this; omega
    · have := (Tree.codes_path h).length_le; simp at this; omega

/-- Every codeword of the walk is the path to its leaf, behind the path to the tree (R166). -/
theorem Tree.codes_pathTo {t : Tree} {path : Seq} {e : Byte × Seq} (h : e ∈ t.codes path) :
    ∃ q, e.2 = path ++ q ∧ PathTo t e.1 q := by
  induction t generalizing path with
  | leaf v => simp [Tree.codes] at h; subst h; exact ⟨[], by simp, .leaf v⟩
  | internal x y hx hy =>
    simp only [Tree.codes, List.mem_append] at h
    rcases h with h | h
    · obtain ⟨q, hq, hp⟩ := hx h; exact ⟨true :: q, by simp [hq], .first hp⟩
    · obtain ⟨q, hq, hp⟩ := hy h; exact ⟨false :: q, by simp [hq], .second hp⟩

/-! ### The merges (R163) -/

/-- The order of the list that holds a working set does not matter. -/
theorem MergesTo.of_perm {next : Nat} {w w' : List Node} {r : Node} (h : MergesTo next w r) (hp : w.Perm w') :
    MergesTo next w' r := by
  cases h with
  | root => rw [List.perm_singleton.1 hp.symm]; exact .root _ _
  | merge members least leastOfRest go => exact .merge (hp.symm.trans members) least leastOfRest go

/-- The leaf bytes of a working set. -/
def setBytes (w : List Node) : List Byte := w.flatMap fun n => n.tree.bytes

theorem setBytes_perm {w w' : List Node} (h : w.Perm w') : (setBytes w).Perm (setBytes w') :=
  h.flatMap_right _

/-- The loop ends with one node, which holds the leaves of the whole set. -/
theorem mergeAll_spec {n next : Nat} {w : List Node} (h : w.length = n) (hw : w ≠ []) :
    ∃ root, mergeAll n next w = [root] ∧ root.tree.bytes.Perm (setBytes w) := by
  induction n generalizing next w with
  | zero => exact absurd (List.length_eq_zero_iff.1 h) hw
  | succ n ih =>
    cases w with
    | nil => exact absurd rfl hw
    | cons x ys =>
      have hp := extractMin_perm x ys
      have hl := extractMin_length x ys
      rw [mergeAll]
      generalize extractMin x ys = r at hp hl ⊢
      obtain ⟨a, as⟩ := r
      cases as with
      | nil => exact ⟨a, rfl, by have := setBytes_perm hp; simpa [setBytes] using this⟩
      | cons z zs =>
        have hp' := extractMin_perm z zs
        have hl' := extractMin_length z zs
        simp only
        generalize extractMin z zs = r at hp' hl' ⊢
        obtain ⟨b, bs⟩ := r
        simp only at *
        obtain ⟨root, hr, hb⟩ := ih (next := next + 1)
          (w := bs ++ [{ freq := a.freq + b.freq, num := next, tree := .internal a.tree b.tree }])
          (by simp at h hl ⊢; omega) (by simp)
        refine ⟨root, hr, hb.trans ?_⟩
        refine List.Perm.trans ?_ (setBytes_perm hp)
        refine List.Perm.trans ?_ (List.Perm.append_left _ (setBytes_perm hp'))
        simp only [setBytes, List.flatMap_append, List.flatMap_cons, List.flatMap_nil, Tree.bytes, List.append_nil]
        rw [← List.append_assoc a.tree.bytes]
        exact List.perm_append_comm

theorem extractMin_taken (x : Node) (ys : List Node) (hd : ((x :: ys).map Node.num).Nodup) :
    ∀ z ∈ (extractMin x ys).2, TakenBefore (extractMin x ys).1 z := by
  intro z hz
  have h := extractMin_le x ys z hz
  have hp := (extractMin_perm x ys).map Node.num
  have hne : (extractMin x ys).1.num ≠ z.num := fun he =>
    (List.nodup_cons.1 (hp.nodup_iff.2 hd)).1 (he ▸ List.mem_map.2 ⟨z, hz, rfl⟩)
  simp [Node.before] at h
  unfold TakenBefore; omega

/-- A working set of the loop (R163): the node numbers are distinct and below the next one. -/
structure SetOk (next : Nat) (w : List Node) : Prop where
  nodup : (w.map Node.num).Nodup
  below : ∀ z ∈ w, z.num < next

/-- The loop does what R163 says: it takes the least node, the least of the rest, and puts their parent in; the root has
the set's frequency, and number `next + n - 2` when there are `n` nodes, two or more. -/
theorem mergeAll_merges {n next : Nat} {w : List Node} (h : w.length = n) (hw : w ≠ []) (hok : SetOk next w) :
    ∃ root, mergeAll n next w = [root] ∧ MergesTo next w root ∧ root.freq = (w.map Node.freq).sum ∧
      (2 ≤ n → root.num = next + n - 2) := by
  induction n generalizing next w with
  | zero => exact absurd (List.length_eq_zero_iff.1 h) hw
  | succ n ih =>
    cases w with
    | nil => exact absurd rfl hw
    | cons x ys =>
      have hp := extractMin_perm x ys
      have hl := extractMin_length x ys
      have ht := extractMin_taken x ys hok.nodup
      rw [mergeAll]
      generalize extractMin x ys = r at hp hl ht ⊢
      obtain ⟨a, as⟩ := r
      cases as with
      | nil =>
        obtain rfl : ys = [] := List.length_eq_zero_iff.1 (by simpa using hl.symm)
        obtain rfl : a = x := by simpa using hp
        exact ⟨a, rfl, .root _ _, by simp, fun h2 => by simp at h; omega⟩
      | cons z zs =>
        have hn : ((z :: zs).map Node.num).Nodup :=
          (List.nodup_cons.1 ((hp.map Node.num).nodup_iff.2 hok.nodup)).2
        have hp' := extractMin_perm z zs
        have hl' := extractMin_length z zs
        have ht' := extractMin_taken z zs hn
        simp only
        generalize extractMin z zs = r at hp' hl' ht' ⊢
        obtain ⟨b, bs⟩ := r
        simp only at *
        have hall : (x :: ys).Perm (a :: b :: bs) := hp.symm.trans (hp'.symm.cons a)
        have hbn : (bs.map Node.num).Nodup := (List.nodup_cons.1 ((hp'.map Node.num).nodup_iff.2 hn)).2
        have hbelow : ∀ c ∈ bs, c.num < next := fun c hc => hok.below c (hall.mem_iff.2 (by simp [hc]))
        obtain ⟨root, hr, hm, hf, hnum⟩ := ih (next := next + 1)
          (w := bs ++ [{ freq := a.freq + b.freq, num := next, tree := .internal a.tree b.tree }])
          (by simp at h hl ⊢; omega) (by simp) ⟨by
            rw [List.map_append, List.nodup_append]
            refine ⟨hbn, by simp, fun i hi j hj => ?_⟩
            obtain ⟨c, hc, rfl⟩ := List.mem_map.1 hi
            have := hbelow c hc
            simp at hj; omega, fun c hc => by
            rcases List.mem_append.1 hc with hc | hc
            · exact Nat.lt_succ_of_lt (hbelow c hc)
            · rw [List.mem_singleton.1 hc]; exact Nat.lt_succ_self _⟩
        have hperm : (bs ++ [({ freq := a.freq + b.freq, num := next, tree := .internal a.tree b.tree } : Node)]).Perm
            ({ freq := a.freq + b.freq, num := next, tree := .internal a.tree b.tree } :: bs) := by
          simp
        have hgo : MergesTo (next + 1)
            ({ freq := a.freq + b.freq, num := next, tree := .internal a.tree b.tree } :: bs) root := hm.of_perm hperm
        refine ⟨root, hr, .merge hall (fun c hc => ht c (hp'.mem_iff.1 hc)) ht' hgo, ?_, fun h2 => ?_⟩
        · rw [hf, (hall.map Node.freq).sum_eq]; simp; omega
        · have hbl : bs.length + 1 = n := by simp at h hl; omega
          rcases Nat.lt_or_ge n 2 with hn2 | hn2
          · obtain rfl : bs = [] := List.length_eq_zero_iff.1 (by omega)
            cases n with
            | zero => omega
            | succ n =>
              have : n = 0 := by simpa using hbl.symm
              subst this
              simp [mergeAll, extractMin] at hr
              rw [← hr]; rfl
          · rw [hnum hn2]; omega

theorem leaves_length (data : List Byte) : (leaves data).length = (distinctBytes data).length := by simp [leaves]

theorem setBytes_leaves (data : List Byte) : setBytes (leaves data) = distinctBytes data := by
  have h : ∀ (l : List Byte) (k : Nat), (l.zipIdx k).flatMap (fun p => [p.1]) = l := by
    intro l
    induction l with
    | nil => intro k; rfl
    | cons v l ih => intro k; simp [List.zipIdx_cons, ih]
  rw [setBytes, leaves, List.flatMap_map]
  exact h _ 0

/-- The root (R163): a tree of the distinct bytes. -/
theorem huffTree_spec {data : List Byte} (h : data ≠ []) :
    ∃ t, huffTree data = some t ∧ t.bytes.Perm (distinctBytes data) := by
  obtain ⟨root, hr, hb⟩ := mergeAll_spec (next := (leaves data).length) (w := leaves data) rfl (by
    rw [ne_eq, ← List.length_eq_zero_iff, leaves_length, List.length_eq_zero_iff, distinctBytes_eq_nil]; exact h)
  exact ⟨root.tree, by rw [huffTree, hr]; rfl, by rw [setBytes_leaves] at hb; exact hb⟩

/-- The leaves (R162) are a working set; `k` is the number of the next node. -/
theorem leaves_setOk (data : List Byte) : SetOk (leaves data).length (leaves data) := by
  have h : (leaves data).map Node.num = List.range (leaves data).length := by
    rw [leaves_length, leaves, List.map_map, List.range_eq_range', ← List.zipIdx_map_snd]; rfl
  refine ⟨h ▸ List.nodup_range, fun z hz => ?_⟩
  have := h ▸ List.mem_map.2 ⟨z, hz, rfl⟩
  exact List.mem_range.1 this

theorem huffTree_nil : huffTree [] = none := by decide

/-! ### The alphabet (R166) -/

theorem lookup_of_mem {α β : Type} [DecidableEq α] {l : List (α × β)} (hd : (l.map Prod.fst).Nodup) {a : α} {b : β}
    (h : (a, b) ∈ l) : l.lookup a = some b := by
  induction l with
  | nil => cases h
  | cons p l ih =>
    obtain ⟨x, y⟩ := p
    rw [List.map_cons, List.nodup_cons] at hd
    rw [List.lookup_cons]
    rcases List.mem_cons.1 h with h | h
    · cases h; simp
    · have hne : a ≠ x := by
        intro hax
        exact hd.1 (List.mem_map.2 ⟨(a, b), h, hax⟩)
      have : (a == x) = false := by simpa using hne
      rw [this]; exact ih hd.2 h

/-- The alphabet of a non-empty input is the walk of a tree of its distinct bytes. -/
theorem alphabet_spec {data : List Byte} (h : data ≠ []) :
    ∃ t : Tree, alphabet data = t.codes [] ∧ t.bytes.Perm (distinctBytes data) ∧ ((alphabet data).map Prod.fst).Nodup := by
  obtain ⟨t, ht, hb⟩ := huffTree_spec h
  refine ⟨t, by rw [alphabet, ht], hb, ?_⟩
  rw [alphabet, ht, Tree.codes_bytes]
  exact hb.nodup_iff.2 (distinctBytes_nodup data)

/-- Every byte of the input has its codeword in the alphabet (R169). -/
theorem codeOf_mem {data : List Byte} {v : Byte} (hv : v ∈ data) : (v, codeOf (alphabet data) v) ∈ alphabet data := by
  obtain ⟨t, ht, hb, hn⟩ := alphabet_spec (List.ne_nil_of_mem hv)
  have hm : v ∈ (alphabet data).map Prod.fst := by
    rw [ht, Tree.codes_bytes]; exact hb.mem_iff.2 (mem_distinctBytes.2 hv)
  obtain ⟨⟨w, q⟩, hmem, he⟩ := List.mem_map.1 hm
  simp only at he
  subst he
  have : codeOf (alphabet data) w = q := by rw [codeOf, lookup_of_mem hn hmem]; rfl
  rw [this]; exact hmem

/-- No codeword of the alphabet starts another (R167). -/
theorem codeOf_prefixFree {data : List Byte} {v w : Byte} (hv : v ∈ data) (hw : w ∈ data) (hne : v ≠ w) :
    ¬ codeOf (alphabet data) v <+: codeOf (alphabet data) w := by
  obtain ⟨t, ht, -, -⟩ := alphabet_spec (List.ne_nil_of_mem hv)
  have h1 := codeOf_mem hv
  have h2 := codeOf_mem hw
  have hp := t.codes_prefixFree []
  rw [← ht] at hp
  have hs : ∀ e ∈ alphabet data, ∀ e' ∈ alphabet data, e ≠ e' → ¬ e.2 <+: e'.2 ∧ ¬ e'.2 <+: e.2 := by
    intro e he e' he' hne
    have hsymm : Std.Symm fun e e' : Byte × Seq => ¬ e.2 <+: e'.2 ∧ ¬ e'.2 <+: e.2 := ⟨fun _ _ h => ⟨h.2, h.1⟩⟩
    exact hp.forall he he' hne
  exact (hs _ h1 _ h2 (by simp [hne])).1

/-- Codeword lengths (R167): below the number of entries, and not 0 when there are two or more. -/
theorem codeOf_length_lt {data : List Byte} {v : Byte} (hv : v ∈ data) :
    (codeOf (alphabet data) v).length < (distinctBytes data).length := by
  obtain ⟨t, ht, hb, -⟩ := alphabet_spec (List.ne_nil_of_mem hv)
  have hm := codeOf_mem hv
  have := Tree.codes_length_le (t := t) (path := []) (e := (v, codeOf (alphabet data) v)) (by rw [← ht]; exact hm)
  rw [hb.length_eq] at this; simp at this; omega

theorem codeOf_ne_nil {data : List Byte} {v : Byte} (hv : v ∈ data) (h2 : 2 ≤ (distinctBytes data).length) :
    codeOf (alphabet data) v ≠ [] := by
  obtain ⟨t, ht, hb, -⟩ := alphabet_spec (List.ne_nil_of_mem hv)
  have hm := codeOf_mem hv
  have := Tree.codes_ne_path (t := t) (path := []) (e := (v, codeOf (alphabet data) v)) (by rw [← ht]; exact hm)
    (by rw [hb.length_eq]; exact h2)
  intro h; rw [h] at this; simp at this

/-! ### The encoder's output is readable (R178) -/

/-- The header entries of an input. -/
def entriesOf (data : List Byte) : List Entry := (distinctBytes data).map fun v => (v, codeOf (alphabet data) v)

theorem entryBits_eq (data : List Byte) :
    entryBits (alphabet data) (distinctBytes data) = (entriesOf data).flatMap Entry.bits := by
  rw [entryBits, entriesOf, List.flatMap_map]; rfl

theorem codeBits_eq (data : List Byte) :
    codeBits (alphabet data) data = (data.map fun v => (v, codeOf (alphabet data) v)).flatMap Prod.snd := by
  rw [codeBits, List.flatMap_map]

theorem entriesOf_nodup {data : List Byte} : ((entriesOf data).map Prod.snd).Nodup := by
  rw [entriesOf, List.map_map]
  rw [List.nodup_map_iff_inj_on (distinctBytes_nodup data)]
  intro v hv w hw h
  by_contra hne
  refine codeOf_prefixFree (mem_distinctBytes.1 hv) (mem_distinctBytes.1 hw) hne ?_
  simp only [Function.comp] at h
  rw [h]

/-- A buffer that holds the format of `data` reads as `data`, or as nothing when `data` is one byte value repeated (R178). -/
theorem hufReads_of_holds {data : List Byte} {m : Memory} (h : HoldsBits (hufBits ((hufBits 0 data).length % 8) data) m) :
    HufReads m (if (distinctBytes data).length = 1 then [] else data) := by
  have hk := distinctBytes_length_le data
  rw [hufBits_eq] at h
  have hlen : (hufBits 0 data).length =
      12 + (entryBits (alphabet data) (distinctBytes data) ++ codeBits (alphabet data) data).length := by
    rw [hufBits_eq]; simp
  rw [hlen] at h
  have hsize := alphaSizeOf_eq h (by omega)
  have hdata := dataFrom_header h rfl
  have hml := h.length_le
  rw [List.length_append, headerBits_length] at hml
  have hlens : ∀ e ∈ entriesOf data, e.2.length ≤ 256 := by
    intro e he
    obtain ⟨v, hv, rfl⟩ := List.mem_map.1 he
    have := codeOf_length_lt (mem_distinctBytes.1 hv)
    show (codeOf (alphabet data) v).length ≤ 256
    omega
  have hel : (entriesOf data).length = alphaSizeOf m := by rw [hsize]; simp [entriesOf]
  refine ⟨by omega, by omega, entriesOf data, ?_⟩
  split
  · next h1 =>
    refine ⟨[], hel, hlens, entriesOf_nodup, by simp, ?_, rfl⟩
    rw [hdata, entryBits_eq]
    have : codeBits (alphabet data) data = [] := by
      rw [codeBits, List.flatMap_eq_nil_iff]
      intro v hv
      have := codeOf_length_lt hv
      exact List.length_eq_zero_iff.1 (by omega)
    rw [this]; rfl
  · next h1 =>
    refine ⟨data.map fun v => (v, codeOf (alphabet data) v), hel, hlens, entriesOf_nodup, ?_, ?_, by
      rw [List.map_map]; exact (List.map_id _).symm⟩
    · intro w hw
      obtain ⟨v, hv, rfl⟩ := List.mem_map.1 hw
      have hpos : 0 < (distinctBytes data).length := List.length_pos_iff.2 (List.ne_nil_of_mem (mem_distinctBytes.2 hv))
      refine ⟨List.mem_map.2 ⟨v, mem_distinctBytes.2 hv, rfl⟩, codeOf_ne_nil hv (by omega), ?_⟩
      intro e he _ hpre
      obtain ⟨u, hu, rfl⟩ := List.mem_map.1 he
      by_contra hne
      exact codeOf_prefixFree (mem_distinctBytes.1 hu) hv (by rintro rfl; exact hne rfl) hpre
    · rw [hdata, entryBits_eq, codeBits_eq, List.append_nil]

/-- The length of the Huffman format (R171). -/
theorem hufBits_total (fbi : Nat) (data : List Byte) : (hufBits fbi data).length = hufTotal data := by
  rw [hufBits_eq, List.length_append, headerBits_length, List.length_append, entryBits_eq, codeBits_eq, hufTotal]
  have h1 : ((entriesOf data).flatMap Entry.bits).length =
      17 * (distinctBytes data).length + ((distinctBytes data).map fun v => (codeOf (alphabet data) v).length).sum := by
    rw [entriesOf]
    generalize distinctBytes data = vs
    induction vs with
    | nil => rfl
    | cons v vs ih =>
      rw [List.map_cons, List.flatMap_cons, List.length_append, ih, Entry.bits_length]
      simp; omega
  have h2 : ((data.map fun v => (v, codeOf (alphabet data) v)).flatMap Prod.snd).length =
      (data.map fun v => (codeOf (alphabet data) v).length).sum := by
    rw [List.flatMap_map, List.length_flatMap]
  rw [h1, h2]; omega

end Sys2Proof.Machine
end

