-- ==== Sys2Proof/Laws/RankedReads.lean ====
section
/-! SUPPORT. `REC.DEC` answers `true` with `out` exactly when its input reads as `out` (`RecReads`). -/

namespace Sys2Proof.Machine

variable {cfg : Config} {m : Memory} {short long : Nat}

/-! ### Patterns of bits -/

theorem lsbFirst_take {k n : Nat} (h : k ≤ n) (v : Nat) : (lsbFirst n v).take k = lsbFirst k v := by
  apply List.ext_getElem?
  intro j
  rw [List.getElem?_take, lsbFirst_getElem?, lsbFirst_getElem?]
  split
  · rw [if_pos (by omega)]
  · rfl

theorem lsbFirst_mod (n v : Nat) : lsbFirst n (v % 2 ^ n) = lsbFirst n v := by
  apply List.ext_getElem?
  intro j
  rw [lsbFirst_getElem?, lsbFirst_getElem?]
  split
  · next h => rw [Nat.testBit_mod_two_pow]; simp [h]
  · rfl

theorem ofLsbFirst_lsbFirst_mod (n v : Nat) : ofLsbFirst (lsbFirst n v) = v % 2 ^ n := by
  rw [← lsbFirst_mod, ofLsbFirst_lsbFirst (Nat.mod_lt _ (Nat.two_pow_pos n))]

theorem lsbFirst_of_length {n : Nat} {l : List Bool} (h : l.length = n) : lsbFirst n (ofLsbFirst l) = l :=
  h ▸ lsbFirst_ofLsbFirst l

theorem esc_lt (short : Nat) : esc short < 2 ^ short := by
  have := Nat.two_pow_pos short
  unfold esc; omega

/-! ### One symbol (R203, R207) -/

/-- What `readRank` answers was on the wire. -/
theorem readRank_sound (h1 : 1 ≤ m.length) (hs : 0 < short) (hl : short < long) {p r : Nat} {t : Stream}
    (h : readRank short long (endOf m) (Stream.atPos m p) = .ok (some (r, t))) :
    ∃ sym, IsSymbol short long sym ∧ r = symbolRank short sym ∧ t = Stream.atPos m (p + sym.2) ∧ 0 < sym.2 ∧
      p + sym.2 ≤ endOf m ∧ dataFrom m p = lsbFirst sym.2 sym.1 ++ dataFrom m (p + sym.2) := by
  have hE := endOf_le h1
  have hlen := dataFrom_length h1 p
  rw [readRank, atPos_pos] at h
  split at h
  · cases h
  · next hS =>
    rw [Stream.peekBits, readBits_ok (.inr (by omega)), except_map_ok, except_bind_ok] at h
    have hd : ∀ n, p + n ≤ endOf m → dataFrom m p = lsbFirst n (ofLsbFirst (((bufBits m).drop p).take n)) ++ dataFrom m (p + n) := by
      intro n hn
      rw [← dataFrom_take hn, lsbFirst_of_length (by rw [List.length_take]; omega), dataFrom_add, List.take_append_drop]
    have hlt : ∀ n, p + n ≤ endOf m → ofLsbFirst (((bufBits m).drop p).take n) < 2 ^ n := by
      intro n hn
      have := ofLsbFirst_lt (((bufBits m).drop p).take n)
      have e : (((bufBits m).drop p).take n).length = n := by rw [← dataFrom_take hn, List.length_take]; omega
      rwa [e] at this
    split at h
    · next hp =>
      rw [except_bind_ok] at h
      simp only [except_pure, Except.ok.injEq, Option.some.injEq, Prod.mk.injEq] at h
      obtain ⟨rfl, rfl⟩ := h
      have hp' : ofLsbFirst (((bufBits m).drop p).take short) ≠ esc short := hp
      have := hlt short (by omega)
      refine ⟨(_, short), .inl ⟨rfl, ?_⟩, by simp [symbolRank], rfl, hs, by omega, hd short (by omega)⟩
      unfold esc at *; simp only; omega
    · next hp =>
      have hp' : ofLsbFirst (((bufBits m).drop p).take short) = esc short := by simpa using hp
      split at h
      · cases h
      · next hL =>
        rw [readBits_ok (.inr (by omega)), except_bind_ok] at h
        simp only [except_pure, Except.ok.injEq, Option.some.injEq, Prod.mk.injEq] at h
        obtain ⟨rfl, rfl⟩ := h
        refine ⟨(_, long), .inr ⟨rfl, hlt long (by omega), ?_⟩, ?_, rfl, by omega, by omega, hd long (by omega)⟩
        · simp only
          rw [← ofLsbFirst_lsbFirst_mod, ← lsbFirst_take (Nat.le_of_lt hl),
            lsbFirst_of_length (by rw [← dataFrom_take (by omega), List.length_take]; omega), List.take_take,
            Nat.min_eq_left (Nat.le_of_lt hl)]
          exact hp'
        · simp [symbolRank, Nat.ne_of_gt hl]

/-- What is on the wire `readRank` answers. -/
theorem readRank_complete (h1 : 1 ≤ m.length) (hs : 0 < short) (hl : short < long) {p : Nat} {sym : Nat × Nat}
    {rest : List Bool} (hsym : IsSymbol short long sym) (hd : dataFrom m p = lsbFirst sym.2 sym.1 ++ rest) :
    readRank short long (endOf m) (Stream.atPos m p) = .ok (some (symbolRank short sym, Stream.atPos m (p + sym.2))) ∧
      dataFrom m (p + sym.2) = rest ∧ 0 < sym.2 ∧ p + sym.2 ≤ endOf m := by
  have hE := endOf_le h1
  have hlen := dataFrom_length h1 p
  rw [hd, List.length_append, lsbFirst_length] at hlen
  have hpos : 0 < sym.2 := by rcases hsym with ⟨h, -⟩ | ⟨h, -⟩ <;> omega
  have hfit : p + sym.2 ≤ endOf m := by omega
  refine ⟨?_, ?_, hpos, hfit⟩
  swap
  · rw [dataFrom_add, hd, List.drop_left' (by simp)]
  have htake : ∀ k, k ≤ sym.2 → ((bufBits m).drop p).take k = lsbFirst k sym.1 := by
    intro k hk
    rw [← dataFrom_take (by omega), hd, List.take_append_of_le_length (by simpa using hk), lsbFirst_take hk]
  obtain ⟨v, w⟩ := sym
  rcases hsym with ⟨rfl, hv⟩ | ⟨rfl, hv, hm⟩
  · simp only at *
    have hv2 : v < 2 ^ w := Nat.lt_trans hv (esc_lt w)
    rw [readRank, atPos_pos, if_neg (by omega), Stream.peekBits, readBits_ok (.inr (by omega)), except_map_ok,
      except_bind_ok, htake w (Nat.le_refl w), ofLsbFirst_lsbFirst hv2, if_pos (Nat.ne_of_lt hv), except_bind_ok]
    simp [symbolRank]
  · simp only at *
    rw [readRank, atPos_pos, if_neg (by omega), Stream.peekBits, readBits_ok (.inr (by omega)), except_map_ok,
      except_bind_ok, htake short (by omega), ofLsbFirst_lsbFirst_mod, hm, if_neg (by simp), if_neg (by omega),
      readBits_ok (.inr (by omega)), except_bind_ok, htake w (Nat.le_refl w), ofLsbFirst_lsbFirst hv]
    simp [symbolRank, Nat.ne_of_gt hl]

/-! ### The loop (R207, R208) -/

/-- What the decode loop answers was on the wire, and so was what did not fit `OUT`. -/
theorem decodeSymbols_sound (h1 : 1 ≤ m.length) (hs : 0 < short) (hl : short < long) {table : List Byte} {n p : Nat}
    {o : Memory} (hn : endOf m - p ≤ n) (hp : p ≤ endOf m) :
    (∀ r, decodeSymbols cfg short long (endOf m) table n (Stream.atPos m p) (Stream.atPos o (8 * o.length)) = .ok (some r) →
      ∃ syms : List (Nat × Nat), (∀ q ∈ syms, IsSymbol short long q ∧ symbolRank short q < table.length) ∧
        dataFrom m p = syms.flatMap (fun q => lsbFirst q.2 q.1) ∧
        r.2 = Stream.atPos (o ++ syms.map fun q => table.getD (symbolRank short q) 0)
          (8 * (o ++ syms.map fun q => table.getD (symbolRank short q) 0).length)) ∧
    (decodeSymbols cfg short long (endOf m) table n (Stream.atPos m p) (Stream.atPos o (8 * o.length)) =
        .error (.fatal .capacity) →
      ∃ (syms : List (Nat × Nat)) (rest : List Bool),
        (∀ q ∈ syms, IsSymbol short long q ∧ symbolRank short q < table.length) ∧
        dataFrom m p = syms.flatMap (fun q => lsbFirst q.2 q.1) ++ rest ∧
        cfg.bufFits (o ++ syms.map fun q => table.getD (symbolRank short q) 0).length = false) := by
  have hE := endOf_le h1
  have done : endOf m ≤ p → dataFrom m p = [] := fun h => by
    have := dataFrom_length h1 p; exact List.length_eq_zero_iff.1 (by omega)
  induction n generalizing p o with
  | zero =>
    rw [decodeSymbols]
    exact ⟨fun r h => by cases h; exact ⟨[], by simp, by rw [done (by omega)]; rfl, by simp⟩, nofun⟩
  | succ n ih =>
    rw [decodeSymbols]
    split
    · next hlt =>
      have ha := readRank_answers hs (Nat.le_of_lt hl) (e := endOf m) (Stream.atPos m p) (by simpa using hE)
      rcases hx : readRank short long (endOf m) (Stream.atPos m p) with (c | _) | (_ | ⟨rk, t⟩)
      · rw [hx] at ha; exact absurd ha (by simp [Answers])
      · rw [hx] at ha; exact absurd ha (by simp [Answers])
      · exact ⟨nofun, nofun⟩
      · obtain ⟨sym, hsym, rfl, rfl, hpos, hle, hdata⟩ := readRank_sound h1 hs hl hx
        rw [except_bind_ok]
        simp only
        split
        · exact ⟨nofun, nofun⟩
        · next v hv =>
          have hlt' : symbolRank short sym < table.length := by
            rcases Nat.lt_or_ge (symbolRank short sym) table.length with h | h
            · exact h
            · rw [List.getElem?_eq_none h] at hv; cases hv
          have hv' : table.getD (symbolRank short sym) 0 = v := by simp [List.getD, hv]
          have hq : ∀ {syms : List (Nat × Nat)},
              (∀ q ∈ syms, IsSymbol short long q ∧ symbolRank short q < table.length) →
              ∀ q ∈ sym :: syms, IsSymbol short long q ∧ symbolRank short q < table.length := by
            intro syms hsy q hq
            rcases List.mem_cons.1 hq with rfl | hq
            · exact ⟨hsym, hlt'⟩
            · exact hsy q hq
          rw [put_append]
          cases hc : canAppend cfg o
          · refine ⟨nofun, fun _ => ⟨[sym], dataFrom m (p + sym.2), hq (by simp), by rw [hdata]; simp, ?_⟩⟩
            simpa [canAppend] using hc
          · rw [if_pos rfl, except_bind_ok]
            obtain ⟨ih1, ih2⟩ := ih (p := p + sym.2) (o := o ++ [v]) (by omega) hle (fun h' => by
              have := dataFrom_length h1 (p + sym.2); exact List.length_eq_zero_iff.1 (by omega))
            refine ⟨fun r h => ?_, fun h => ?_⟩
            · obtain ⟨syms, hsy, hbits, hr⟩ := ih1 r h
              exact ⟨sym :: syms, hq hsy, by rw [hdata, hbits]; rfl, by rw [hr, List.map_cons, hv', List.append_assoc]; rfl⟩
            · obtain ⟨syms, rest, hsy, hbits, hr⟩ := ih2 h
              exact ⟨sym :: syms, rest, hq hsy, by rw [hdata, hbits, List.flatMap_cons, List.append_assoc],
                by rw [List.map_cons, hv']; rw [List.append_assoc] at hr; exact hr⟩
    · next hge =>
      rw [atPos_pos] at hge
      exact ⟨fun r h => by cases h; exact ⟨[], by simp, by rw [done (by omega)]; rfl, by simp⟩, nofun⟩

/-- Symbols on the wire: the loop puts their bytes and goes on behind them, unless `OUT` is too small. -/
theorem decodeSymbols_syms (h1 : 1 ≤ m.length) (hs : 0 < short) (hl : short < long) {table : List Byte} {n p : Nat}
    {o : Memory} {syms : List (Nat × Nat)} {rest : List Bool} (hn : endOf m - p ≤ n) (hp : p ≤ endOf m)
    (hsy : ∀ q ∈ syms, IsSymbol short long q ∧ symbolRank short q < table.length)
    (hbits : dataFrom m p = syms.flatMap (fun q => lsbFirst q.2 q.1) ++ rest) (ho : cfg.bufFits o.length = true) :
    ∃ n', rest.length ≤ n' ∧
      decodeSymbols cfg short long (endOf m) table n (Stream.atPos m p) (Stream.atPos o (8 * o.length)) =
        if cfg.bufFits (o ++ syms.map fun q => table.getD (symbolRank short q) 0).length then
          decodeSymbols cfg short long (endOf m) table n' (Stream.atPos m (endOf m - rest.length))
            (Stream.atPos (o ++ syms.map fun q => table.getD (symbolRank short q) 0)
              (8 * (o ++ syms.map fun q => table.getD (symbolRank short q) 0).length))
        else .error (.fatal .capacity) := by
  induction syms generalizing p n o with
  | nil =>
    have hlen := dataFrom_length h1 p
    rw [hbits] at hlen
    simp at hlen
    exact ⟨n, by omega, by rw [show endOf m - rest.length = p by omega]; simp [ho]⟩
  | cons q qs ih =>
    obtain ⟨hq, hqr⟩ := hsy q (by simp)
    obtain ⟨hr, hrest, hpos, hfit⟩ := readRank_complete h1 hs hl hq (p := p)
      (rest := qs.flatMap (fun q => lsbFirst q.2 q.1) ++ rest) (by rw [hbits, List.flatMap_cons, List.append_assoc])
    obtain ⟨n, rfl⟩ : ∃ k, n = k + 1 := ⟨n - 1, by omega⟩
    have hg : table[symbolRank short q]? = some (table.getD (symbolRank short q) 0) := by simp [List.getD, hqr]
    have happ : (o ++ (q :: qs).map fun q => table.getD (symbolRank short q) 0) =
        (o ++ [table.getD (symbolRank short q) 0]) ++ qs.map fun q => table.getD (symbolRank short q) 0 := by simp
    rw [decodeSymbols, atPos_pos, if_pos (by omega), hr, except_bind_ok]
    simp only
    rw [hg]
    simp only
    rw [put_append, happ]
    cases hc : canAppend cfg o
    · have hnf : cfg.bufFits ((o ++ [table.getD (symbolRank short q) 0]) ++
          qs.map fun q => table.getD (symbolRank short q) 0).length = false := by
        cases hx : cfg.bufFits ((o ++ [table.getD (symbolRank short q) 0]) ++
          qs.map fun q => table.getD (symbolRank short q) 0).length
        · rfl
        · have := bufFits_mono hx (a := o.length + 1) (by simp)
          unfold canAppend at hc; rw [this] at hc; cases hc
      rw [hnf]; exact ⟨_, Nat.le_refl _, rfl⟩
    · rw [if_pos rfl, except_bind_ok]
      exact ih (by omega) hfit (fun x hx => hsy x (List.mem_cons_of_mem _ hx)) hrest (by simpa [canAppend] using hc)

/-! ### The decoder -/

/-- The rank table of a buffer (R206). -/
theorem readTable_ok {n p : Nat} (h : p + 8 * n ≤ 8 * m.length) :
    readTable n (Stream.atPos m p) = .ok ((List.range n).map fun i =>
      BitVec.ofNat 8 (ofLsbFirst (((bufBits m).drop (p + 8 * i)).take 8)), Stream.atPos m (p + 8 * n)) := by
  induction n generalizing p with
  | zero => rfl
  | succ n ih =>
    rw [readTable, readByte_ok (by omega), except_bind_ok]
    simp only
    rw [ih (by omega), except_bind_ok]
    simp only [except_pure, Except.ok.injEq, Prod.mk.injEq]
    refine ⟨?_, by congr 1; omega⟩
    rw [List.range_succ_eq_map, List.map_cons, List.map_map]
    congr 1
    apply List.map_congr_left
    intro i _
    simp only [Function.comp]
    congr 4; omega

theorem table_getD {n i : Nat} (h : i < n) :
    ((List.range n).map (tableEntry m)).getD i 0 = tableEntry m i := by simp [List.getD, h]

theorem readTable_header {n : Nat} (h : 12 + 8 * n ≤ 8 * m.length) :
    readTable n (Stream.atPos m 12) = .ok ((List.range n).map (tableEntry m), Stream.atPos m (12 + 8 * n)) :=
  readTable_ok h

theorem table_map {syms : List (Nat × Nat)} {n : Nat} (h : ∀ q ∈ syms, symbolRank short q < n) :
    (syms.map fun q => ((List.range n).map (tableEntry m)).getD (symbolRank short q) 0) =
      syms.map fun q => tableEntry m (symbolRank short q) :=
  List.map_congr_left fun q hq => table_getD (h q hq)

/-- What a buffer starts with is put, unless `OUT` is too small for it (R207). -/
theorem recDecode_of_starts (hs : 0 < short) (hl : short < long) {out : List Byte} {rest : List Bool}
    (h : RecStarts short long m out rest) (hz : cfg.bufFits 0 = true) :
    ∃ n, rest.length ≤ n ∧ recDecode cfg short long (Stream.fresh m) Stream.empty =
      if cfg.bufFits out.length then
        decodeSymbols cfg short long (endOf m) ((List.range (alphaSizeOf m)).map (tableEntry m)) n
          (Stream.atPos m (endOf m - rest.length)) (Stream.atPos out (8 * out.length))
      else .error (.fatal .capacity) := by
  obtain ⟨h2, h256, htab, syms, hsy, hdata, rfl⟩ := h
  have h1 : 1 ≤ m.length := by omega
  have hE := endOf_le h1
  obtain ⟨hr3, hr9⟩ := header_reads h2
  rw [recDecode, fresh_buf, if_neg (by omega), hr3, except_bind_ok]
  simp only
  rw [hr9, except_bind_ok]
  simp only [atPos_buf, atPos_pos]
  change ∃ n, _ ∧ (if alphaSizeOf m > 256 ∨ 12 + 8 * alphaSizeOf m > endOf m then _ else _) = _
  rw [if_neg (by push Not; omega), readTable_header (by omega), except_bind_ok]
  simp only [atPos_pos]
  have := decodeSymbols_syms (cfg := cfg) h1 hs hl (table := (List.range (alphaSizeOf m)).map (tableEntry m))
    (n := endOf m - (12 + 8 * alphaSizeOf m)) (p := 12 + 8 * alphaSizeOf m) (o := []) (syms := syms) (Nat.le_refl _) htab
    (by simpa using hsy) hdata hz
  rw [List.nil_append, table_map fun q hq => (hsy q hq).2] at this
  exact this

/-- A buffer that reads as `out` decodes to `out`, unless `OUT` is too small for it (R209). -/
theorem recDecode_of_reads (hs : 0 < short) (hl : short < long) {out : List Byte} (h : RecReads short long m out)
    (hz : cfg.bufFits 0 = true) :
    recDecode cfg short long (Stream.fresh m) Stream.empty =
      if cfg.bufFits out.length then
        .ok (some (Stream.atPos m (endOf m), Stream.atPos out (8 * out.length)))
      else .error (.fatal .capacity) := by
  obtain ⟨n, -, h⟩ := recDecode_of_starts hs hl h hz
  rw [h]
  cases n <;> simp [decodeSymbols]

/-- What decodes with `true` reads as its output (R209); what overflows `OUT` starts with more than fits. -/
theorem recDecode_sound (hs : 0 < short) (hl : short < long) :
    (∀ p, recDecode cfg short long (Stream.fresh m) Stream.empty = .ok (some p) →
      ∃ out, RecReads short long m out ∧ p.2 = Stream.atPos out (8 * out.length)) ∧
    (recDecode cfg short long (Stream.fresh m) Stream.empty = .error (.fatal .capacity) →
      ∃ out rest, RecStarts short long m out rest ∧ cfg.bufFits out.length = false) := by
  rw [recDecode, fresh_buf]
  split
  · exact ⟨nofun, nofun⟩
  · next h2 =>
    have h1 : 1 ≤ m.length := by omega
    have hE := endOf_le h1
    obtain ⟨hr3, hr9⟩ := header_reads (m := m) (by omega)
    rw [hr3, except_bind_ok]
    simp only
    rw [hr9, except_bind_ok]
    simp only [atPos_buf, atPos_pos]
    change (∀ p, (if alphaSizeOf m > 256 ∨ 12 + 8 * alphaSizeOf m > endOf m then _ else _) = _ → _) ∧
      ((if alphaSizeOf m > 256 ∨ 12 + 8 * alphaSizeOf m > endOf m then _ else _) = _ → _)
    split
    · exact ⟨nofun, nofun⟩
    · next hc =>
      push Not at hc
      rw [readTable_header (by omega), except_bind_ok]
      simp only [atPos_pos]
      obtain ⟨ho, hf⟩ := decodeSymbols_sound (cfg := cfg) (o := []) (m := m) h1 hs hl
        (table := (List.range (alphaSizeOf m)).map (tableEntry m)) (p := 12 + 8 * alphaSizeOf m) (Nat.le_refl _) hc.2
      refine ⟨fun p h => ?_, fun h => ?_⟩
      · obtain ⟨syms, hsy, hbits, hr⟩ := ho p h
        have hsy' : ∀ q ∈ syms, IsSymbol short long q ∧ symbolRank short q < alphaSizeOf m := by simpa using hsy
        rw [List.nil_append, table_map fun q hq => (hsy' q hq).2] at hr
        exact ⟨_, ⟨by omega, hc.1, hc.2, syms, hsy', by rw [hbits, List.append_nil], rfl⟩, hr⟩
      · obtain ⟨syms, rest, hsy, hbits, hr⟩ := hf h
        have hsy' : ∀ q ∈ syms, IsSymbol short long q ∧ symbolRank short q < alphaSizeOf m := by simpa using hsy
        rw [List.nil_append, table_map fun q hq => (hsy' q hq).2] at hr
        exact ⟨_, rest, ⟨by omega, hc.1, hc.2, syms, hsy', hbits, rfl⟩, hr⟩

theorem recReads_of_decode (hs : 0 < short) (hl : short < long) {p : Stream × Stream}
    (h : recDecode cfg short long (Stream.fresh m) Stream.empty = .ok (some p)) :
    ∃ out, RecReads short long m out ∧ p.2 = Stream.atPos out (8 * out.length) := (recDecode_sound hs hl).1 p h

/-- A buffer reads in one way only. -/
theorem RecReads.unique (hs : 0 < short) (hl : short < long) {out out' : List Byte}
    (h : RecReads short long m out) (h' : RecReads short long m out') : out = out' := by
  have hz : Config.unbounded.bufFits 0 = true := rfl
  have e := recDecode_of_reads hs hl h hz
  rw [recDecode_of_reads hs hl h' hz, if_pos (bufFits_unbounded rfl _), if_pos (bufFits_unbounded rfl _)] at e
  simp only [Except.ok.injEq, Option.some.injEq, Prod.mk.injEq, true_and] at e
  exact (congrArg Stream.buf e).symm

/-- A buffer that reads as nothing, and starts with nothing that does not fit, decodes to `false` (R209). -/
theorem recDecode_of_not_reads (hs : 0 < short) (hl : short < long) (h : ∀ out, ¬ RecReads short long m out)
    (hst : ∀ out rest, RecStarts short long m out rest → cfg.bufFits out.length = true) (hz : cfg.bufFits 0 = true) :
    recDecode cfg short long (Stream.fresh m) Stream.empty = .ok none := by
  have ha := recDecode_answers hs (Nat.le_of_lt hl) hz m
  rcases hr : recDecode cfg short long (Stream.fresh m) Stream.empty with (c | _) | (_ | p)
  · rw [hr] at ha
    obtain rfl : c = .capacity := by simpa [Answers] using ha
    obtain ⟨out, rest, ho, hf⟩ := (recDecode_sound hs hl).2 hr
    rw [hst out rest ho] at hf; cases hf
  · rw [hr] at ha; exact absurd ha (by simp [Answers])
  · rfl
  · obtain ⟨out, ho, -⟩ := recReads_of_decode hs hl hr
    exact absurd ho (h out)

/-- A symbol takes a bit or more, so an output has no more bytes than its input has bits. -/
theorem RecStarts.length_le (hs : 0 < short) (hl : short < long) {out : List Byte} {rest : List Bool}
    (h : RecStarts short long m out rest) : out.length ≤ 8 * m.length := by
  obtain ⟨h2, -, -, syms, hsy, hdata, rfl⟩ := h
  have hw : syms.length ≤ (syms.flatMap fun q => lsbFirst q.2 q.1).length := by
    clear hdata
    induction syms with
    | nil => simp
    | cons q qs ih =>
      have hq : 0 < q.2 := by rcases (hsy q (by simp)).1 with ⟨h, -⟩ | ⟨h, -⟩ <;> omega
      have := ih fun x hx => hsy x (List.mem_cons_of_mem _ hx)
      rw [List.flatMap_cons, List.length_append, List.length_cons, lsbFirst_length]; omega
  have hlen := dataFrom_length (show 1 ≤ m.length by omega) (12 + 8 * alphaSizeOf m)
  have hE := endOf_le (show 1 ≤ m.length by omega)
  rw [hdata, List.length_append] at hlen
  rw [List.length_map]; omega

end Sys2Proof.Machine
end

