-- ==== Sys2Proof/Laws/Ranks.lean ====
section
/-! SUPPORT. The rank table and the symbols (R200 to R204), and that the encoder's output is readable (R210). -/

namespace Sys2Proof.Machine

variable {short long : Nat}

/-! ### The rank table (R201) -/

/-- `v` has a lower rank than `w`: more frequent, or as frequent and of lower value. -/
def RanksBefore (data : List Byte) (v w : Byte) : Prop :=
  freq data w < freq data v ∨ (freq data v = freq data w ∧ v.toNat < w.toNat)

/-- The byte picked is a member and ranks before every other. -/
theorem mostFrequent_spec (data : List Byte) (best : Byte) (rest : List Byte)
    (h : (best :: rest).Pairwise fun v w => v.toNat < w.toNat) :
    mostFrequent data best rest ∈ best :: rest ∧
      ∀ w ∈ best :: rest, w = mostFrequent data best rest ∨ RanksBefore data (mostFrequent data best rest) w := by
  induction rest generalizing best with
  | nil => simp [mostFrequent]
  | cons v vs ih =>
    rw [mostFrequent]
    rw [List.pairwise_cons, List.pairwise_cons] at h
    obtain ⟨hb, hv, hvs⟩ := h
    split
    · next hlt =>
      obtain ⟨h1, h2⟩ := ih v (List.pairwise_cons.2 ⟨hv, hvs⟩)
      refine ⟨List.mem_cons_of_mem _ h1, fun w hw => ?_⟩
      rcases List.mem_cons.1 hw with rfl | hw
      · right
        have := h2 v (by simp)
        generalize mostFrequent data v vs = b at this
        rcases this with rfl | h | h
        · exact .inl hlt
        · exact .inl (by omega)
        · exact .inl (by omega)
      · exact h2 w hw
    · next hge =>
      obtain ⟨h1, h2⟩ := ih best (List.pairwise_cons.2 ⟨fun w hw => hb w (List.mem_cons_of_mem _ hw), hvs⟩)
      refine ⟨?_, fun w hw => ?_⟩
      · rcases List.mem_cons.1 h1 with h | h
        · rw [h]; simp
        · exact List.mem_cons_of_mem _ (List.mem_cons_of_mem _ h)
      · have hbv := hb v (by simp)
        have h3 := h2 best (by simp)
        rcases List.mem_cons.1 hw with rfl | hw
        · exact h3
        · rcases List.mem_cons.1 hw with rfl | hw
          · right
            generalize mostFrequent data best vs = b at h3
            unfold RanksBefore at *
            rcases h3 with rfl | h | h
            · omega
            · omega
            · omega
          · exact h2 w (List.mem_cons_of_mem _ hw)

theorem extractRanks_perm (data : List Byte) {n : Nat} {rest : List Byte} (hn : rest.length = n)
    (h : rest.Pairwise fun v w => v.toNat < w.toNat) : (extractRanks data n rest).Perm rest := by
  induction n generalizing rest with
  | zero => rw [List.length_eq_zero_iff.1 hn]; exact .refl _
  | succ n ih =>
    cases rest with
    | nil => simp at hn
    | cons v vs =>
      obtain ⟨h1, -⟩ := mostFrequent_spec data v vs h
      rw [extractRanks]
      refine ((ih (by rw [List.length_erase_of_mem h1]; omega) (h.sublist List.erase_sublist)).cons _).trans ?_
      exact (List.perm_cons_erase h1).symm

theorem extractRanks_sorted (data : List Byte) {n : Nat} {rest : List Byte} (hn : rest.length = n)
    (h : rest.Pairwise fun v w => v.toNat < w.toNat) : (extractRanks data n rest).Pairwise (RanksBefore data) := by
  induction n generalizing rest with
  | zero => exact .nil
  | succ n ih =>
    cases rest with
    | nil => simp at hn
    | cons v vs =>
      obtain ⟨h1, h2⟩ := mostFrequent_spec data v vs h
      have hnd : (v :: vs).Nodup := h.imp fun h => by rintro rfl; exact absurd h (Nat.lt_irrefl _)
      have hl : ((v :: vs).erase (mostFrequent data v vs)).length = n := by
        rw [List.length_erase_of_mem h1]; omega
      have hs := h.sublist (List.erase_sublist (a := mostFrequent data v vs))
      rw [extractRanks, List.pairwise_cons]
      refine ⟨fun w hw => ?_, ih hl hs⟩
      have hw' := (extractRanks_perm data hl hs).mem_iff.1 hw
      rw [hnd.mem_erase_iff] at hw'
      exact (h2 w hw'.2).resolve_left hw'.1

/-- The rank table holds the distinct bytes (R201). -/
theorem rankTable_perm (data : List Byte) : (rankTable data).Perm (distinctBytes data) :=
  extractRanks_perm data rfl (distinctBytes_sorted data)

/-- The rank table is sorted by descending frequency, then ascending value (R201). -/
theorem rankTable_sorted (data : List Byte) : (rankTable data).Pairwise (RanksBefore data) :=
  extractRanks_sorted data rfl (distinctBytes_sorted data)

theorem rankTable_length_le (data : List Byte) : (rankTable data).length ≤ 256 := by
  rw [(rankTable_perm data).length_eq]; exact distinctBytes_length_le data

theorem mem_rankTable {data : List Byte} {v : Byte} : v ∈ rankTable data ↔ v ∈ data := by
  rw [(rankTable_perm data).mem_iff, mem_distinctBytes]

/-! ### Symbols (R202, R203) -/

/-- The pattern of a rank is a symbol of that rank. -/
theorem symbolOf_spec (h : wfPair short long = true) {r : Nat} (hr : r < 256) :
    IsSymbol short long (symbolOf short long r) ∧ symbolRank short (symbolOf short long r) = r := by
  obtain ⟨h2, h7, rfl⟩ := wfPair_bounds h
  have hpos := Nat.two_pow_pos short
  unfold symbolOf
  split
  · next hlt => exact ⟨.inl ⟨rfl, hlt⟩, by simp [symbolRank]⟩
  · next hge =>
    have he : 3 ≤ esc short := by
      have : 2 ^ 2 ≤ 2 ^ short := Nat.pow_le_pow_right (by omega) h2
      unfold esc; omega
    have hel := esc_lt short
    have hmod : ((r - esc short + 1) * 2 ^ short + esc short) % 2 ^ short = esc short := by
      rw [Nat.mul_comm, Nat.mul_add_mod, Nat.mod_eq_of_lt hel]
    have hdiv : ((r - esc short + 1) * 2 ^ short + esc short) / 2 ^ short = r - esc short + 1 := by
      rw [Nat.mul_comm, Nat.mul_add_div hpos, Nat.div_eq_of_lt hel]
    refine ⟨.inr ⟨rfl, ?_, hmod⟩, ?_⟩
    · simp only
      rw [Nat.pow_add]
      have h1 : (r - esc short + 1) * 2 ^ short ≤ 253 * 2 ^ short := Nat.mul_le_mul_right _ (by omega)
      omega
    · have hne : short + 8 ≠ short := by omega
      simp only [symbolRank, hne, if_false, longRank, hdiv]
      omega

/-! ### The encoder's output is readable (R210) -/

theorem bufBits_drop_byte {m : Memory} {i : Nat} (h : i < m.length) : ((bufBits m).drop (8 * i)).take 8 = byteBits m[i] :=
  bufBits_drop_take_byte h

/-- A buffer that holds the format of `data` reads as `data` (R210). -/
theorem recReads_of_holds (hp : wfPair short long = true) {data : List Byte} {m : Memory}
    (h : HoldsBits (recBits ((recBits 0 short long data).length % 8) short long data) m) :
    RecReads short long m data := by
  have hk := rankTable_length_le data
  rw [recBits_eq] at h
  have hlen : (recBits 0 short long data).length =
      12 + (bufBits (rankTable data) ++ symbolBits short long (rankTable data) data).length := by
    rw [recBits_eq]; simp
  rw [hlen] at h
  have hsize := alphaSizeOf_eq h (by omega)
  have hdata := dataFrom_header h rfl
  have hE := endOf_eq h rfl
  have hml := h.length_le
  rw [List.length_append, headerBits_length] at hml
  rw [List.length_append, bufBits_length] at hE
  have hentry : ∀ i, (hi : i < (rankTable data).length) → tableEntry m i = (rankTable data)[i] := by
    intro i hi
    rw [tableEntry, ← dataFrom_take (by omega), dataFrom_add, hdata,
      List.drop_append_of_le_length (by rw [bufBits_length]; omega),
      List.take_append_of_le_length (by rw [List.length_drop, bufBits_length]; omega),
      bufBits_drop_byte hi, ofNat_ofLsbFirst_byteBits]
  have hidx : ∀ v ∈ data, (rankTable data).idxOf v < (rankTable data).length := fun v hv =>
    List.idxOf_lt_length_iff.2 (mem_rankTable.2 hv)
  refine ⟨by omega, by omega, by omega, data.map fun v => symbolOf short long ((rankTable data).idxOf v), ?_, ?_, ?_⟩
  · intro p hpm
    obtain ⟨v, hv, rfl⟩ := List.mem_map.1 hpm
    have := hidx v hv
    obtain ⟨h1, h2⟩ := symbolOf_spec hp (r := (rankTable data).idxOf v) (by omega)
    exact ⟨h1, by rw [h2, hsize]; exact this⟩
  · rw [hsize, dataFrom_add, hdata, List.drop_left' (by simp), symbolBits, List.flatMap_map, List.append_nil]
  · rw [List.map_map]
    symm
    have : ∀ v ∈ data, ((fun p => tableEntry m (symbolRank short p)) ∘
        fun v => symbolOf short long ((rankTable data).idxOf v)) v = id v := by
      intro v hv
      have hi := hidx v hv
      simp only [Function.comp]
      rw [(symbolOf_spec hp (by omega)).2, hentry _ hi]
      exact List.getElem_idxOf hi
    rw [List.map_congr_left this, List.map_id]

/-- The length of the ranked-escape format (R205). -/
theorem recBits_total (fbi short long : Nat) (data : List Byte) :
    (recBits fbi short long data).length = recTotal short long data := by
  have h : ∀ (table vs : List Byte), (symbolBits short long table vs).length =
      short * (vs.countP fun v => table.idxOf v < esc short) + long * (vs.countP fun v => esc short ≤ table.idxOf v) := by
    intro table vs
    induction vs with
    | nil => rfl
    | cons v vs ih =>
      have e : symbolBits short long table (v :: vs) =
        lsbFirst (symbolOf short long (table.idxOf v)).2 (symbolOf short long (table.idxOf v)).1 ++
          symbolBits short long table vs := rfl
      rw [e, List.length_append, ih, lsbFirst_length, List.countP_cons, List.countP_cons, symbolOf]
      by_cases hlt : table.idxOf v < esc short
      · have hn : ¬ esc short ≤ table.idxOf v := by omega
        simp only [hlt, hn, if_true, decide_true, decide_false]
        rw [Nat.mul_add]; simp; omega
      · have hn : esc short ≤ table.idxOf v := by omega
        simp only [hlt, hn, if_false, decide_true, decide_false, if_true]
        rw [Nat.mul_add long]; simp; omega
  rw [recBits_eq, List.length_append, headerBits_length, List.length_append, bufBits_length, h, recTotal,
    (rankTable_perm data).length_eq]
  omega

/-! ### The buffer 00 to FF (R210) -/

theorem allBytes_length : allBytes.length = 256 := by simp [allBytes]

theorem allBytes_nodup : allBytes.Nodup :=
  allBytes_sorted.imp fun h => by rintro rfl; exact absurd h (Nat.lt_irrefl _)

theorem distinctBytes_allBytes : distinctBytes allBytes = allBytes :=
  List.filter_eq_self.2 fun v hv => by simpa using freq_pos.2 hv

/-- With every frequency 1 the ranks are the byte values (R210). -/
theorem rankTable_allBytes : rankTable allBytes = allBytes := by
  have hf : ∀ v, freq allBytes v = 1 := fun v => by
    rw [freq_eq_count, List.count_eq_one_of_mem allBytes_nodup (mem_allBytes v)]
  have hp := rankTable_perm allBytes
  rw [distinctBytes_allBytes] at hp
  refine hp.eq_of_pairwise (le := RanksBefore allBytes) (fun v w _ _ h h' => ?_) (rankTable_sorted allBytes)
    (allBytes_sorted.imp fun h => ?_)
  · simp only [RanksBefore, hf] at h h'; omega
  · rw [RanksBefore, hf, hf]; exact .inr ⟨rfl, h⟩

theorem idxOf_allBytes (v : Byte) : allBytes.idxOf v = v.toNat := by
  have hl : v.toNat < allBytes.length := by rw [allBytes_length]; exact v.isLt
  have : allBytes[v.toNat] = v := by simp [allBytes]
  conv_lhs => rw [← this]
  exact allBytes_nodup.idxOf_getElem _ hl

/-- The bits of `REC.ENC`'s output for the buffer 00 to FF (R205, R210). -/
theorem recTotal_allBytes (short long : Nat) : recTotal short long allBytes =
    2060 + short * (allBytes.countP fun v => v.toNat < esc short) +
      long * (allBytes.countP fun v => esc short ≤ v.toNat) := by
  unfold recTotal
  rw [rankTable_allBytes, distinctBytes_allBytes, allBytes_length]
  simp only [idxOf_allBytes]

end Sys2Proof.Machine
end

