-- ==== Sys2Proof/Tests/Slice0.lean ====
section
/-! SUPPORT. Tests against the vectors of `95_test_vectors.md`, and a witness for the hypotheses of every statement. -/

namespace Sys2Proof.Tests

open Sys2Proof.Machine

/-! ### Helpers -/

/-- The word `CMD64` of `30_encoding.md` R71, field by field from bit 63 down. -/
def word (opcode : BitVec 8) (a b : BitVec 2) (n : BitVec 6) (k : BitVec 3) (imm : BitVec 32) : CmdWord :=
  opcode ++ a ++ b ++ n ++ k ++ (0 : BitVec 11) ++ imm

/-- A word without a payload. -/
def plain (w : CmdWord) : Command := { word := w, payload := [] }

/-- The reset state with stream 0 set. -/
def st0 (m : List Byte) (bi : Nat) (bo : Fin 8) : State := { State.reset with s0 := { buf := m, bi := bi, bo := bo } }

/-- The same with `MAXBUF` set. -/
def st0c (cap : Nat) (m : List Byte) (bi : Nat) (bo : Fin 8) : State :=
  { st0 m bi bo with cfg := { maxBuf := some cap, qMax := none } }

/-- The reset state with the sequence registers set. -/
def stq (q0 q1 : Seq) : State := { State.reset with q0 := q0, q1 := q1 }

/-- The same with `QMAX` set. -/
def stqc (cap : Nat) (q0 q1 : Seq) : State := { stq q0 q1 with cfg := { maxBuf := none, qMax := some cap } }

/-- The reset state with a cause latched. -/
def latched (c : BitVec 4) : State := { State.reset with fatal := true, cause := c }

/-- The reset state with one event pending. -/
def withEvent (e : HostEvent) : State := { State.reset with pending := [e] }

/-- The last response of a state. -/
def last (s : State) : Option Response := s.responses.getLast?

/-- A response of a command that completed. -/
def good (value : Nat) (payload : List Byte) : Option Response :=
  some { ok := true, cause := 0, value := value, payload := payload }

/-- A fault response. -/
def bad (cause : BitVec 4) : Option Response := some { ok := false, cause := cause, value := 0, payload := [] }

/-- What a test looks at. -/
structure Seen (α : Type) where
  data   : α
  answer : Option Response
  deriving DecidableEq, Repr

/-- The next state of a command. -/
def after (i : Instr) (s : State) : Option State :=
  match exec i s with
  | .next t => some t
  | .fault _ => none
  | .refused _ => none

/-- Stream 0 and the value answered. -/
def out0 (i : Instr) (s : State) : Option (Seen Stream) :=
  (after i s).map fun t => { data := t.s0, answer := last t }

/-- Stream 1 and the value answered. -/
def out1 (i : Instr) (s : State) : Option (Seen Stream) :=
  (after i s).map fun t => { data := t.s1, answer := last t }

/-- A sequence register and the value answered. -/
def outq (a : SeqId) (i : Instr) (s : State) : Option (Seen Seq) :=
  (after i s).map fun t => { data := t.seq a, answer := last t }

/-- The response alone. -/
def resp (i : Instr) (s : State) : Option Response := (after i s).bind last

/-! ### `WellFormed`: each check refuses a term -/

theorem test_wf_refuses_width_33 : Instr.wf (.bsRdb .s0 33) = false := by decide
theorem test_wf_refuses_peek_width_33 : Instr.wf (.bsPkb .s1 33) = false := by decide
theorem test_wf_refuses_pattern_width_33 : Instr.wf (.bsPutb .s0 33 0) = false := by decide
theorem test_wf_refuses_pattern_too_wide : Instr.wf (.bsPutb .s0 3 8) = false := by decide
theorem test_wf_refuses_zero_width_pattern : Instr.wf (.bsPutb .s0 0 1) = false := by decide
theorem test_wf_refuses_seq_width_33 : Instr.wf (.qAddn .q0 33 0) = false := by decide
theorem test_wf_refuses_seq_pattern_too_wide : Instr.wf (.qAddn .q1 2 4) = false := by decide
theorem test_wf_refuses_pair_enc : Instr.wf (.recEnc 2 11) = false := by decide
theorem test_wf_refuses_pair_enc_8_16 : Instr.wf (.recEnc 8 16) = false := by decide
theorem test_wf_refuses_pair_dec : Instr.wf (.recDec 0 0) = false := by decide
theorem test_wf_refuses_alg_comp_8 : Instr.wf (.drvComp 8 []) = false := by decide
theorem test_wf_refuses_alg_decomp_8 : Instr.wf (.drvDecomp 8 []) = false := by decide
theorem test_wf_accepts_boundaries :
    Instr.wf (.bsPutb .s1 32 0xFFFFFFFF) = true ∧ Instr.wf (.bsPutb .s0 0 0) = true ∧ Instr.wf (.bsRdb .s0 32) = true ∧
    Instr.wf (.recEnc 7 15) = true ∧ Instr.wf (.drvComp 7 [0]) = true := by decide

/-! ### Decoding: one word for every constructor, its fields from `30_encoding.md` R72 and R74 -/

theorem test_decode_bsNew : decode (plain (word 0x00 1 0 0 0 0)) = .ok (.bsNew .s1) := by decide
theorem test_decode_bsPut : decode (plain (word 0x02 1 0 0 0 0xFF)) = .ok (.bsPut .s1 0xFF) := by decide
theorem test_decode_bsPutf : decode (plain (word 0x03 1 0 0 0 0xAA)) = .ok (.bsPutf .s1 0xAA) := by decide
theorem test_decode_bsPutb : decode (plain (word 0x04 1 0 3 0 5)) = .ok (.bsPutb .s1 3 5) := by decide
theorem test_decode_bsPutq : decode (plain (word 0x05 0 1 0 0 0)) = .ok (.bsPutq .s0 .q1) := by decide
theorem test_decode_bsRdb : decode (plain (word 0x06 1 0 3 0 0)) = .ok (.bsRdb .s1 3) := by decide
theorem test_decode_bsPkb : decode (plain (word 0x07 1 0 11 0 0)) = .ok (.bsPkb .s1 11) := by decide
theorem test_decode_bsRd : decode (plain (word 0x08 1 0 0 0 0)) = .ok (.bsRd .s1) := by decide
theorem test_decode_bsPk : decode (plain (word 0x09 1 0 0 0 0)) = .ok (.bsPk .s1) := by decide
theorem test_decode_bsSeek : decode (plain (word 0x0A 0 0 0 4 1)) = .ok (.bsSeek .s0 1 4) := by decide
theorem test_decode_bsAtend : decode (plain (word 0x0B 1 0 0 0 0)) = .ok (.bsAtend .s1) := by decide
theorem test_decode_bsTell : decode (plain (word 0x0C 1 0 0 0 0)) = .ok (.bsTell .s1) := by decide
theorem test_decode_bsLen : decode (plain (word 0x0D 1 0 0 0 0)) = .ok (.bsLen .s1) := by decide
theorem test_decode_bsDump : decode (plain (word 0x0E 1 0 0 0 0)) = .ok (.bsDump .s1) := by decide
theorem test_decode_qClr : decode (plain (word 0x10 1 0 0 0 0)) = .ok (.qClr .q1) := by decide
theorem test_decode_qAdd1 : decode (plain (word 0x11 1 0 0 0 1)) = .ok (.qAdd1 .q1 true) := by decide
theorem test_decode_qAddn : decode (plain (word 0x12 0 0 3 0 3)) = .ok (.qAddn .q0 3 3) := by decide
theorem test_decode_qAddq : decode (plain (word 0x13 1 0 0 0 0)) = .ok (.qAddq .q1 .q0) := by decide
theorem test_decode_qUint : decode (plain (word 0x14 1 0 0 0 0)) = .ok (.qUint .q1) := by decide
theorem test_decode_qHash : decode (plain (word 0x15 1 0 0 0 0)) = .ok (.qHash .q1) := by decide
theorem test_decode_qLen : decode (plain (word 0x16 1 0 0 0 0)) = .ok (.qLen .q1) := by decide
theorem test_decode_hufEnc : decode (plain (word 0x20 0 0 0 0 0)) = .ok (.hufEnc) := by decide
theorem test_decode_hufDec : decode (plain (word 0x21 0 0 0 0 0)) = .ok (.hufDec) := by decide
theorem test_decode_recEnc : decode (plain (word 0x22 0 0 0 0 0x0A02)) = .ok (.recEnc 2 10) := by decide
theorem test_decode_recDec : decode (plain (word 0x23 0 0 0 0 0x0F07)) = .ok (.recDec 7 15) := by decide
theorem test_decode_bsLoad : decode ⟨word 0x01 0 0 0 0 0, [0xA5, 0x3C]⟩ = .ok (.bsLoad .s0 [0xA5, 0x3C]) := by decide
theorem test_decode_drvComp : decode ⟨word 0x30 0 0 0 0 1, [0xA5, 0x3C]⟩ = .ok (.drvComp 1 [0xA5, 0x3C]) := by decide
theorem test_decode_drvDecomp : decode ⟨word 0x31 0 0 0 0 7, [0xA5, 0x3C]⟩ = .ok (.drvDecomp 7 [0xA5, 0x3C]) := by decide

/-- The programs of part 3 print these words whole. -/
theorem test_decode_program_words :
    decode (plain 0x0742C00000000000) = .ok (.bsPkb .s1 11) ∧ decode (plain 0x0601400000000000) = .ok (.bsRdb .s0 5) ∧
    decode (plain 0x1200C00000000003) = .ok (.qAddn .q0 3 3) ∧ decode (plain 0x0A40000000000001) = .ok (.bsSeek .s1 1 0) ∧
    decode (plain 0x1350000000000000) = .ok (.qAddq .q1 .q1) := by decide

/-- Section 2.6, illegal words that no statement lists. -/
theorem test_decode_illegal :
    decode (plain 0xFF00000000000000) = .error .opcode ∧ decode (plain 0x0000000000000001) = .error .unusedField ∧
    decode (plain 0x0200000000000100) = .error .operand ∧ decode (plain 0x0600000000000001) = .error .unusedField ∧
    decode (plain 0x1140000000000002) = .error .operand ∧ decode (plain 0x1320000000000000) = .error .selector ∧
    decode (plain 0x2000000000000001) = .error .unusedField ∧ decode (plain 0x2200000000010A02) = .error .operand ∧
    decode (plain 0x00C0000000000000) = .error .selector ∧ decode (plain 0x1700000000000000) = .error .opcode := by decide

theorem test_encode_boundary :
    (encode (.bsPutb .s0 32 0xDEADBEEF)).word = 0x04080000DEADBEEF ∧ (encode (.recDec 7 15)).word = 0x2300000000000F07 ∧
    (encode (.bsSeek .s0 1 4)).word = 0x0A00200000000001 := by decide

theorem test_decodeTableWord :
    decodeTableWord 64 0x1340000000000000 = some (.qAddq .q1 .q0) ∧ decodeTableWord 64 0x0F00000000000000 = none := by decide

/-- The very next step runs the word. -/
theorem test_withFetchWord :
    (match step (State.reset.withFetchWord 64 0x0400C00000000005) with
     | .next t => some (t.s0, t.pending)
     | _ => none) = some ({ buf := [0x05], bi := 0, bo := 3 }, []) := by decide

/-! ### BS (section 2.1) -/

/-- B25. -/
theorem test_bsNew :
    out0 (.bsNew .s0) (st0 [0xFD, 0xAA] 1 2) =
      some ⟨{ buf := [], bi := 0, bo := 0 }, good 0 []⟩ := by decide
/-- B24. -/
theorem test_bsLoad :
    out0 (.bsLoad .s0 [0xA5, 0x3C, 0x00]) (st0 [0xFD, 0xAA] 1 2) =
      some ⟨{ buf := [0xA5, 0x3C, 0x00], bi := 0, bo := 0 }, good 0 []⟩ := by decide
/-- B2. -/
theorem test_bsPut_midbyte :
    out0 (.bsPut .s0 0xFF) (st0 [0x05] 0 3) =
      some ⟨{ buf := [0xFD, 0x07], bi := 1, bo := 3 }, good 0 []⟩ := by decide
/-- B12. -/
theorem test_bsPut_overwrites :
    out0 (.bsPut .s0 0x99) (st0 [0x11, 0x22, 0x33] 0 0) =
      some ⟨{ buf := [0x99, 0x22, 0x33], bi := 1, bo := 0 }, good 0 []⟩ := by decide
/-- B11. -/
theorem test_bsPutf :
    out0 (.bsPutf .s0 0xAA) (st0 [0x11, 0x22, 0x33] 1 0) =
      some ⟨{ buf := [0x11, 0xAA, 0x33], bi := 2, bo := 0 }, good 0 []⟩ := by decide
/-- B14. -/
theorem test_bsPutf_at_end :
    resp (.bsPutf .s0 0x99) (st0 [0x11, 0x22] 2 0) =
      bad 2 := by decide
/-- S1. -/
theorem test_bsPutb_deadbeef :
    out0 (.bsPutb .s0 32 0xDEADBEEF) State.reset =
      some ⟨{ buf := [0xEF, 0xBE, 0xAD, 0xDE], bi := 4, bo := 0 }, good 0 []⟩ := by decide
/-- B5. -/
theorem test_bsPutb_clears :
    out0 (.bsPutb .s0 4 0) (st0 [0xFF, 0xFF] 0 4) =
      some ⟨{ buf := [0x0F, 0xFF], bi := 1, bo := 0 }, good 0 []⟩ := by decide
/-- B22. -/
theorem test_bsPutq :
    out0 (.bsPutq .s0 .q1) (stq [] [true, false, true, true]) =
      some ⟨{ buf := [0x0D], bi := 0, bo := 4 }, good 0 []⟩ := by decide
/-- B6. -/
theorem test_bsRdb :
    out0 (.bsRdb .s0 8) (st0 [0xA5, 0x3C] 0 4) =
      some ⟨{ buf := [0xA5, 0x3C], bi := 1, bo := 4 }, good 0xCA []⟩ := by decide
/-- B8. -/
theorem test_bsRdb_past_end :
    resp (.bsRdb .s0 5) (st0 [0xA5, 0x3C] 1 4) =
      bad 1 := by decide
/-- B3. -/
theorem test_bsPkb :
    out0 (.bsPkb .s0 11) (st0 [0xFD, 0x07] 0 0) =
      some ⟨{ buf := [0xFD, 0x07], bi := 0, bo := 0 }, good 0x7FD []⟩ := by decide
/-- B6. -/
theorem test_bsRd :
    out0 (.bsRd .s0) (st0 [0xA5, 0x3C] 0 4) =
      some ⟨{ buf := [0xA5, 0x3C], bi := 1, bo := 4 }, good 0xCA []⟩ := by decide
/-- B4. -/
theorem test_bsPk :
    out0 (.bsPk .s0) (st0 [0xFD, 0x07] 0 3) =
      some ⟨{ buf := [0xFD, 0x07], bi := 0, bo := 3 }, good 0xFF []⟩ := by decide
/-- B16. -/
theorem test_bsSeek_append_position :
    out0 (.bsSeek .s0 1 3) (st0 [0xA5] 0 0) =
      some ⟨{ buf := [0xA5], bi := 1, bo := 3 }, good 0 []⟩ := by decide
/-- B19. -/
theorem test_bsSeek_range :
    resp (.bsSeek .s0 2 0) (st0 [0xA5] 0 0) =
      bad 3 := by decide
/-- B17. -/
theorem test_bsPutb_unaligned :
    resp (.bsPutb .s0 1 1) (st0 [0xA5] 1 3) =
      bad 4 := by decide
/-- B1: data behind the cursor, not at the end. -/
theorem test_bsAtend :
    resp (.bsAtend .s0) (st0 [0x05] 0 3) =
      good 0 [] := by decide
/-- B23. -/
theorem test_bsTell :
    resp (.bsTell .s0) (st0 [0xFD, 0xAA] 0 5) =
      good 5 [] := by decide
/-- B23. -/
theorem test_bsLen :
    resp (.bsLen .s0) (st0 [0xFD, 0xAA] 0 5) =
      good 2 [] := by decide
/-- B23. -/
theorem test_bsDump :
    resp (.bsDump .s0) (st0 [0xFD, 0xAA] 0 5) =
      good 2 [0xFD, 0xAA] := by decide
/-- `10_state.md` R36. -/
theorem test_bsPut_capacity :
    resp (.bsPut .s0 1) (st0c 2 [0x11, 0x22] 2 0) =
      bad 9 := by decide

/-! ### Q (section 2.2) -/

/-- Q9. -/
theorem test_qClr :
    outq .q0 (.qClr .q0) (stq [true, false] []) =
      some ⟨[], good 0 []⟩ := by decide
/-- Q3. -/
theorem test_qAdd1 :
    outq .q0 (.qAdd1 .q0 false) (stq [true] []) =
      some ⟨[true, false], good 0 []⟩ := by decide
/-- Q2. -/
theorem test_qAddn :
    outq .q0 (.qAddn .q0 3 3) (stq [] []) =
      some ⟨[false, true, true], good 0 []⟩ := by decide
/-- Q5. -/
theorem test_qAddq :
    outq .q1 (.qAddq .q1 .q0) (stq [false, true, true] [true, false]) =
      some ⟨[true, false, false, true, true], good 0 []⟩ := by decide
/-- Q6. -/
theorem test_qAddq_itself :
    outq .q0 (.qAddq .q0 .q0) (stq [true, false] []) =
      some ⟨[true, false, true, false], good 0 []⟩ := by decide
/-- Q5. -/
theorem test_qUint :
    resp (.qUint .q1) (stq [] [true, false, false, true, true]) =
      good 19 [] := by decide
/-- Q4, S6. -/
theorem test_qHash :
    resp (.qHash .q0) (stq [false, true, false] []) =
      good 10 [] := by decide
/-- Q1. -/
theorem test_qHash_empty :
    resp (.qHash .q0) (stq [] []) =
      good 1 [] := by decide
/-- Q5. -/
theorem test_qLen :
    resp (.qLen .q1) (stq [] [true, false, false, true, true]) =
      good 5 [] := by decide

/-! ### HUF, REC (sections 2.3, 2.4) -/

/-- H3, hand-checked. -/
theorem test_hufEnc :
    out1 .hufEnc (st0 [0x61, 0x62] 0 0) =
      some ⟨{ buf := [0x12, 0x10, 0x16, 0xA0, 0x58, 0x00, 0x01], bi := 0, bo := 3 }, good 1 []⟩ := by decide +kernel
/-- H4. -/
theorem test_hufEnc_tie_break :
    out1 .hufEnc (st0 [0x61, 0x61, 0x62] 0 0) =
      some ⟨{ buf := [0x13, 0x10, 0x16, 0x80, 0x58, 0x80, 0x04], bi := 0, bo := 3 }, good 1 []⟩ := by decide +kernel
/-- H3. -/
theorem test_hufDec :
    out1 .hufDec (st0 [0x12, 0x10, 0x16, 0xA0, 0x58, 0x00, 0x01] 0 0) =
      some ⟨{ buf := [0x61, 0x62], bi := 2, bo := 0 }, good 1 []⟩ := by decide +kernel
/-- H6. -/
theorem test_hufDec_one_byte_value :
    out1 .hufDec (st0 [0x0D, 0x10, 0x06, 0x00] 0 0) =
      some ⟨{ buf := [], bi := 0, bo := 0 }, good 1 []⟩ := by decide +kernel
/-- E5. -/
theorem test_recEnc :
    out1 (.recEnc 2 10) (st0 [0x61, 0x61, 0x61, 0x61] 0 0) =
      some ⟨{ buf := [0x0C, 0x10, 0x06, 0x00], bi := 0, bo := 3 }, good 1 []⟩ := by decide +kernel
/-- E3. -/
theorem test_recDec :
    out1 (.recDec 2 10) (st0 [0x2A, 0x10, 0x26, 0x26, 0x37, 0x46, 0x46, 0x72, 0x00, 0x0B, 0x90, 0x00] 0 0) =
      some ⟨{ buf := [0x61, 0x62, 0x72, 0x61, 0x63, 0x61, 0x64, 0x61, 0x62, 0x72, 0x61], bi := 11, bo := 0 }, good 1 []⟩ := by decide +kernel
/-- E7, P7: a format error, not a fault. -/
theorem test_recDec_no_such_rank :
    resp (.recDec 2 10) (st0 [0x0E, 0x10, 0x16] 0 0) =
      good 0 [] := by decide +kernel
/-- H10. -/
theorem test_codec_precond :
    resp .hufEnc (st0 [0x61] 0 1) =
      bad 6 := by decide
/-- E8. -/
theorem test_illegal_pair :
    resp (.recEnc 2 11) State.reset =
      bad 5 := by decide

/-! ### DRV (section 2.5) -/

/-- V1. -/
theorem test_drvComp_identity :
    out0 (.drvComp 0 [1, 2, 3]) State.reset =
      some ⟨{ buf := [0x1, 0x2, 0x3], bi := 3, bo := 0 }, good 3 [1, 2, 3]⟩ := by decide
/-- V3, E3. -/
theorem test_drvComp_abracadabra :
    out1 (.drvComp 2 [0x61, 0x62, 0x72, 0x61, 0x63, 0x61, 0x64, 0x61, 0x62, 0x72, 0x61]) State.reset =
      some ⟨{ buf := [0x2A, 0x10, 0x26, 0x26, 0x37, 0x46, 0x46, 0x72, 0x00, 0x0B, 0x90, 0x00], bi := 0, bo := 3 },
        good 12 [0x2A, 0x10, 0x26, 0x26, 0x37, 0x46, 0x46, 0x72, 0x00, 0x0B, 0x90, 0x00]⟩ := by decide +kernel
/-- V5. -/
theorem test_drvDecomp_wrong_answer :
    resp (.drvDecomp 1 [0x0D, 0x10, 0x06, 0x00]) State.reset =
      good 0 [] := by decide +kernel
/-- V4, P8. -/
theorem test_drvDecomp_assert :
    resp (.drvDecomp 2 [0x0E, 0x10, 0x16]) State.reset =
      bad 8 := by decide +kernel

/-- P7: after a decoder's `false` the cursor of `IN` has moved, whatever the free values are. -/
theorem test_codec_twice :
    ((after (.recDec 2 10) (st0 [0x0E, 0x10, 0x16] 0 0)).bind (resp (.recDec 2 10))) = bad 6 := by
  have h : ∀ n, freeInIndex n 3 ≠ 0 := fun n => by simp [freeInIndex]
  have hd : recDecode (st0 [0x0E, 0x10, 0x16] 0 0).cfg 2 10 (st0 [0x0E, 0x10, 0x16] 0 0).s0
      (st0 [0x0E, 0x10, 0x16] 0 0).s1 = .ok none := by rfl
  have e : exec (.recDec 2 10) (st0 [0x0E, 0x10, 0x16] 0 0) =
      .next ((st0 [0x0E, 0x10, 0x16] 0 0).afterFalse.complete 0 []) :=
    by
    rw [exec, execRecDec, show wfPair 2 10 = true from rfl, begin_legal rfl, hd, runCodec_false rfl]
  simp only [after, e, Option.bind_some, resp]
  rw [exec, execRecDec, show wfPair 2 10 = true from rfl, begin_legal rfl, runCodec_not_ready]
  · rfl
  · simp [State.codecReady, State.afterFalse, st0, h]

/-! ### The latch and reset (P6, `60_exceptions.md` R244, `70_reset_and_hazards.md` R271) -/

theorem test_latch : resp (.bsLen .s0) (latched 1) = bad 1 := by decide

theorem test_reset :
    (match step { latched 1 with s0 := ⟨[0xA5], 1, 3⟩, q1 := [true], pending := [.reset] } with
     | .next t => some t
     | _ => none) = some State.reset := by decide

theorem test_memory_cells : Memory.cells [0xA5, 0x3C] = [(0, 0xA5), (1, 0x3C)] ∧ Memory.wf [0xA5, 0x3C] = true := by decide

/-! ### Witnesses: a state and operands that meet the hypotheses of a statement, one for each clause -/

theorem witness_EncodeThenDecode : ∃ i j : Instr, i.wf = true ∧ j.wf = true ∧ i = .bsPutb .s1 32 0xFFFFFFFF ∧
    j = .bsPutb .s0 0 0 := ⟨_, _, by decide, by decide, rfl, rfl⟩

theorem witness_DecodeThenEncode : ∃ (c : Command) (i : Instr), decode c = .ok i :=
  ⟨plain 0x0742C00000000000, .bsPkb .s1 11, by decide⟩

theorem witness_TableRows : ∃ r ∈ opRows, ∃ w : CmdWord, r.selects w = true :=
  ⟨⟨"BS.NEW", 0x0000000000000000, 0xFFBFFFFFFFFFFFFF, .none, false⟩, by decide, 0x0040000000000000, by decide⟩

theorem witness_StepRuns_command : ∃ (s : State) (c : Command) (rest : List HostEvent) (i : Instr),
    s.pending = .command c :: rest ∧ decode c = .ok i :=
  ⟨withEvent (.command (plain 0x0742C00000000000)), _, [], .bsPkb .s1 11, rfl, by decide⟩

theorem witness_StepRuns_illegal : ∃ (s : State) (c : Command) (rest : List HostEvent) (e : Illegal),
    s.pending = .command c :: rest ∧ decode c = .error e :=
  ⟨withEvent (.command (plain 0x0F00000000000000)), _, [], .opcode, rfl, by decide⟩

theorem witness_StepRuns_reset_and_idle : (∃ (s : State) (rest : List HostEvent), s.pending = .reset :: rest) ∧
    ∃ s : State, s.pending = [] := ⟨⟨withEvent .reset, [], rfl⟩, State.reset, rfl⟩

theorem witness_IllegalCommand : ∃ (s : State) (c : Command) (rest : List HostEvent),
    s.pending = .command c :: rest ∧ (∀ i, decode c ≠ .ok i) ∧ s.fatal = false :=
  ⟨withEvent (.command (plain 0x0F00000000000000)), _, [], rfl, fun i => by
    rw [show decode (plain 0x0F00000000000000) = .error .opcode by decide]; nofun, rfl⟩

theorem witness_IllFormed : ∃ (i : Instr) (s : State), i.wf = false ∧ s.fatal = false :=
  ⟨.recEnc 2 11, State.reset, by decide, rfl⟩

theorem witness_FatalLatch : ∃ (s : State) (c : Command) (rest : List HostEvent),
    s.fatal = true ∧ s.pending = .command c :: rest :=
  ⟨{ latched 1 with pending := [.command (plain 0)] }, _, [], rfl, rfl⟩

theorem witness_FatalLatch_cleared : ∃ s t : State, s.fatal = true ∧ step s = .next t ∧ t.fatal = false :=
  ⟨{ latched 1 with pending := [.reset] }, _, rfl, rfl, rfl⟩

theorem witness_Reset : ∃ (s : State) (rest : List HostEvent), s.pending = .reset :: rest ∧ s.q0 ≠ [] ∧ s.fatal = true :=
  ⟨{ latched 9 with q0 := [true], pending := [.reset] }, [], rfl, by decide, rfl⟩

/-- A state with data in it, on a block with limits, meets the invariant. -/
theorem inv_example : Inv { st0c 2 [0xA5, 0x3C] 2 7 with q0 := [true], pending := [.command (plain 0x0742C00000000000)] } where
  streams _ x := by cases x <;> exact ⟨by decide, by decide⟩
  seqs _ a := by cases a <;> decide
  status := ⟨fun _ => rfl, nofun⟩
  responses := nofun

theorem witness_EveryStepKeepsTheInvariant : ∃ s t : State, Inv s ∧ step s = .next t := ⟨_, _, inv_example, rfl⟩

theorem witness_EveryRun : ∃ s : State, Inv s := ⟨_, inv_example⟩

theorem witness_DataAfterAFault : ∃ s s' t : State, SameToHost s s' ∧ s.s0 ≠ s'.s0 ∧
    Host.Core.run Sys2Proof.core 1 s = .next t :=
  ⟨{ latched 1 with s0 := ⟨[0xA5], 1, 3⟩, pending := [.reset] }, { latched 1 with pending := [.reset] }, _,
    ⟨rfl, rfl, rfl, rfl, rfl, rfl, nofun⟩, by decide, (run_succ rfl).trans rfl⟩

theorem witness_OneResponse : (∃ s t : State, exec (.bsNew .s0) s = .next t ∧ StatusOk s ∧ t.fatal = false) ∧
    (∃ s t : State, exec (.bsRd .s0) s = .next t ∧ t.fatal = true) ∧
    Instr.returnsValue (.bsNew .s0) = false ∧ Instr.returnsPayload (.bsRd .s0) = false :=
  ⟨⟨State.reset, _, rfl, ⟨fun _ => rfl, nofun⟩, rfl⟩, ⟨State.reset, _, rfl, rfl⟩, rfl, rfl⟩

/-- The hypotheses of the statement on causes and of the one on unbounded blocks. -/
theorem witness_Causes : ∃ (i : Instr) (s t : State), exec i s = .next t ∧ s.fatal = false ∧ s.cfg.maxBuf = none ∧
    s.cfg.qMax = none ∧ t.fatal = true := ⟨.bsRd .s0, State.reset, _, rfl, rfl, rfl, rfl, rfl⟩

theorem witness_Causes_illegal : ∃ (i : Instr) (s t : State), exec i s = .next t ∧ s.fatal = false ∧ t.fatal = true ∧
    i.wf = false := ⟨.drvComp 8 [], State.reset, _, rfl, rfl, rfl, rfl⟩

theorem witness_ByteIndexFits : ∃ s : State, Inv s ∧ s.fatal = false ∧ s.cfg.legal = true ∧ s.cfg.maxBuf ≠ none :=
  ⟨_, inv_example, rfl, by decide, by decide⟩

/-- `BS.NEW`, the accessors and width 0 need only `FATAL = 0`. -/
theorem witness_NoFault : ∃ s : State, s.fatal = false ∧ s.s0.bi = s.s0.buf.length ∧ s.s0.bo ≠ 0 :=
  ⟨st0 [0xA5] 1 3, rfl, rfl, by decide⟩

theorem witness_BsLoad : (∃ (p : List Byte) (s : State), s.fatal = false ∧ p.length = 2 ∧ s.cfg.bufFits p.length = true) ∧
    ∃ (p : List Byte) (s : State), s.fatal = false ∧ p.length = 3 ∧ s.cfg.bufFits p.length = false :=
  ⟨⟨[1, 2], st0c 2 [] 0 0, by decide⟩, [1, 2, 3], st0c 2 [] 0 0, by decide⟩

theorem witness_BsPut_overwrite : ∃ s : State, s.fatal = false ∧ s.s0.bo = 0 ∧ s.s0.bi < s.s0.buf.length :=
  ⟨st0 [0x11] 0 0, by decide⟩

theorem witness_BsPut_append : ∃ s : State, s.fatal = false ∧ s.s0.bo = 0 ∧ s.s0.bi = s.s0.buf.length ∧
    s.cfg.bufFits (s.s0.buf.length + 1) = true := ⟨st0c 1 [] 0 0, by decide⟩

theorem witness_BsPut_full : ∃ s : State, s.fatal = false ∧ s.s0.bo = 0 ∧ s.s0.bi = s.s0.buf.length ∧
    s.cfg.bufFits (s.s0.buf.length + 1) = false := ⟨st0c 1 [0x11] 1 0, by decide⟩

theorem witness_BsPut_midbyte : ∃ s : State, s.fatal = false ∧ s.s0.bo ≠ 0 ∧ s.s0.bi < s.s0.buf.length ∧
    (s.s0.bi + 1 < s.s0.buf.length ∨ s.cfg.bufFits (s.s0.buf.length + 1) = true) := ⟨st0c 2 [0x05] 0 3, by decide⟩

theorem witness_BsPut_midbyte_full : ∃ s : State, s.fatal = false ∧ s.s0.bo ≠ 0 ∧ s.s0.bi + 1 = s.s0.buf.length ∧
    s.cfg.bufFits (s.s0.buf.length + 1) = false := ⟨st0c 1 [0x05] 0 7, by decide⟩

theorem witness_BsPutf : (∃ s : State, s.fatal = false ∧ s.s0.bi < s.s0.buf.length ∧ s.s0.bo = 0) ∧
    (∃ s : State, s.fatal = false ∧ s.s0.buf.length ≤ s.s0.bi) ∧ ∃ s : State, s.fatal = false ∧ s.s0.bo ≠ 0 :=
  ⟨⟨st0 [0x11] 0 0, by decide⟩, ⟨st0 [0x11] 1 0, by decide⟩, st0 [0x11] 0 1, by decide⟩

theorem witness_BsPutb_writes : ∃ (n pattern : Nat) (s : State), n ≤ 32 ∧ pattern < 2 ^ n ∧ s.fatal = false ∧ n ≠ 0 ∧
    s.s0.pos ≤ 8 * s.s0.buf.length ∧ s.s0.pos + n ≤ 8 * s.s0.buf.length := ⟨5, 31, st0 [0x05] 0 3, by decide⟩

theorem witness_BsPutb_grows : ∃ (n pattern : Nat) (s : State), n ≤ 32 ∧ pattern < 2 ^ n ∧ s.fatal = false ∧ n ≠ 0 ∧
    s.s0.pos ≤ 8 * s.s0.buf.length ∧ 8 * s.s0.buf.length < s.s0.pos + n ∧
    s.cfg.bufFits (bytesFor (s.s0.pos + n)) = true := ⟨32, 0xFFFFFFFF, st0c 4 [] 0 0, by decide⟩

theorem witness_BsPutb_full : ∃ (n pattern : Nat) (s : State), n ≤ 32 ∧ pattern < 2 ^ n ∧ s.fatal = false ∧ n ≠ 0 ∧
    s.s0.pos ≤ 8 * s.s0.buf.length ∧ 8 * s.s0.buf.length < s.s0.pos + n ∧
    s.cfg.bufFits (bytesFor (s.s0.pos + n)) = false := ⟨6, 63, st0c 1 [0x05] 0 3, by decide⟩

/-- Also the hypotheses of the dead end (R276). -/
theorem witness_BsPutb_unaligned : ∃ (n pattern : Nat) (s : State), n ≤ 32 ∧ pattern < 2 ^ n ∧ s.fatal = false ∧ n ≠ 0 ∧
    s.s0.bi = s.s0.buf.length ∧ s.s0.bo ≠ 0 := ⟨1, 1, st0 [0xA5] 1 3, by decide⟩

theorem witness_BsPutq_writes : ∃ s : State, s.fatal = false ∧ s.seq .q1 ≠ [] ∧ s.s0.pos ≤ 8 * s.s0.buf.length ∧
    s.cfg.bufFits (bytesFor (s.s0.pos + (s.seq .q1).length)) = true :=
  ⟨{ st0c 1 [] 0 0 with q1 := [true, false, true, true] }, by decide⟩

theorem witness_BsPutq_full : ∃ s : State, s.fatal = false ∧ s.seq .q1 ≠ [] ∧ s.s0.pos ≤ 8 * s.s0.buf.length ∧
    8 * s.s0.buf.length < s.s0.pos + (s.seq .q1).length ∧
    s.cfg.bufFits (bytesFor (s.s0.pos + (s.seq .q1).length)) = false :=
  ⟨{ st0c 1 [0] 0 7 with q1 := [true, false] }, by decide⟩

theorem witness_BsPutq_unaligned_and_empty :
    (∃ s : State, s.fatal = false ∧ s.seq .q1 ≠ [] ∧ s.s0.bi = s.s0.buf.length ∧ s.s0.bo ≠ 0) ∧
    ∃ s : State, s.fatal = false ∧ s.seq .q1 = [] := ⟨⟨{ st0 [0] 1 1 with q1 := [true] }, by decide⟩, State.reset, by decide⟩

/-- The last bits of a buffer; also the hypotheses of `BS.PKB`. -/
theorem witness_BsRdb : ∃ (n : Nat) (s : State), n ≤ 32 ∧ s.fatal = false ∧ s.s0.pos + n ≤ 8 * s.s0.buf.length ∧ n ≠ 0 :=
  ⟨4, st0 [0xA5, 0x3C] 1 4, by decide⟩

theorem witness_BsRdb_past : ∃ (n : Nat) (s : State), n ≤ 32 ∧ s.fatal = false ∧ n ≠ 0 ∧
    8 * s.s0.buf.length < s.s0.pos + n := ⟨5, st0 [0xA5, 0x3C] 1 4, by decide⟩

/-- Also the hypotheses of `BS.PK`. -/
theorem witness_BsRd_aligned : ∃ (v : Byte) (s : State), s.fatal = false ∧ s.s0.bo = 0 ∧ s.s0.buf[s.s0.bi]? = some v :=
  ⟨0x3C, st0 [0xA5, 0x3C] 1 0, by decide⟩

theorem witness_BsRd_midbyte : ∃ (v w : Byte) (s : State), s.fatal = false ∧ s.s0.bo ≠ 0 ∧
    s.s0.buf[s.s0.bi]? = some v ∧ s.s0.buf[s.s0.bi + 1]? = some w := ⟨0xA5, 0x3C, st0 [0xA5, 0x3C] 0 7, by decide⟩

theorem witness_BsRd_past : ∃ s : State, s.fatal = false ∧ 8 * s.s0.buf.length < s.s0.pos + 8 :=
  ⟨st0 [0xA5] 0 1, by decide⟩

theorem witness_BsSeek : (∃ (i : BitVec 32) (s : State), s.fatal = false ∧ i.toNat ≤ s.s0.buf.length ∧
      i.toNat = s.s0.buf.length) ∧
    ∃ (i : BitVec 32) (s : State), s.fatal = false ∧ s.s0.buf.length < i.toNat :=
  ⟨⟨1, st0 [0xA5] 0 0, by decide⟩, 2, st0 [0xA5] 0 0, by decide⟩

theorem witness_WriteSeekRead_pattern : ∃ (n v : Nat) (s t u : State), n ≤ 32 ∧ v < 2 ^ n ∧ s.fatal = false ∧
    exec (.bsPutb .s0 n v) s = .next t ∧ t.fatal = false ∧ u.fatal = false ∧ (s.stream .s0).bi < 2 ^ 32 ∧
    (s.stream .s0).bi ≤ (u.stream .s0).buf.length ∧ n ≠ 0 ∧
    ∀ j, j < n → bitAtPos (u.stream .s0).buf ((s.stream .s0).pos + j) = bitAtPos (t.stream .s0).buf ((s.stream .s0).pos + j) :=
  ⟨3, 5, State.reset, _, st0 [0xFD, 0x07] 1 3, by decide, by decide, rfl, rfl, rfl, rfl, by decide, by decide, by decide,
    by decide⟩

theorem witness_WriteSeekRead_byte : ∃ (v : Byte) (s t u : State), s.fatal = false ∧ exec (.bsPut .s0 v) s = .next t ∧
    t.fatal = false ∧ u.fatal = false ∧ (s.stream .s0).bi < 2 ^ 32 ∧
    ∀ j, j < 8 → bitAtPos (u.stream .s0).buf ((s.stream .s0).pos + j) = bitAtPos (t.stream .s0).buf ((s.stream .s0).pos + j) :=
  ⟨0xFF, st0 [0x05] 0 3, _, st0 [0xFD, 0x07, 0x11] 0 0, rfl, rfl, rfl, rfl, by decide, by decide⟩

theorem witness_WriteSeekRead_peek : ∃ (n : Nat) (s t : State), n ≤ 32 ∧ s.fatal = false ∧
    exec (.bsRdb .s0 n) s = .next t ∧ t.fatal = false ∧ n ≠ 0 :=
  ⟨4, st0 [0xA5, 0x3C] 1 4, _, by decide, rfl, rfl, rfl, by decide⟩

theorem witness_WriteSeekRead_seek : ∃ (i : BitVec 32) (k : Fin 8) (n : Nat) (s : State), n ≤ 32 ∧ s.fatal = false ∧
    8 * i.toNat + k.val + n ≤ 8 * (s.stream .s0).buf.length ∧ n ≠ 0 := ⟨1, 4, 4, st0 [0xA5, 0x3C] 0 0, by decide⟩

theorem witness_DeadEnd : ∃ (i : BitVec 32) (q : SeqId) (s : State), s.fatal = false ∧ i.toNat = (s.stream .s0).buf.length ∧
    (s.stream .s0).bi = (s.stream .s0).buf.length ∧ (s.stream .s0).bo ≠ 0 ∧ s.seq q ≠ [] :=
  ⟨1, .q1, { st0 [0xA5] 1 3 with q1 := [true] }, by decide⟩

/-- The hypotheses of the three statements on frames; the bits stored are 3 to 7. -/
theorem witness_Frames : ∃ (i : Instr) (s t : State) (p q : Nat), exec i s = .next t ∧ t.fatal = false ∧
    i.replacesBuffer = false ∧ i.writesStream .s1 = false ∧ i.writesSeq .q0 = false ∧
    p < 8 * (s.stream .s0).buf.length ∧ p < (s.stream .s0).pos ∧
    q < 8 * (s.stream .s0).buf.length ∧ (s.stream .s0).pos + storedBits i s .s0 ≤ q :=
  ⟨.bsPutb .s0 5 0, st0 [0xFF, 0xFF] 0 3, _, 2, 8, rfl, rfl, rfl, rfl, rfl, by decide, by decide, by decide, by decide⟩

theorem witness_SequenceWrites : ∃ (n pattern : Nat) (s : State), n ≤ 32 ∧ pattern < 2 ^ n ∧ s.fatal = false ∧
    s.cfg.seqFits ((s.seq .q0).length + 1) = true ∧ s.cfg.seqFits ((s.seq .q0).length + n) = true ∧
    s.cfg.seqFits ((s.seq .q0).length + (s.seq .q1).length) = true :=
  ⟨2, 3, stqc 4 [true, false] [true, true], by decide⟩

theorem witness_SequenceWrites_full : ∃ (n pattern : Nat) (s : State), n ≤ 32 ∧ pattern < 2 ^ n ∧ s.fatal = false ∧
    s.cfg.seqFits ((s.seq .q0).length + 1) = false ∧ s.cfg.seqFits ((s.seq .q0).length + n) = false ∧
    s.cfg.seqFits ((s.seq .q0).length + (s.seq .q1).length) = false :=
  ⟨1, 1, stqc 2 [true, false] [true], by decide⟩

theorem witness_SequenceViews : ∃ (n v : Nat) (s t : State), n ≤ 32 ∧ v < 2 ^ n ∧ s.fatal = false ∧ s.seq .q0 = [] ∧
    exec (.qAddn .q0 n v) s = .next t ∧ t.fatal = false :=
  ⟨32, 0xDEADBEEF, State.reset, _, by decide, by decide, rfl, rfl, rfl, rfl⟩

theorem witness_TwoBitOrders : ∃ (n v : Nat) (s t u w : State), n ≤ 32 ∧ v < 2 ^ n ∧ s.fatal = false ∧ s.seq .q1 = [] ∧
    exec (.bsPutb .s0 n v) s = .next t ∧ t.fatal = false ∧ exec (.qAddn .q1 n v) s = .next u ∧ u.fatal = false ∧
    exec (.bsPutq .s0 .q1) u = .next w ∧ w.fatal = false ∧ n ≠ 0 :=
  ⟨5, 19, State.reset, _, _, _, by decide, by decide, rfl, rfl, rfl, rfl, rfl, rfl, rfl, rfl, by decide⟩

theorem witness_CodecsDemandFreshStreams : ∃ s : State, s.fatal = false ∧ ¬ FreshStreams s :=
  ⟨st0 [0x61] 0 1, rfl, fun h => absurd h.2.1 (by decide)⟩

/-- The hypotheses of the two encoders' statements, at the limit and one byte below it. -/
theorem witness_Encoders : (∃ s : State, s.fatal = false ∧ FreshStreams s ∧ s.cfg.bufFits s.s0.buf.length = true ∧
      s.cfg.bufFits (bytesFor (hufTotal s.s0.buf)) = true ∧ s.cfg.bufFits (bytesFor (recTotal 2 10 s.s0.buf)) = true) ∧
    ∃ s : State, s.fatal = false ∧ FreshStreams s ∧
      s.cfg.bufFits (bytesFor (hufTotal s.s0.buf)) = false ∧ s.cfg.bufFits (bytesFor (recTotal 2 10 s.s0.buf)) = false :=
  ⟨⟨st0c 2 [] 0 0, rfl, ⟨rfl, rfl, rfl, rfl, rfl⟩, by decide, by decide +kernel, by decide +kernel⟩,
    st0c 1 [] 0 0, rfl, ⟨rfl, rfl, rfl, rfl, rfl⟩, by decide +kernel, by decide +kernel⟩

/-- H3 reads as "ab". -/
theorem reads_H3 : HufReads [0x12, 0x10, 0x16, 0xA0, 0x58, 0x00, 0x01] [0x61, 0x62] := by
  have hd : hufDecode Config.unbounded (Stream.fresh [0x12, 0x10, 0x16, 0xA0, 0x58, 0x00, 0x01]) Stream.empty =
      .ok (some ({ buf := [0x12, 0x10, 0x16, 0xA0, 0x58, 0x00, 0x01], bi := 6, bo := 2 },
        { buf := [0x61, 0x62], bi := 2, bo := 0 })) := by decide +kernel
  obtain ⟨out, ho, he⟩ := hufReads_of_decode hd
  have : out = [0x61, 0x62] := congrArg Stream.buf he.symm
  exact this ▸ ho

/-- E5 reads as "aaaa". -/
theorem reads_E5 : RecReads 2 10 [0x0C, 0x10, 0x06, 0x00] [0x61, 0x61, 0x61, 0x61] := by
  have hd : recDecode Config.unbounded 2 10 (Stream.fresh [0x0C, 0x10, 0x06, 0x00]) Stream.empty =
      .ok (some ({ buf := [0x0C, 0x10, 0x06, 0x00], bi := 3, bo := 4 },
        { buf := [0x61, 0x61, 0x61, 0x61], bi := 4, bo := 0 })) := by decide +kernel
  obtain ⟨out, ho, he⟩ := recReads_of_decode (by decide) (by decide) hd
  have : out = [0x61, 0x61, 0x61, 0x61] := congrArg Stream.buf he.symm
  exact this ▸ ho

theorem witness_HufDec : ∃ (s : State) (out : List Byte), s.fatal = false ∧ FreshStreams s ∧ HufReads s.s0.buf out ∧
    s.cfg.bufFits out.length = true :=
  ⟨st0 [0x12, 0x10, 0x16, 0xA0, 0x58, 0x00, 0x01] 0 0, [0x61, 0x62], rfl, ⟨rfl, rfl, rfl, rfl, rfl⟩, reads_H3, rfl⟩

theorem witness_HufDec_full : ∃ (s : State) (out : List Byte), s.fatal = false ∧ FreshStreams s ∧ HufStarts s.s0.buf out [] ∧
    s.cfg.bufFits out.length = false :=
  ⟨st0c 1 [0x12, 0x10, 0x16, 0xA0, 0x58, 0x00, 0x01] 0 0, [0x61, 0x62], rfl, ⟨rfl, rfl, rfl, rfl, rfl⟩, reads_H3, rfl⟩

theorem witness_RecDec : ∃ (s : State) (out : List Byte), s.fatal = false ∧ FreshStreams s ∧ RecReads 2 10 s.s0.buf out ∧
    s.cfg.bufFits out.length = true :=
  ⟨st0 [0x0C, 0x10, 0x06, 0x00] 0 0, [0x61, 0x61, 0x61, 0x61], rfl, ⟨rfl, rfl, rfl, rfl, rfl⟩, reads_E5, rfl⟩

theorem witness_RecDec_full : ∃ (s : State) (out : List Byte), s.fatal = false ∧ FreshStreams s ∧ RecStarts 2 10 s.s0.buf out [] ∧
    s.cfg.bufFits out.length = false :=
  ⟨st0c 3 [0x0C, 0x10, 0x06, 0x00] 0 0, [0x61, 0x61, 0x61, 0x61], rfl, ⟨rfl, rfl, rfl, rfl, rfl⟩, reads_E5, rfl⟩

/-- A buffer that reads as nothing, for both decoders, on a block of one byte; also the hypotheses of R172's short input. -/
theorem witness_Decoders_false : ∃ s : State, s.fatal = false ∧ FreshStreams s ∧ s.s0.buf.length < 2 ∧ s.cfg.maxBuf = some 1 ∧
    (∀ out, ¬ HufReads s.s0.buf out) ∧ (∀ out rest, HufStarts s.s0.buf out rest → s.cfg.bufFits out.length = true) ∧
    (∀ out, ¬ RecReads 2 10 s.s0.buf out) ∧ ∀ out rest, RecStarts 2 10 s.s0.buf out rest → s.cfg.bufFits out.length = true :=
  ⟨st0c 1 [0x00] 0 0, rfl, ⟨rfl, rfl, rfl, rfl, rfl⟩, by decide, rfl, fun _ h => absurd h.1 (by decide),
    fun _ _ h => absurd h.1 (by decide), fun _ h => absurd h.1 (by decide), fun _ _ h => absurd h.1 (by decide)⟩

/-- The input of assumption 10, two bytes with size 0: a final bit-count of 1 to 3 puts the end boundary before the end of
the header and reads as nothing; 4 puts it there exactly and reads as the empty buffer (R206). -/
theorem witness_RecDec_boundary : (∀ v ∈ [(1 : Byte), 2, 3], ∀ out rest, ¬ RecStarts 2 10 [v, 0] out rest) ∧
    RecReads 2 10 [4, 0] [] ∧ alphaSizeOf [1, 0] = 0 ∧ endOf [3, 0] = 11 ∧ endOf [4, 0] = 12 := by
  have h1 : ∀ v ∈ [(1 : Byte), 2, 3], ¬ 12 + 8 * alphaSizeOf [v, 0] ≤ endOf [v, 0] := by decide +kernel
  exact ⟨fun v hv _ _ h => h1 v hv h.2.2.1, ⟨by decide, by decide +kernel, by decide +kernel, [], by simp, by decide +kernel, rfl⟩,
    by decide +kernel, by decide +kernel, by decide +kernel⟩

/-- R206's test on that input (assumption 10), and the same bytes through `HUF.DEC` (vector H9) for contrast. -/
theorem test_recDec_header_past_end : recDecode Config.unbounded 2 10 (Stream.fresh [1, 0]) Stream.empty = .ok none ∧
    recDecode Config.unbounded 2 10 (Stream.fresh [3, 0]) Stream.empty = .ok none ∧
    recDecode Config.unbounded 2 10 (Stream.fresh [4, 0]) Stream.empty =
      .ok (some ({ buf := [4, 0], bi := 1, bo := 4 }, Stream.empty)) ∧
    hufDecode Config.unbounded (Stream.fresh [3, 0]) Stream.empty =
      .ok (some ({ buf := [3, 0], bi := 1, bo := 4 }, Stream.empty)) := by decide +kernel

/-- R235 on that input (assumption 10). -/
theorem test_drvDecomp_header_past_end :
    driveStreams Config.unbounded (algorithmOf 2) .decompress [1, 0] = .error (.fatal .driverAssert) := by decide +kernel

theorem witness_HuffmanAlphabet : (∃ (data : List Byte) (v w : Byte), v ∈ data ∧ w ∈ data ∧ v ≠ w ∧
      2 ≤ (distinctBytes data).length) ∧
    ∃ (data : List Byte) (v : Byte), v ∈ data ∧ (distinctBytes data).length = 1 :=
  ⟨⟨[0x61, 0x62], 0x61, 0x62, by decide, by decide, by decide, by decide +kernel⟩, [0x61, 0x61], 0x61, by decide,
    by decide +kernel⟩

/-- R79: each pseudo-command is the core command beside it. -/
theorem test_pseudo_commands : (Pseudo.seekByte .s1 7).expand = .bsSeek .s1 7 0 ∧
    (Pseudo.rewind .s0).expand = .bsSeek .s0 0 0 ∧ (Pseudo.putBit .s0 true).expand = .bsPutb .s0 1 1 := by decide

/-- R78: the operand order of a line. -/
theorem test_assembler_line : (Instr.bsPutq .s0 .q1).asm = "BS.PUTQ S0, Q1" := by decide

theorem witness_BadPair : (2, 11) ∉ Config.pairs := by decide

theorem witness_Pairs : (2, 10) ∈ Config.pairs ∧ (7, 15) ∈ Config.pairs ∧ Config.pairs.length = 6 := by decide

/-! The driver's steps by hand. -/

/-- Fresh streams after `BS.LOAD S0` and `BS.NEW S1`. -/
def loaded (cap : Option Nat) (m : List Byte) : State :=
  { State.reset with
    s0 := Stream.fresh m
    cfg := { maxBuf := cap, qMax := none }
    responses := [{ ok := true, cause := 0, value := 0, payload := [] }, { ok := true, cause := 0, value := 0, payload := [] }] }

theorem codec_done {i : Instr} {s : State} {r : CodecResult} {p : Stream × Stream} (he : exec i s = runCodec s r)
    (hs : s.codecReady = true) (hr : r = .ok (some p)) (hw : ∀ x, i.writesStream x = true) :
    ∃ v, exec i s = .next v ∧ Done i s v 1 [] :=
  ⟨(s.setStreams p).complete 1 [], he.trans (by rw [hr, runCodec_true hs]), ⟨rfl, rfl, rfl, rfl, rfl, fun x h => by (rw [hw] at h; cases h),
    fun a _ => match a with | .q0 => rfl | .q1 => rfl⟩⟩

theorem codec_done_false {i : Instr} {s : State} {r : CodecResult} (he : exec i s = runCodec s r)
    (hs : s.codecReady = true) (hr : r = .ok none) (hw : ∀ x, i.writesStream x = true) :
    ∃ v, exec i s = .next v ∧ Done i s v 0 [] :=
  ⟨s.afterFalse.complete 0 [], he.trans (by rw [hr, runCodec_false hs]), ⟨rfl, rfl, rfl, rfl, rfl, fun x h => by (rw [hw] at h; cases h),
    fun a _ => match a with | .q0 => rfl | .q1 => rfl⟩⟩

theorem witness_Driver_true : ∃ s t u v : State, s.fatal = false ∧ exec (.bsLoad .s0 [0x61]) s = .next t ∧ t.fatal = false ∧
    exec (.bsNew .s1) t = .next u ∧ exec (.recEnc 2 10) u = .next v ∧ Done (.recEnc 2 10) u v 1 [] := by
  obtain ⟨o, ho, -⟩ := recEncode_ok (cfg := Config.unbounded) (short := 2) (long := 10) (m := [0x61]) (by decide +kernel)
  obtain ⟨v, hv⟩ := codec_done (i := .recEnc 2 10) (s := loaded none [0x61]) (exec_recEnc rfl rfl) (by decide) ho fun _ => rfl
  exact ⟨State.reset, _, loaded none [0x61], v, rfl, rfl, rfl, rfl, hv⟩

theorem witness_Driver_false : ∃ s t u v : State, s.fatal = false ∧ exec (.bsLoad .s0 [0x0E, 0x10, 0x16]) s = .next t ∧
    t.fatal = false ∧ exec (.bsNew .s1) t = .next u ∧ exec (.recDec 2 10) u = .next v ∧ Done (.recDec 2 10) u v 0 [] := by
  obtain ⟨v, hv⟩ := codec_done_false (i := .recDec 2 10) (s := loaded none [0x0E, 0x10, 0x16])
    (exec_recDec rfl rfl) (by decide) (by decide +kernel) fun _ => rfl
  exact ⟨State.reset, _, loaded none [0x0E, 0x10, 0x16], v, rfl, rfl, rfl, rfl, hv⟩

theorem witness_Driver_fault : ∃ s t u v : State, s.fatal = false ∧ exec (.bsLoad .s0 [0x61]) s = .next t ∧ t.fatal = false ∧
    exec (.bsNew .s1) t = .next u ∧ exec .hufEnc u = .next v ∧ v.fatal = true := by
  have hr : hufEncode { maxBuf := some 2, qMax := none } (Stream.fresh [0x61]) Stream.empty = .error (.fatal .capacity) := by
    decide +kernel
  have he : exec .hufEnc (loaded (some 2) [0x61]) = .next ((loaded (some 2) [0x61]).raiseScrambled .capacity) :=
    (exec_hufEnc rfl).trans ((congrArg (runCodec (loaded (some 2) [0x61])) hr).trans (if_pos (by decide)))
  exact ⟨st0c 2 [] 0 0, _, loaded (some 2) [0x61], _, rfl, rfl, rfl, rfl, he, rfl⟩

theorem witness_Driver_algorithms : ∃ a b : Nat, 2 ≤ a ∧ a ≤ 7 ∧ 2 ≤ b ∧ b ≤ 7 ∧ a = 2 ∧ b = 7 := ⟨2, 7, by decide⟩

theorem witness_DrvComp : ∃ (alg : Nat) (p : List Byte) (s : State), 1 ≤ alg ∧ alg ≤ 7 ∧ s.fatal = false ∧
    s.cfg.bufFits p.length = true ∧
    s.cfg.bufFits (bytesFor (if alg = 1 then hufTotal p else recTotal alg (alg + 8) p)) = true :=
  ⟨7, [0x61], st0c 4 [] 0 0, by decide, by decide, rfl, by decide, by decide +kernel⟩

theorem witness_DrvComp_output_full : ∃ (alg : Nat) (p : List Byte) (s : State), 1 ≤ alg ∧ alg ≤ 7 ∧ s.fatal = false ∧
    s.cfg.bufFits p.length = true ∧
    s.cfg.bufFits (bytesFor (if alg = 1 then hufTotal p else recTotal alg (alg + 8) p)) = false :=
  ⟨1, [0x61], st0c 3 [] 0 0, by decide, by decide, rfl, by decide, by decide +kernel⟩

/-- Also the second clause of the identity driver. -/
theorem witness_Drv_input_full : ∃ (p : List Byte) (s : State), s.fatal = false ∧ s.cfg.bufFits p.length = false :=
  ⟨[1, 2, 3], st0c 2 [] 0 0, by decide⟩

theorem witness_DrvDecomp : ∃ (alg : Nat) (p out : List Byte) (s : State), 1 ≤ alg ∧ alg ≤ 7 ∧ s.fatal = false ∧
    s.cfg.bufFits p.length = true ∧ AlgReads alg p out ∧
    s.cfg.bufFits out.length = true :=
  ⟨1, _, _, State.reset, by decide, by decide, rfl, rfl, reads_H3, rfl⟩

theorem witness_DrvDecomp_ranked : ∃ (alg : Nat) (p out : List Byte) (s : State), 1 ≤ alg ∧ alg ≤ 7 ∧ s.fatal = false ∧
    s.cfg.bufFits p.length = true ∧ AlgReads alg p out ∧
    s.cfg.bufFits out.length = true :=
  ⟨2, _, _, State.reset, by decide, by decide, rfl, rfl, reads_E5, rfl⟩

theorem witness_DrvDecomp_full : ∃ (alg : Nat) (p out : List Byte) (s : State), 1 ≤ alg ∧ alg ≤ 7 ∧ s.fatal = false ∧
    s.cfg.bufFits p.length = true ∧ AlgStarts alg p out [] ∧ s.cfg.bufFits out.length = false := by
  have h : recDecode Config.unbounded 2 10 (Stream.fresh [0x0C, 0x10, 0x06, 0x00, 0x00]) Stream.empty =
      .ok (some ({ buf := [0x0C, 0x10, 0x06, 0x00, 0x00], bi := 4, bo := 4 },
        { buf := [0x61, 0x61, 0x61, 0x61, 0x61, 0x61, 0x61, 0x61], bi := 8, bo := 0 })) := by decide +kernel
  obtain ⟨out, ho, he⟩ := recReads_of_decode (by decide) (by decide) h
  have : out = [0x61, 0x61, 0x61, 0x61, 0x61, 0x61, 0x61, 0x61] := congrArg Stream.buf he.symm
  exact ⟨2, _, _, st0c 5 [] 0 0, by decide, by decide, rfl, by decide, this ▸ ho, by decide⟩

/-- Two bytes with size 0 and final bit-count 1 (assumption 10), on a block of two bytes. -/
theorem witness_DrvDecomp_asserts : ∃ (alg : Nat) (p : List Byte) (s : State), 1 ≤ alg ∧ alg ≤ 7 ∧ s.fatal = false ∧
    s.cfg.bufFits p.length = true ∧ (∀ out, ¬ AlgReads alg p out) ∧
    (∀ out rest, AlgStarts alg p out rest → s.cfg.bufFits out.length = true) ∧ s.cfg.maxBuf = some 2 :=
  ⟨2, [1, 0], st0c 2 [] 0 0, by decide, by decide, rfl, by decide,
    fun _ h => witness_RecDec_boundary.1 1 (by decide) _ _ h, fun _ _ h => absurd h (witness_RecDec_boundary.1 1 (by decide) _ _),
    rfl⟩

theorem witness_Run : ∃ s : State, Inv s ∧ (s.pending.take 2).countP HostEvent.isCommand = 1 :=
  ⟨{ State.reset with pending := [.command ⟨0, []⟩, .reset] },
    ⟨fun _ x => match x with | .s0 | .s1 => ⟨Nat.le_refl _, rfl⟩, fun _ a => match a with | .q0 | .q1 => rfl,
      ⟨fun _ => rfl, nofun⟩, nofun⟩, by decide⟩

/-- R163, R166 and vector H3: "ab". Node 0 is taken first, so its leaf is the first child and its codeword is 1. -/
theorem witness_Merges : ∃ (data : List Byte) (root : Node), data ≠ [] ∧ 2 ≤ (distinctBytes data).length ∧
    MergesTo 2 (leaves data) root ∧ root.num = 2 ∧ PathTo root.tree 0x61 [true] ∧ PathTo root.tree 0x62 [false] := by
  have hl : leaves [0x61, 0x62] = [⟨1, 0, .leaf 0x61⟩, ⟨1, 1, .leaf 0x62⟩] := by decide +kernel
  refine ⟨[0x61, 0x62], ⟨2, 2, .internal (.leaf 0x61) (.leaf 0x62)⟩, by simp, by decide +kernel, ?_, rfl,
    .first (.leaf _), .second (.leaf _)⟩
  rw [hl]
  exact .merge (List.Perm.refl _) (by simp [TakenBefore]) (by simp) (.root _ _)

theorem witness_DriverRoundTrip : ∃ (alg : Nat) (x : List Byte) (s : State), alg ≤ 7 ∧ s.fatal = false ∧
    s.cfg.maxBuf = none ∧ alg = 1 ∧ (distinctBytes x).length = 1 :=
  ⟨1, [0x61, 0x61], State.reset, by decide, rfl, rfl, rfl, by decide +kernel⟩

end Sys2Proof.Tests
end

section
/-! PROOF. The statements of the BS family (`40_bitstream.md`), from the laws of streams and of `exec`. -/

namespace Sys2Proof.Machine

/-! ### How a command of the family ends -/

section ends
variable {i : Instr} {s t : State} {x : StreamId} {u : Stream} {v : Nat} {p : List Byte} {c : Cause}

/-- A command that reports and changes nothing has completed. -/
theorem completes_of_report (hf : s.fatal = false) (h : exec i s = .next (s.complete v p)) :
    ∃ t, exec i s = .next t ∧ Done i s t v p :=
  ⟨_, h, done_of_exec h hf hf rfl⟩

/-- A command that replaces the selected stream has completed, and the stream is the new one. -/
theorem completes_of_setStream (hf : s.fatal = false) (h : exec i s = .next ((s.setStream x u).complete v p)) :
    ∃ t, exec i s = .next t ∧ Done i s t v p ∧ t.stream x = u :=
  ⟨_, h, done_of_exec h hf (by simpa using hf) (by simp), by simp⟩

@[simp] theorem finishWrite_ok : finishWrite x s (.ok u) = .next ((s.setStream x u).complete 0 []) := rfl

@[simp] theorem finishWrite_fatal : finishWrite x s (.error (.fatal c)) = .next (s.raiseScrambled c) := rfl

/-- `FATAL` is still 0 only after a value was answered (R242). -/
theorem finish_completed {α : Type} {r : Except Stop α} {f : α → State}
    (h : finish r s.raiseScrambled f = .next t) (ht : t.fatal = false) : ∃ a, r = .ok a ∧ t = f a := by
  rcases r with (c | _) | a
  · cases h; cases ht
  · cases h
  · cases h; exact ⟨a, rfl, rfl⟩

/-- A completed write leaves the stream its operation answered. -/
theorem finishWrite_completed {r : Except Stop Stream} (h : finishWrite x s r = .next t) (ht : t.fatal = false) :
    r = .ok (t.stream x) := by
  obtain ⟨u, hr, rfl⟩ := finish_completed h ht
  simpa using hr

end ends

/-! ### `BS.NEW`, `BS.LOAD`, `BS.PUTF`, `BS.SEEK` and the accessors, past the latch -/

section bodies
variable {s : State} {x : StreamId}

theorem exec_bsNew (hf : s.fatal = false) :
    exec (.bsNew x) s = .next ((s.setStream x Stream.empty).complete 0 []) := by
  rw [exec, execBsNew, begin_legal hf]

theorem exec_bsLoad {payload : List Byte} (hf : s.fatal = false) :
    exec (.bsLoad x payload) s = finishWrite x s (Stream.load s.cfg payload) := by
  rw [exec, execBsLoad, begin_legal hf]

theorem exec_bsPutf {w : Byte} (hf : s.fatal = false) :
    exec (.bsPutf x w) s =
      finish ((s.stream x).putFast w) s.raise fun t => (s.setStream x t).complete 0 [] := by
  rw [exec, execBsPutf, begin_legal hf]

theorem exec_bsRd (hf : s.fatal = false) : exec (.bsRd x) s =
    finish (s.stream x).readByte s.raiseScrambled fun r => (s.setStream x r.2).complete r.1.toNat [] := by
  rw [exec, execBsRd, begin_legal hf]

theorem exec_bsPk (hf : s.fatal = false) :
    exec (.bsPk x) s = finish (s.stream x).peekByte s.raise fun v => s.complete v.toNat [] := by
  rw [exec, execBsPk, begin_legal hf]

/-- `BS.SEEK` up to the length (R111). -/
theorem exec_bsSeek_ok {i : BitVec 32} {k : Fin 8} (hf : s.fatal = false) (hi : i.toNat ≤ (s.stream x).buf.length) :
    exec (.bsSeek x i k) s =
      .next ((s.setStream x { buf := (s.stream x).buf, bi := i.toNat, bo := k }).complete 0 []) := by
  rw [exec, execBsSeek, begin_legal hf, Stream.seek, if_neg (by omega), finish_ok]

/-- `BS.SEEK` beyond the length (R111). -/
theorem exec_bsSeek_range {i : BitVec 32} {k : Fin 8} (hf : s.fatal = false)
    (hi : (s.stream x).buf.length < i.toNat) : exec (.bsSeek x i k) s = .next (s.raise .seekRange) := by
  rw [exec, execBsSeek, begin_legal hf, Stream.seek, if_pos hi, finish_fatal]

theorem exec_bsAtend (hf : s.fatal = false) :
    exec (.bsAtend x) s = .next (s.complete (if (s.stream x).buf.length ≤ (s.stream x).bi then 1 else 0) []) := by
  rw [exec, execBsAtend, begin_legal hf]; simp [boolValue, Stream.atEnd]

theorem exec_bsTell (hf : s.fatal = false) :
    exec (.bsTell x) s = .next (s.complete (8 * (s.stream x).bi + (s.stream x).bo.val) []) := by
  rw [exec, execBsTell, begin_legal hf]; rfl

theorem exec_bsLen (hf : s.fatal = false) :
    exec (.bsLen x) s = .next (s.complete (s.stream x).buf.length []) := by
  rw [exec, execBsLen, begin_legal hf]

theorem exec_bsDump (hf : s.fatal = false) :
    exec (.bsDump x) s = .next (s.complete (s.stream x).buf.length (s.stream x).buf) := by
  rw [exec, execBsDump, begin_legal hf]

end bodies

/-- Settles O20. -/
theorem bsNewEmptiesTheStream : Obligations.BsNewEmptiesTheStream := by
  intro x s hf
  obtain ⟨t, h, hd, hs⟩ := completes_of_setStream hf (exec_bsNew (x := x) hf)
  exact ⟨t, h, hd, by rw [hs]; exact ⟨rfl, rfl, rfl⟩⟩

/-- Settles O21: `Stream.load` asks only whether the payload fits. -/
theorem bsLoadTakesThePayload : Obligations.BsLoadTakesThePayload := by
  intro x payload s hf
  refine ⟨fun hfit => ?_, fun hfull => ?_⟩
  · have hl : Stream.load s.cfg payload = .ok (Stream.fresh payload) := by simp [Stream.load, hfit]
    obtain ⟨t, h, hd, hs⟩ := completes_of_setStream hf (by rw [exec_bsLoad hf, hl, finishWrite_ok])
    exact ⟨t, h, hd, by rw [hs]; exact ⟨rfl, rfl, rfl⟩⟩
  · have hl : Stream.load s.cfg payload = .error (.fatal .capacity) := by simp [Stream.load, hfull]
    exact faultsWith_scrambled (c := .capacity) (by rw [exec_bsLoad hf, hl, finishWrite_fatal])

/-- Settles O23, from the two laws of `putFast`. -/
theorem bsPutfOverwritesInPlace : Obligations.BsPutfOverwritesInPlace := by
  intro x v s hf
  refine ⟨fun hi h0 => ?_, fun hbad => ?_⟩
  · obtain ⟨t, h, hd, hs⟩ := completes_of_setStream hf (by rw [exec_bsPutf (w := v) hf, putFast_ok hi h0, finish_ok])
    exact ⟨t, h, hd, by rw [hs, h0]⟩
  · have hbad' : ¬ ((s.stream x).bi < (s.stream x).buf.length ∧ (s.stream x).bo = 0) := fun ⟨hi, h0⟩ =>
      hbad.elim (fun hle => Nat.not_lt.2 hle hi) (fun hne => hne h0)
    exact faultsWith_raise (c := .putfastPrecond) (by rw [exec_bsPutf hf, putFast_fault hbad', finish_fatal])

/-- Settles O30. -/
theorem bsSeekMovesTheCursor : Obligations.BsSeekMovesTheCursor := fun _ _ _ _ hf =>
  ⟨fun hi => completes_of_setStream hf (exec_bsSeek_ok hf hi),
    fun hi => faultsWith_raise (exec_bsSeek_range hf hi)⟩

/-- Settles O31. -/
theorem accessorsReportAndChangeNothing : Obligations.AccessorsReportAndChangeNothing := fun _ _ hf =>
  ⟨completes_of_report hf (exec_bsAtend hf), completes_of_report hf (exec_bsTell hf),
    completes_of_report hf (exec_bsLen hf), completes_of_report hf (exec_bsDump hf)⟩

/-! ### The commands that write bits at the cursor -/

section writes
variable {i : Instr} {s : State} {x : StreamId} {bs : List Bool}

/-- No bit written leaves the stream alone, at any cursor (R56). -/
theorem write_nothing (hx : exec i s = finishWrite x s ((s.stream x).writeBits s.cfg bs)) (hf : s.fatal = false)
    (hbs : bs = []) : ∃ t, exec i s = .next t ∧ Done i s t 0 [] ∧ t.stream x = s.stream x := by
  subst hbs
  exact completes_of_setStream hf hx

/-- Bits written where a bit can be written, with room for those past the buffer's end (R65, R105). -/
theorem write_fits (hx : exec i s = finishWrite x s ((s.stream x).writeBits s.cfg bs)) (hf : s.fatal = false)
    (hp : (s.stream x).pos ≤ 8 * (s.stream x).buf.length)
    (hroom : (s.stream x).pos + bs.length ≤ 8 * (s.stream x).buf.length ∨
      s.cfg.bufFits (bytesFor ((s.stream x).pos + bs.length)) = true) :
    ∃ t, exec i s = .next t ∧ Done i s t 0 [] ∧ WroteBits bs (s.stream x) (t.stream x) := by
  obtain ⟨u, hu, hw⟩ := writeBits_ok hp hroom
  obtain ⟨t, h, hd, hs⟩ := completes_of_setStream hf (by rw [hx, hu, finishWrite_ok])
  exact ⟨t, h, hd, hs ▸ hw⟩

/-- Bits that reach past what `MAXBUF` allows are the fault `CAPACITY` (R36). -/
theorem write_full (hx : exec i s = finishWrite x s ((s.stream x).writeBits s.cfg bs))
    (hp : (s.stream x).pos ≤ 8 * (s.stream x).buf.length)
    (hgt : 8 * (s.stream x).buf.length < (s.stream x).pos + bs.length)
    (hfull : s.cfg.bufFits (bytesFor ((s.stream x).pos + bs.length)) = false) : FaultsWith i s 9 :=
  faultsWith_scrambled (c := .capacity) (by rw [hx, writeBits_capacity hp hgt hfull, finishWrite_fatal])

/-- A bit written at the unaligned append position is the fault `APPEND_UNALIGNED` (R65). -/
theorem write_unaligned (hx : exec i s = finishWrite x s ((s.stream x).writeBits s.cfg bs)) (hbs : bs ≠ [])
    (hi : (s.stream x).bi = (s.stream x).buf.length) (h0 : (s.stream x).bo ≠ 0) : FaultsWith i s 4 :=
  faultsWith_scrambled (c := .appendUnaligned) (by rw [hx, writeBits_unaligned hi h0 hbs, finishWrite_fatal])

end writes

/-- Settles O25: the bits written are the register's. -/
theorem bsPutqWritesTheSequence : Obligations.BsPutqWritesTheSequence := by
  intro x q s hf
  have hx := exec_bsPutq (x := x) (q := q) hf
  exact ⟨write_nothing hx hf, fun _ hp hroom => write_fits hx hf hp hroom,
    fun _ hp hgt hfull => write_full hx hp hgt hfull, fun hq hi h0 => write_unaligned hx hq hi h0⟩

/-- Settles O24: the bits written are the pattern's, bit 0 first. -/
theorem bsPutbWritesThePattern : Obligations.BsPutbWritesThePattern := by
  intro x n pattern s hn hpat hf
  have hx := exec_bsPutb (x := x) hn hpat hf
  have hlen := lsbFirst_length n pattern
  refine ⟨fun h0 => write_nothing hx hf (by rw [h0, lsbFirst_zero]), fun _ hp hroom => ?_,
    fun _ hp hgt hfull => ?_, fun h0 => write_unaligned hx fun hnil => ?_⟩
  · exact write_fits (bs := lsbFirst n pattern) hx hf hp (by rwa [hlen])
  · exact write_full hx hp (by rwa [hlen]) (by rwa [hlen])
  · rw [hnil] at hlen; exact h0 hlen.symm

/-- An aligned `put` inside the buffer overwrites the byte at the cursor (R103). -/
theorem put_overwrites {cfg : Config} {t : Stream} {w : Byte} (h0 : t.bo = 0) (hi : t.bi < t.buf.length) :
    t.put cfg w = .ok { buf := t.buf.set t.bi w, bi := t.bi + 1, bo := 0 } := by
  simp [Stream.put, h0, Nat.ne_of_lt hi, memory_write_inside w hi]

/-- `put` at the aligned append position appends the byte when there is room (R103). -/
theorem put_appends {cfg : Config} {t : Stream} {w : Byte} (h0 : t.bo = 0) (hi : t.bi = t.buf.length)
    (hroom : cfg.bufFits (t.buf.length + 1) = true) :
    t.put cfg w = .ok { buf := t.buf ++ [w], bi := t.bi + 1, bo := 0 } := by
  simp [Stream.put, canAppend, h0, hi, hroom, memory_write_append]

/-- Settles O22: aligned by the two laws of `put`; mid-byte it is a write of eight bits, which end in the next byte. -/
theorem bsPutWritesTheByte : Obligations.BsPutWritesTheByte := by
  intro x v s hf
  have hx := exec_bsPut (x := x) (w := v) hf
  have hlen := byteBits_length v
  have hpos : (s.stream x).pos = 8 * (s.stream x).bi + (s.stream x).bo.val := rfl
  have hbo := (s.stream x).bo.isLt
  have hmid : (s.stream x).bo ≠ 0 → 0 < (s.stream x).bo.val := Fin.pos_iff_ne_zero.2
  have hreach : (s.stream x).bo ≠ 0 → bytesFor ((s.stream x).pos + 8) = (s.stream x).bi + 2 := fun h0 => by
    have := hmid h0; unfold bytesFor; omega
  refine ⟨fun h0 hi => ?overwrite, fun h0 hi hroom => ?append, fun h0 hi hfull => ?alignedFull,
    fun h0 hi hroom => ?midByte, fun h0 hi hfull => ?midByteFull,
    fun h0 hi => write_unaligned hx (List.ne_nil_of_length_pos (by omega)) hi h0⟩
  case overwrite =>
    exact completes_of_setStream hf (by rw [hx, ← put_eq, put_overwrites h0 hi, finishWrite_ok])
  case append =>
    exact completes_of_setStream hf (by rw [hx, ← put_eq, put_appends h0 hi hroom, finishWrite_ok])
  case alignedFull =>
    have h0' : (s.stream x).bo.val = 0 := by rw [h0]; rfl
    have hreach0 : bytesFor ((s.stream x).pos + 8) = (s.stream x).buf.length + 1 := by unfold bytesFor; omega
    exact write_full hx (by omega) (by omega) (by rw [hlen, hreach0]; exact hfull)
  case midByte =>
    refine write_fits hx hf (by omega) ?_
    rw [hlen, hreach h0]
    exact hroom.imp (by omega) (bufFits_mono · (by omega))
  case midByteFull =>
    have := hmid h0
    exact write_full hx (by omega) (by omega) (by rw [hlen, hreach h0, ← hfull]; congr 1; omega)

/-! ### The bits of a buffer as a value -/

section values
variable {m : Memory} {p n : Nat} {bs : List Bool}

/-- Bit `j` of the value is the bit at position `p + j` (R107). -/
theorem valueAt_testBit {j : Nat} (hj : j < n) : (valueAt m p n).testBit j = (bitAtPos m (p + j)).getD false := by
  rw [valueAt, ofLsbFirst_testBit, List.getElem?_take_of_lt hj, List.getElem?_drop, bufBits_getElem?]

theorem valueAt_lt : valueAt m p n < 2 ^ n :=
  Nat.lt_of_lt_of_le (ofLsbFirst_lt _) (Nat.pow_le_pow_right (by decide) (by simp))

/-- A value of eight bits is a byte. -/
theorem toNat_ofNat_valueAt : (BitVec.ofNat 8 (valueAt m p 8)).toNat = valueAt m p 8 := by
  rw [BitVec.toNat_ofNat, Nat.mod_eq_of_lt valueAt_lt]

/-- The eight bits of a byte have its value. -/
theorem valueAt_byte {i : Nat} {v : Byte} (hv : m[i]? = some v) : valueAt m (8 * i) 8 = v.toNat := by
  obtain ⟨hi, rfl⟩ := List.getElem?_eq_some_iff.1 hv
  rw [valueAt, bufBits_drop_take_byte hi, ofLsbFirst_byteBits]

/-- Eight bits from mid-byte: the high bits of one byte, then the low bits of the next (R109). -/
theorem valueAt_straddling {i k : Nat} {v w : Byte} (hk : k < 8) (hv : m[i]? = some v) (hw : m[i + 1]? = some w) :
    valueAt m (8 * i + k) 8 = v.toNat / 2 ^ k + w.toNat % 2 ^ k * 2 ^ (8 - k) := by
  have hhigh : v.toNat / 2 ^ k < 2 ^ (8 - k) := by
    rw [Nat.div_lt_iff_lt_mul (Nat.two_pow_pos k), ← Nat.pow_add, Nat.sub_add_cancel (Nat.le_of_lt hk)]
    exact v.isLt
  rw [Nat.add_comm (v.toNat / 2 ^ k), Nat.mul_comm (w.toNat % 2 ^ k)]
  refine Nat.eq_of_testBit_eq fun j => ?_
  rw [Nat.testBit_two_pow_mul_add _ hhigh]
  by_cases hj : j < 8
  · rw [valueAt_testBit hj]
    split
    · next hlow =>
      have h1 : (8 * i + k + j) / 8 = i := by omega
      have h2 : (8 * i + k + j) % 8 = j + k := by omega
      simp [bitAtPos, h1, h2, hv, BitVec.getLsbD, Nat.testBit_div_two_pow]
    · next hhi =>
      have h1 : (8 * i + k + j) / 8 = i + 1 := by omega
      have h2 : (8 * i + k + j) % 8 = j - (8 - k) := by omega
      have h3 : j - (8 - k) < k := by omega
      simp [bitAtPos, h1, h2, h3, hw, BitVec.getLsbD, Nat.testBit_mod_two_pow]
  · have h3 : ¬ j - (8 - k) < k := by omega
    rw [if_neg (by omega), Nat.testBit_mod_two_pow, Nat.testBit_lt_two_pow
      (Nat.lt_of_lt_of_le valueAt_lt (Nat.pow_le_pow_right (by decide) (by omega)))]
    simp [h3]

/-- Positions that hold the bits of a list have their value. -/
theorem valueAt_of_bits (h : ∀ j, j < bs.length → bitAtPos m (p + j) = bs[j]?) :
    valueAt m p bs.length = ofLsbFirst bs := by
  unfold valueAt
  congr 1
  refine List.ext_getElem? fun j => ?_
  by_cases hj : j < bs.length
  · rw [List.getElem?_take_of_lt hj, List.getElem?_drop, bufBits_getElem?, h j hj]
  · rw [List.getElem?_eq_none (by simp; omega), List.getElem?_eq_none (by omega)]

/-- Positions that hold the bits of a list lie inside the buffer. -/
theorem inside_of_bits (hbs : bs ≠ []) (h : ∀ j, j < bs.length → bitAtPos m (p + j) = bs[j]?) :
    p + bs.length ≤ 8 * m.length := by
  have hpos := List.length_pos_iff.2 hbs
  have hlast : p + (bs.length - 1) < 8 * m.length := by
    rw [← bitAtPos_isSome, h _ (by omega)]; simp; omega
  omega

end values

/-! ### The commands that read bits at the cursor -/

section reads
variable {t : Stream} {n : Nat}

theorem readBits_inside (h : n = 0 ∨ t.pos + n ≤ 8 * t.buf.length) :
    t.readBits n = .ok (valueAt t.buf t.pos n, Stream.atPos t.buf (t.pos + n)) := by
  have := readBits_ok h
  rwa [atPos_self] at this

theorem readBits_outside (hn : n ≠ 0) (h : 8 * t.buf.length < t.pos + n) :
    t.readBits n = .error (.fatal .readPastEnd) := by
  have := readBits_past hn h
  rwa [atPos_self] at this

theorem peekBits_inside (h : n = 0 ∨ t.pos + n ≤ 8 * t.buf.length) :
    t.peekBits n = .ok (valueAt t.buf t.pos n) := by
  rw [Stream.peekBits, readBits_inside h, except_map_ok]

theorem peekBits_outside (hn : n ≠ 0) (h : 8 * t.buf.length < t.pos + n) :
    t.peekBits n = .error (.fatal .readPastEnd) := by
  rw [Stream.peekBits, readBits_outside hn h]; rfl

variable {s : State} {x : StreamId}

/-- `BS.RDB` inside the buffer (R107). -/
theorem bsRdb_completes (hn : n ≤ 32) (hf : s.fatal = false)
    (h : n = 0 ∨ (s.stream x).pos + n ≤ 8 * (s.stream x).buf.length) :
    ∃ t, exec (.bsRdb x n) s = .next t ∧ Done (.bsRdb x n) s t (valueAt (s.stream x).buf (s.stream x).pos n) [] ∧
      t.stream x = Stream.atPos (s.stream x).buf ((s.stream x).pos + n) :=
  completes_of_setStream hf (by rw [exec_bsRdb hn hf, readBits_inside h, finish_ok])

/-- `BS.RDB` past the end of the buffer (R107). -/
theorem bsRdb_faults (hn : n ≤ 32) (hf : s.fatal = false) (h0 : n ≠ 0)
    (h : 8 * (s.stream x).buf.length < (s.stream x).pos + n) : FaultsWith (.bsRdb x n) s 1 :=
  faultsWith_scrambled (c := .readPastEnd) (by rw [exec_bsRdb hn hf, readBits_outside h0 h, finish_fatal])

/-- `BS.PKB` inside the buffer (R108). -/
theorem bsPkb_completes (hn : n ≤ 32) (hf : s.fatal = false)
    (h : n = 0 ∨ (s.stream x).pos + n ≤ 8 * (s.stream x).buf.length) :
    ∃ t, exec (.bsPkb x n) s = .next t ∧ Done (.bsPkb x n) s t (valueAt (s.stream x).buf (s.stream x).pos n) [] :=
  completes_of_report hf (by rw [exec_bsPkb hn hf, peekBits_inside h, finish_ok])

/-- `BS.PKB` past the end of the buffer (R108). -/
theorem bsPkb_faults (hn : n ≤ 32) (hf : s.fatal = false) (h0 : n ≠ 0)
    (h : 8 * (s.stream x).buf.length < (s.stream x).pos + n) : FaultsWith (.bsPkb x n) s 1 :=
  faultsWith_raise (c := .readPastEnd) (by rw [exec_bsPkb hn hf, peekBits_outside h0 h, finish_fatal])

/-- `BS.RD` inside the buffer: the value of its eight bits, at every offset (R55, R109). -/
theorem bsRd_completes (hf : s.fatal = false) (h : (s.stream x).pos + 8 ≤ 8 * (s.stream x).buf.length) :
    ∃ t, exec (.bsRd x) s = .next t ∧ Done (.bsRd x) s t (valueAt (s.stream x).buf (s.stream x).pos 8) [] ∧
      t.stream x = { buf := (s.stream x).buf, bi := (s.stream x).bi + 1, bo := (s.stream x).bo } := by
  obtain ⟨t, ht, hd, hs⟩ := completes_of_setStream hf (by
    rw [exec_bsRd hf, readByte_eq, readBits_inside (.inr h), except_map_ok, finish_ok, toNat_ofNat_valueAt])
  refine ⟨t, ht, hd, hs.trans (stream_ext rfl ?_)⟩
  rw [atPos_pos]; unfold Stream.pos; dsimp only; omega

/-- `BS.RD` with fewer than eight bits left (R109). -/
theorem bsRd_faults (hf : s.fatal = false) (h : 8 * (s.stream x).buf.length < (s.stream x).pos + 8) :
    FaultsWith (.bsRd x) s 1 :=
  faultsWith_scrambled (c := .readPastEnd) (by
    rw [exec_bsRd hf, readByte_eq, readBits_outside (by decide) h]; rfl)

/-- `BS.PK` inside the buffer: the value of its eight bits, at every offset (R55, R110). -/
theorem bsPk_completes (hf : s.fatal = false) (h : (s.stream x).pos + 8 ≤ 8 * (s.stream x).buf.length) :
    ∃ t, exec (.bsPk x) s = .next t ∧ Done (.bsPk x) s t (valueAt (s.stream x).buf (s.stream x).pos 8) [] :=
  completes_of_report hf (by
    rw [exec_bsPk hf, peekByte_eq, peekBits_inside (.inr h), except_map_ok, finish_ok, toNat_ofNat_valueAt])

/-- `BS.PK` with fewer than eight bits left (R110). -/
theorem bsPk_faults (hf : s.fatal = false) (h : 8 * (s.stream x).buf.length < (s.stream x).pos + 8) :
    FaultsWith (.bsPk x) s 1 :=
  faultsWith_raise (c := .readPastEnd) (by
    rw [exec_bsPk hf, peekByte_eq, peekBits_outside (by decide) h]; rfl)

/-- Aligned at a byte: eight bits are left, and their value is the byte's. -/
theorem aligned_byte {v : Byte} (h0 : t.bo = 0) (hv : t.buf[t.bi]? = some v) :
    t.pos + 8 ≤ 8 * t.buf.length ∧ valueAt t.buf t.pos 8 = v.toNat := by
  have hpos : t.pos = 8 * t.bi := by simp [Stream.pos, h0]
  obtain ⟨hi, -⟩ := List.getElem?_eq_some_iff.1 hv
  rw [hpos]
  exact ⟨by omega, valueAt_byte hv⟩

/-- Within a byte that has a next one: eight bits are left, and their value is made of the two bytes. -/
theorem straddling_byte {v w : Byte} (hv : t.buf[t.bi]? = some v) (hw : t.buf[t.bi + 1]? = some w) :
    t.pos + 8 ≤ 8 * t.buf.length ∧
      valueAt t.buf t.pos 8 = v.toNat / 2 ^ t.bo.val + w.toNat % 2 ^ t.bo.val * 2 ^ (8 - t.bo.val) := by
  obtain ⟨hi, -⟩ := List.getElem?_eq_some_iff.1 hw
  have hbo := t.bo.isLt
  exact ⟨by unfold Stream.pos; omega, valueAt_straddling hbo hv hw⟩

end reads

/-- Settles O26. -/
theorem bsRdbReadsAndMoves : Obligations.BsRdbReadsAndMoves := by
  intro x n s hn hf
  refine ⟨fun h => ?_, bsRdb_faults hn hf⟩
  obtain ⟨t, ht, hd, hs⟩ := bsRdb_completes hn hf h
  exact ⟨t, ht, hd, by rw [hs, atPos_buf], by rw [hs, atPos_pos]⟩

/-- Settles O27. -/
theorem bsPkbReadsWithoutMoving : Obligations.BsPkbReadsWithoutMoving := by
  intro x n s hn hf
  refine ⟨fun h => ⟨bsPkb_completes hn hf h, ?_⟩, fun h0 h => ⟨bsPkb_faults hn hf h0 h, bsRdb_faults hn hf h0 h⟩⟩
  obtain ⟨u, hu, hd, -⟩ := bsRdb_completes hn hf h
  exact ⟨u, hu, hd⟩

/-- Settles O28. -/
theorem bsRdReadsAByte : Obligations.BsRdReadsAByte := by
  intro x s hf
  refine ⟨fun v h0 hv => ?_, fun v w _ hv hw => ?_, bsRd_faults hf⟩
  · obtain ⟨hin, hval⟩ := aligned_byte h0 hv
    have := bsRd_completes hf hin
    rwa [hval, h0] at this
  · obtain ⟨hin, hval⟩ := straddling_byte hv hw
    have := bsRd_completes hf hin
    rwa [hval] at this

/-- Settles O29. -/
theorem bsPkReadsAByteWithoutMoving : Obligations.BsPkReadsAByteWithoutMoving := by
  intro x s hf
  refine ⟨fun v h0 hv => ?_, fun v w _ hv hw => ?_, bsPk_faults hf⟩
  · obtain ⟨hin, hval⟩ := aligned_byte h0 hv
    exact hval ▸ bsPk_completes hf hin
  · obtain ⟨hin, hval⟩ := straddling_byte hv hw
    exact hval ▸ bsPk_completes hf hin

/-! ### The laws of the BitStream (R116) -/

section laws
variable {s t u : State} {x : StreamId} {n v : Nat} {i : BitVec 32} {k : Fin 8} {bs : List Bool}

/-- What `BS.SEEK` up to the length leaves for the next command. -/
theorem bsSeek_lands (hf : s.fatal = false) (hi : i.toNat ≤ (s.stream x).buf.length) :
    ∃ w, exec (.bsSeek x i k) s = .next w ∧ w.fatal = false ∧
      w.stream x = { buf := (s.stream x).buf, bi := i.toNat, bo := k } := by
  obtain ⟨w, hw, hd, hs⟩ := completes_of_setStream hf (exec_bsSeek_ok (k := k) hf hi)
  exact ⟨w, hw, hd.fatal_false hf, hs⟩

/-- `BS.SEEK` to the cursor a stream had: the position is named exactly when the byte index has 32 bits. -/
theorem bsSeek_back {c : Stream} (hf : s.fatal = false) (hb : c.bi < 2 ^ 32) (hi : c.bi ≤ (s.stream x).buf.length) :
    ∃ w, exec (.bsSeek x (BitVec.ofNat 32 c.bi) c.bo) s = .next w ∧ w.fatal = false ∧
      (w.stream x).buf = (s.stream x).buf ∧ (w.stream x).pos = c.pos := by
  have hnat : (BitVec.ofNat 32 c.bi).toNat = c.bi := by rw [BitVec.toNat_ofNat, Nat.mod_eq_of_lt hb]
  obtain ⟨w, hw, hwf, hs⟩ := bsSeek_lands (k := c.bo) hf (hnat.symm ▸ hi)
  exact ⟨w, hw, hwf, by rw [hs], by rw [hs, hnat]; rfl⟩

/-- Bits a completed write left stand at their positions in any buffer that agrees with it there. -/
theorem bits_of_completed_write {c : Stream} {m : Memory}
    (hw : c.writeBits s.cfg bs = .ok (t.stream x))
    (hkept : ∀ j, j < bs.length → bitAtPos m (c.pos + j) = bitAtPos (t.stream x).buf (c.pos + j)) :
    ∀ j, j < bs.length → bitAtPos m (c.pos + j) = bs[j]? := by
  intro j hj
  obtain ⟨rfl, -⟩ | ⟨-, -, hwrote⟩ := writeBits_wrote hw
  · exact absurd hj (Nat.not_lt_zero j)
  · rw [hkept j hj, hwrote.written j hj]

/-- Symmetry for patterns: `BS.PUTB`, then `BS.SEEK` back and `BS.RDB`. -/
theorem bsPutb_seek_bsRdb (hn : n ≤ 32) (hv : v < 2 ^ n) (hf : s.fatal = false)
    (hput : exec (.bsPutb x n v) s = .next t) (ht : t.fatal = false) (hu : u.fatal = false)
    (hb : (s.stream x).bi < 2 ^ 32) (hi : (s.stream x).bi ≤ (u.stream x).buf.length)
    (hkept : ∀ j, j < n →
      bitAtPos (u.stream x).buf ((s.stream x).pos + j) = bitAtPos (t.stream x).buf ((s.stream x).pos + j)) :
    ∃ w z, exec (.bsSeek x (BitVec.ofNat 32 (s.stream x).bi) (s.stream x).bo) u = .next w ∧
      exec (.bsRdb x n) w = .next z ∧ Done (.bsRdb x n) w z v [] := by
  have hlen := lsbFirst_length n v
  rw [exec_bsPutb hn hv hf] at hput
  have hbits := bits_of_completed_write (finishWrite_completed hput ht) (by rwa [hlen])
  have hval := valueAt_of_bits hbits
  rw [hlen, ofLsbFirst_lsbFirst hv] at hval
  have hin : n = 0 ∨ (s.stream x).pos + n ≤ 8 * (u.stream x).buf.length := by
    refine or_iff_not_imp_left.2 fun h0 => ?_
    have := inside_of_bits (List.ne_nil_of_length_pos (by omega)) hbits
    rwa [hlen] at this
  obtain ⟨w, hw, hwf, hbuf, hpos⟩ := bsSeek_back hu hb hi
  obtain ⟨z, hz, hd, -⟩ := bsRdb_completes (x := x) hn hwf (by rwa [hbuf, hpos])
  rw [hbuf, hpos, hval] at hd
  exact ⟨w, z, hw, hz, hd⟩

/-- Symmetry for bytes: `BS.PUT`, then `BS.SEEK` back and `BS.RD`. -/
theorem bsPut_seek_bsRd {b : Byte} (hf : s.fatal = false)
    (hput : exec (.bsPut x b) s = .next t) (ht : t.fatal = false) (hu : u.fatal = false)
    (hb : (s.stream x).bi < 2 ^ 32)
    (hkept : ∀ j, j < 8 →
      bitAtPos (u.stream x).buf ((s.stream x).pos + j) = bitAtPos (t.stream x).buf ((s.stream x).pos + j)) :
    ∃ w z, exec (.bsSeek x (BitVec.ofNat 32 (s.stream x).bi) (s.stream x).bo) u = .next w ∧
      exec (.bsRd x) w = .next z ∧ Done (.bsRd x) w z b.toNat [] := by
  have hlen := byteBits_length b
  rw [exec_bsPut hf] at hput
  have hbits := bits_of_completed_write (finishWrite_completed hput ht) (by rwa [hlen])
  have hval := valueAt_of_bits hbits
  have hin := inside_of_bits (List.ne_nil_of_length_pos (by omega)) hbits
  rw [hlen] at hval hin
  obtain ⟨w, hw, hwf, hbuf, hpos⟩ := bsSeek_back (x := x) hu hb (by unfold Stream.pos at hin; omega)
  obtain ⟨z, hz, hd, -⟩ := bsRd_completes (x := x) hwf (by rwa [hbuf, hpos])
  rw [hbuf, hpos, hval, ofLsbFirst_byteBits] at hd
  exact ⟨w, z, hw, hz, hd⟩

/-- Peek and read: `BS.PKB` answers as the completing `BS.RDB` would, and that `BS.RDB` then still answers the same. -/
theorem bsPkb_then_bsRdb (hn : n ≤ 32) (hf : s.fatal = false) (hrd : exec (.bsRdb x n) s = .next t)
    (ht : t.fatal = false) :
    ∃ u v, exec (.bsPkb x n) s = .next u ∧ u.stream x = s.stream x ∧ exec (.bsRdb x n) u = .next v ∧
      u.responses = t.responses ∧ v.responses = t.responses ++ t.responses.drop s.responses.length := by
  have hrd' := hrd
  rw [exec_bsRdb hn hf] at hrd'
  obtain ⟨r, hr, rfl⟩ := finish_completed hrd' ht
  have hpk : exec (.bsPkb x n) s = .next (s.complete r.1 []) := by
    rw [exec_bsPkb hn hf, Stream.peekBits, hr, except_map_ok, finish_ok]
  have hrd2 := exec_bsRdb (s := s.complete r.1 []) (x := x) hn hf
  rw [complete_stream, hr, finish_ok] at hrd2
  exact ⟨_, _, hpk, complete_stream .., hrd2, by simp, by simp⟩

/-- Seek correctness: `BS.RDB` and `BS.PKB` after `BS.SEEK` return the bits from the position it names. -/
theorem bsSeek_then_read (hn : n ≤ 32) (hf : s.fatal = false)
    (h : 8 * i.toNat + k.val + n ≤ 8 * (s.stream x).buf.length) :
    ∃ t u v, exec (.bsSeek x i k) s = .next t ∧ exec (.bsRdb x n) t = .next u ∧ exec (.bsPkb x n) t = .next v ∧
      Done (.bsRdb x n) t u (valueAt (s.stream x).buf (8 * i.toNat + k.val) n) [] ∧
      Done (.bsPkb x n) t v (valueAt (s.stream x).buf (8 * i.toNat + k.val) n) [] := by
  obtain ⟨t, hs, htf, hcur⟩ := bsSeek_lands (x := x) (i := i) (k := k) hf (by omega)
  have hin : n = 0 ∨ (t.stream x).pos + n ≤ 8 * (t.stream x).buf.length := .inr (by rw [hcur]; exact h)
  obtain ⟨u, hu, hdu, -⟩ := bsRdb_completes hn htf hin
  obtain ⟨v, hv, hdv⟩ := bsPkb_completes hn htf hin
  rw [hcur] at hdu hdv
  exact ⟨t, u, v, hs, hu, hv, hdu, hdv⟩

/-- `BS.ATEND` after `BS.SEEK` compares the byte index it names with the length. -/
theorem bsSeek_then_bsAtend (hf : s.fatal = false) (hi : i.toNat ≤ (s.stream x).buf.length) :
    ∃ t u, exec (.bsSeek x i k) s = .next t ∧ exec (.bsAtend x) t = .next u ∧
      Done (.bsAtend x) t u (if (s.stream x).buf.length ≤ i.toNat then 1 else 0) [] := by
  obtain ⟨t, hs, htf, hcur⟩ := bsSeek_lands (k := k) hf hi
  obtain ⟨u, hu, hd⟩ := completes_of_report htf (exec_bsAtend (x := x) htf)
  rw [hcur] at hd
  exact ⟨t, u, hs, hu, hd⟩

end laws

/-- Settles O33, one law for each clause. -/
theorem writeSeekReadRoundTrip : Obligations.WriteSeekReadRoundTrip :=
  ⟨fun _ _ _ _ _ _ => bsPutb_seek_bsRdb, fun _ _ _ _ _ => bsPut_seek_bsRd, fun _ _ _ _ => bsPkb_then_bsRdb,
    fun _ _ _ _ _ => bsSeek_then_read, fun _ _ _ _ => bsSeek_then_bsAtend⟩

end Sys2Proof.Machine
end

section
/-! PROOF. The statements of the Q family (`41_bitsequence.md`), from the laws of `exec` and of the two folds. -/

namespace Sys2Proof.Machine

/-! ### The commands of the family, past the latch -/

section bodies
variable {s : State} {a : SeqId}

theorem exec_qClr (hf : s.fatal = false) : exec (.qClr a) s = .next ((s.setSeq a []).complete 0 []) := by
  rw [exec, execQClr, begin_legal hf]

theorem exec_qAdd1 {bit : Bool} (hf : s.fatal = false) : exec (.qAdd1 a bit) s = appendSeq a [bit] s := by
  rw [exec, execQAdd1, begin_legal hf]

theorem exec_qAddq {b : SeqId} (hf : s.fatal = false) : exec (.qAddq a b) s = appendSeq a (s.seq b) s := by
  rw [exec, execQAddq, begin_legal hf]

theorem exec_qUint (hf : s.fatal = false) : exec (.qUint a) s = .next (s.complete (toUint (s.seq a)) []) := by
  rw [exec, execQUint, begin_legal hf]

theorem exec_qHash (hf : s.fatal = false) : exec (.qHash a) s = .next (s.complete (seqHash (s.seq a)) []) := by
  rw [exec, execQHash, begin_legal hf]

theorem exec_qLen (hf : s.fatal = false) : exec (.qLen a) s = .next (s.complete (s.seq a).length []) := by
  rw [exec, execQLen, begin_legal hf]

end bodies

/-! ### How a command that writes a register ends -/

section ends
variable {i : Instr} {s t : State} {a : SeqId} {q bits : Seq} {v : Nat} {p : List Byte}

/-- A command that replaces the selected register has completed, and the register is the new one. -/
theorem completes_of_setSeq (hf : s.fatal = false) (h : exec i s = .next ((s.setSeq a q).complete v p)) :
    ∃ t, exec i s = .next t ∧ Done i s t v p ∧ t.seq a = q :=
  ⟨_, h, done_of_exec h hf (by simpa using hf) (by simp), by simp⟩

theorem appendSeq_fits (h : s.cfg.seqFits ((s.seq a).length + bits.length) = true) :
    appendSeq a bits s = .next ((s.setSeq a (s.seq a ++ bits)).complete 0 []) := if_pos h

theorem appendSeq_full (h : s.cfg.seqFits ((s.seq a).length + bits.length) = false) :
    appendSeq a bits s = .next (s.raise .capacity) := if_neg (by simp [h])

/-- An append that fits `QMAX` completes with the bits at the end of the register. -/
theorem append_completes (hf : s.fatal = false) (hx : exec i s = appendSeq a bits s)
    (h : s.cfg.seqFits ((s.seq a).length + bits.length) = true) :
    ∃ t, exec i s = .next t ∧ Done i s t 0 [] ∧ t.seq a = s.seq a ++ bits :=
  completes_of_setSeq hf (hx.trans (appendSeq_fits h))

/-- An append that does not fit `QMAX` ends in `CAPACITY` (R36). -/
theorem append_faults (hx : exec i s = appendSeq a bits s)
    (h : s.cfg.seqFits ((s.seq a).length + bits.length) = false) : FaultsWith i s 9 :=
  faultsWith_raise (c := .capacity) (hx.trans (appendSeq_full h))

/-- A completed append leaves the bits at the end of the register. -/
theorem appendSeq_completed (h : appendSeq a bits s = .next t) (ht : t.fatal = false) :
    t.seq a = s.seq a ++ bits := by
  cases hfit : s.cfg.seqFits ((s.seq a).length + bits.length)
  · rw [appendSeq_full hfit] at h; cases h; cases ht
  · rw [appendSeq_fits hfit] at h; cases h; simp

end ends

/-! ### The bits of a pattern, and the number a sequence is -/

@[simp] theorem msbFirst_length (n p : Nat) : (msbFirst n p).length = n := by simp [msbFirst]

/-- R143: bits `n - 1` down to 0. -/
theorem msbFirst_eq (n p : Nat) : msbFirst n p = (List.range n).map fun j => p.testBit (n - 1 - j) := by
  refine List.ext_getElem (by simp) fun j _ _ => ?_
  simp [msbFirst, lsbFirst]

/-- A sequence as a number is the pattern a stream would read from it backwards (R54, R145). -/
theorem toUint_eq_ofLsbFirst_reverse (q : Seq) : toUint q = ofLsbFirst q.reverse := by
  induction q using List.reverseRecOn with
  | nil => rfl
  | append_singleton q b ih =>
    rw [toUint_append_singleton, ih, List.reverse_concat, ofLsbFirst, Nat.add_comm]

theorem toUint_msbFirst {n v : Nat} (h : v < 2 ^ n) : toUint (msbFirst n v) = v := by
  rw [toUint_eq_ofLsbFirst_reverse, msbFirst, List.reverse_reverse, ofLsbFirst_lsbFirst h]

theorem toUint_lt (q : Seq) : toUint q < 2 ^ q.length := by
  rw [toUint_eq_ofLsbFirst_reverse, ← List.length_reverse]
  exact ofLsbFirst_lt _

theorem seqHash_eq (q : Seq) : seqHash q = 2 ^ q.length + toUint q := by
  rw [seqHash, seqFold_eq, Nat.one_mul]

/-! ### The statements -/

/-- Settles O39. -/
theorem sequenceWritesClearOrAppend : Obligations.SequenceWritesClearOrAppend := by
  intro a b bit n pattern s hn hp hf
  have hadd := exec_qAddn (a := a) hn hp hf
  rw [← msbFirst_eq]
  refine ⟨completes_of_setSeq hf (exec_qClr hf), append_completes hf (exec_qAdd1 hf), append_faults (exec_qAdd1 hf),
    fun h => ?_, fun h => ?_, append_completes hf (exec_qAddq hf), append_faults (exec_qAddq hf)⟩
  · exact append_completes hf hadd (by rwa [msbFirst_length])
  · exact append_faults hadd (by rwa [msbFirst_length])

/-- R145: a pattern added to an empty register is the number `Q.UINT` then returns. -/
theorem qAddn_then_qUint {a : SeqId} {n v : Nat} {s t : State} (hn : n ≤ 32) (hv : v < 2 ^ n) (hf : s.fatal = false)
    (hempty : s.seq a = []) (hadd : exec (.qAddn a n v) s = .next t) (ht : t.fatal = false) :
    ∃ u, exec (.qUint a) t = .next u ∧ Done (.qUint a) t u v [] := by
  rw [exec_qAddn hn hv hf] at hadd
  have hseq := appendSeq_completed hadd ht
  rw [hempty, List.nil_append] at hseq
  have huint := exec_qUint (a := a) ht
  rw [hseq, toUint_msbFirst hv] at huint
  exact completes_of_report ht huint

/-- Settles O40. -/
theorem sequenceViewsAreTheirFolds : Obligations.SequenceViewsAreTheirFolds :=
  ⟨fun _ _ hf => ⟨completes_of_report hf (exec_qUint hf), completes_of_report hf (exec_qHash hf),
    completes_of_report hf (exec_qLen hf)⟩, fun _ _ _ _ _ => qAddn_then_qUint⟩

/-- Settles O41. The two sequences of the last clause differ in a leading zero. -/
theorem hashIsLengthAndNumberAndOneToOne : Obligations.HashIsLengthAndNumberAndOneToOne :=
  ⟨fun q => ⟨seqHash_eq q, toUint_lt q⟩, fun _ _ => ⟨seqHash_injective, congrArg seqHash⟩,
    [], [false], by decide⟩

end Sys2Proof.Machine
end

section
/-! PROOF. The statements of the HUF family (`42_huffman.md`), from the laws of the codec and of `exec`. -/

namespace Sys2Proof.Machine

/-! ### How a codec command ends -/

section codecs
variable {i : Instr} {s : State} {r : CodecResult} {p : Stream × Stream}

/-- The start state the statements name is the one `runCodec` tests (R160). -/
theorem freshStreams_iff_codecReady : FreshStreams s ↔ s.codecReady = true := by
  simp [FreshStreams, State.codecReady, and_assoc]

/-- Fresh streams are the fresh stream of the input and the empty stream. -/
theorem FreshStreams.eq (h : FreshStreams s) : s.s0 = Stream.fresh s.s0.buf ∧ s.s1 = Stream.empty :=
  codecReady_iff.1 (freshStreams_iff_codecReady.1 h)

/-- A codec command that does not find fresh streams ends in `CODEC_PRECOND` (R160). -/
theorem codec_not_fresh (hx : exec i s = runCodec s r) (h : ¬ FreshStreams s) : FaultsWith i s 6 :=
  faultsWith_raise (c := .codecPrecond) (hx.trans (runCodec_not_ready (by
    rwa [freshStreams_iff_codecReady, Bool.not_eq_true] at h)))

/-- A codec that answers `true` completes with 1 and leaves its two streams. -/
theorem codec_true (hx : exec i s = runCodec s r) (hf : s.fatal = false) (h : FreshStreams s) (hr : r = .ok (some p)) :
    ∃ t, exec i s = .next t ∧ Done i s t 1 [] ∧ t.s0 = p.1 ∧ t.s1 = p.2 := by
  have he : exec i s = .next ((s.setStreams p).complete 1 []) := by
    rw [hx, hr, runCodec_true (freshStreams_iff_codecReady.1 h)]
  exact ⟨_, he, done_of_exec he hf hf rfl, rfl, rfl⟩

/-- A codec that answers `false` completes with 0 and leaves the input's buffer (R177). -/
theorem codec_false (hx : exec i s = runCodec s r) (hf : s.fatal = false) (h : FreshStreams s) (hr : r = .ok none) :
    ∃ t, exec i s = .next t ∧ Done i s t 0 [] ∧ t.s0.buf = s.s0.buf := by
  have he : exec i s = .next (s.afterFalse.complete 0 []) := by
    rw [hx, hr, runCodec_false (freshStreams_iff_codecReady.1 h)]
  exact ⟨_, he, done_of_exec he hf hf rfl, rfl⟩

/-- A codec whose output does not fit ends in `CAPACITY` (R36). -/
theorem codec_full (hx : exec i s = runCodec s r) (h : FreshStreams s) (hr : r = .error (.fatal .capacity)) :
    FaultsWith i s 9 :=
  faultsWith_scrambled (c := .capacity) (by
    rw [hx, hr, runCodec, if_pos (freshStreams_iff_codecReady.1 h), finish_fatal])

end codecs

/-! ### The commands on fresh streams -/

section commands
variable {s : State}

/-- `HUF.ENC` on fresh streams, past the latch. -/
theorem exec_hufEnc_fresh (hf : s.fatal = false) (h : FreshStreams s) :
    exec .hufEnc s = runCodec s (hufEncode s.cfg (Stream.fresh s.s0.buf) Stream.empty) := by
  rw [exec_hufEnc hf, ← h.eq.1, h.eq.2]

/-- `HUF.DEC` on fresh streams, past the latch. -/
theorem exec_hufDec_fresh (hf : s.fatal = false) (h : FreshStreams s) :
    exec .hufDec s = runCodec s (hufDecode s.cfg (Stream.fresh s.s0.buf) Stream.empty) := by
  rw [exec_hufDec hf, ← h.eq.1, h.eq.2]

end commands

/-! ### `HUF.ENC` -/

/-- The cursor at a byte boundary. -/
theorem atPos_eight_mul (m : Memory) (n : Nat) : Stream.atPos m (8 * n) = { buf := m, bi := n, bo := 0 } :=
  stream_ext rfl (atPos_pos _)

/-- The patched stream of an encoder has its cursor at (0,3) (R170). -/
theorem Encoded.cursor {bits : List Bool} {o : Stream} (h : Encoded bits o) : o.bi = 0 ∧ o.bo = 3 := by
  refine ⟨?_, Fin.ext ?_⟩
  · rw [← pos_div, h.pos]
  · rw [← pos_mod, h.pos]; rfl

/-- `HUF.ENC` where its output does not fit (R171, R36). -/
theorem hufEncode_full {cfg : Config} {m : Memory} (hfull : cfg.bufFits (bytesFor (hufTotal m)) = false) :
    hufEncode cfg (Stream.fresh m) Stream.empty = .error (.fatal .capacity) := by
  have hlen := hufBits_total 0 m
  have h3 := three_le_hufBits 0 m
  rw [hufEncode_eq, writeBits_capacity (by simp) (by simp; omega) (by simpa [hlen] using hfull)]
  rfl

/-- Settles O44: the bits written are the wire format's, and their number is `T`. -/
theorem hufEncWritesTheWireFormat : Obligations.HufEncWritesTheWireFormat := by
  intro s hf
  refine ⟨codec_not_fresh (exec_hufEnc hf), fun h hfit => ?_,
    fun h hfull => codec_full (exec_hufEnc_fresh hf h) h (hufEncode_full hfull)⟩
  have hlen := hufBits_total 0 s.s0.buf
  obtain ⟨o, ho, henc⟩ := hufEncode_ok (m := s.s0.buf) (by rwa [hlen])
  obtain ⟨t, ht, hd, h0, h1⟩ := codec_true (exec_hufEnc_fresh hf h) hf h ho
  obtain ⟨hbi, hbo⟩ := henc.cursor
  have hl := henc.len (three_le_hufBits 0 _)
  have hholds := henc.holds_huf
  rw [hlen] at hl hholds
  exact ⟨t, ht, hd, h0.trans (atPos_eight_mul _ _), by rw [h1, hbi], by rw [h1, hbo], by rw [h1, hl],
    by rwa [h1]⟩

/-! ### `HUF.DEC` -/

/-- Settles O45: what the input reads as, or starts with, decides what the decoder answers. -/
theorem hufDecDecodesWhatTheBitsSay : Obligations.HufDecDecodesWhatTheBitsSay := by
  intro s hf
  have hz := fits_zero s.cfg
  refine ⟨codec_not_fresh (exec_hufDec hf), fun h out hreads hfit => ?_, fun h out rest hstarts hfull => ?_,
    fun h hnone hfits => codec_false (exec_hufDec_fresh hf h) hf h (hufDecode_of_not_reads hnone hfits hz)⟩
  · have hr := hufDecode_of_reads hreads hz
    rw [if_pos hfit] at hr
    obtain ⟨t, ht, hd, h0, h1⟩ := codec_true (exec_hufDec_fresh hf h) hf h hr
    exact ⟨t, ht, hd, by rw [h0]; rfl, by rw [h0]; exact atPos_pos _, h1.trans (atPos_eight_mul _ _)⟩
  · obtain ⟨inv, hr⟩ := hufDecode_of_starts hstarts hz
    rw [if_neg (by simp [hfull])] at hr
    exact codec_full (exec_hufDec_fresh hf h) h hr

/-! ### The round trip -/

/-- The driver's two steps by hand: `BS.LOAD S0` of a buffer that fits, then `BS.NEW S1`, make the streams a codec
command demands (R178). -/
theorem bsLoad_bsNew_fresh {t : State} {m : Memory} (hf : t.fatal = false) (hfit : t.cfg.bufFits m.length = true) :
    ∃ u v, exec (.bsLoad .s0 m) t = .next u ∧ exec (.bsNew .s1) u = .next v ∧ v.fatal = false ∧ v.cfg = t.cfg ∧
      FreshStreams v ∧ v.s0.buf = m := by
  obtain ⟨u, hu, hdu, hbuf, hbi, hbo⟩ := (bsLoadTakesThePayload .s0 m t hf).1 hfit
  have huf := hdu.fatal_false hf
  obtain ⟨v, hv, hdv, hbuf1, hbi1, hbo1⟩ := bsNewEmptiesTheStream .s1 u huf
  have h0 : v.s0 = u.s0 := hdv.streams .s0 rfl
  refine ⟨u, v, hu, hv, hdv.fatal_false huf, hdv.cfg.trans hdu.cfg, ⟨?_, ?_, ?_, hbi1, hbo1⟩, by rw [h0]; exact hbuf⟩
  · rw [h0]; exact hbi
  · rw [h0]; exact hbo
  · exact List.length_eq_zero_iff.2 hbuf1

/-- Settles O49: the encoder's buffer holds the wire format, which reads as the input, but for its one exception. -/
theorem huffmanRoundTrip : Obligations.HuffmanRoundTrip := by
  intro s hf hfresh hin hout
  obtain ⟨-, henc, -⟩ := hufEncWritesTheWireFormat s hf
  obtain ⟨t, ht, hdt, -, -, -, hlen, hholds⟩ := henc hfresh hout
  obtain ⟨u, v, hu, hv, hvf, hcfg, hvfresh, hbuf⟩ :=
    bsLoad_bsNew_fresh (m := t.s1.buf) (hdt.fatal_false hf) (by rw [hdt.cfg, hlen]; exact hout)
  rw [← hufBits_total 0] at hholds
  have hreads := hufReads_of_holds hholds
  have hfit : v.cfg.bufFits (if (distinctBytes s.s0.buf).length = 1 then [] else s.s0.buf).length = true := by
    rw [hcfg, hdt.cfg]
    split
    · exact fits_zero _
    · exact hin
  obtain ⟨-, hdec, -⟩ := hufDecDecodesWhatTheBitsSay v hvf
  obtain ⟨w, hw, hdw, -, -, h1⟩ := hdec hvfresh _ (by rw [hbuf]; exact hreads) hfit
  exact ⟨t, u, v, w, ht, hu, hv, hw, hdw, by rw [h1]⟩

/-! ### The tree -/

/-- Leaf `i` is the leaf of the `i`-th distinct byte, with its count and number `i` (R162). -/
theorem leaves_getElem? {data : List Byte} {i : Nat} {v : Byte} (h : (distinctBytes data)[i]? = some v) :
    (leaves data)[i]? = some { freq := data.count v, num := i, tree := .leaf v } := by
  simp [leaves, List.getElem?_map, List.getElem?_zipIdx, h, freq_eq_count]

/-- Every byte of the input is counted at one leaf (R161, R165). -/
theorem leaves_freq_sum (data : List Byte) : ((leaves data).map Node.freq).sum = data.length := by
  have hperm : (distinctBytes data).Perm data.dedup :=
    (List.perm_ext_iff_of_nodup (distinctBytes_nodup data) (List.nodup_dedup data)).2 fun v => by
      rw [mem_distinctBytes, List.mem_dedup]
  have hmap : (leaves data).map Node.freq = (distinctBytes data).map (data.count ·) := calc
    (leaves data).map Node.freq
    _ = ((distinctBytes data).zipIdx.map Prod.fst).map (freq data) := by rw [leaves, List.map_map, List.map_map]; rfl
    _ = (distinctBytes data).map (data.count ·) := by rw [List.zipIdx_map_fst, funext (freq_eq_count data)]
  rw [hmap, (hperm.map _).sum_eq, List.sum_map_count_dedup_eq_length]

/-- The tree of a non-empty input is the root its leaves merge to, with the frequency and the number of R163. -/
theorem huffTree_merges {data : List Byte} (h : data ≠ []) :
    ∃ root, MergesTo (distinctBytes data).length (leaves data) root ∧ huffTree data = some root.tree ∧
      root.freq = data.length ∧
      (2 ≤ (distinctBytes data).length → root.num = 2 * (distinctBytes data).length - 2) := by
  have hne : leaves data ≠ [] := by
    rwa [ne_eq, ← List.length_eq_zero_iff, leaves_length, List.length_eq_zero_iff, distinctBytes_eq_nil]
  obtain ⟨root, hroot, hmerge, hfreq, hnum⟩ := mergeAll_merges rfl hne (leaves_setOk data)
  rw [leaves_length] at hmerge hnum
  exact ⟨root, hmerge, by rw [huffTree, hroot]; rfl, hfreq.trans (leaves_freq_sum data), fun h2 => by
    rw [hnum h2]; omega⟩

/-- The codeword of each byte is the path to its leaf (R166). -/
theorem codeOf_pathTo {data : List Byte} {v : Byte} {tree : Tree} (htree : huffTree data = some tree) (hv : v ∈ data) :
    PathTo tree v (codeOf (alphabet data) v) := by
  have hmem := codeOf_mem hv
  rw [show alphabet data = tree.codes [] by rw [alphabet, htree]] at hmem ⊢
  obtain ⟨q, hq, hpath⟩ := Tree.codes_pathTo hmem
  rwa [show codeOf (tree.codes []) v = q from hq]

/-- Settles O60, from the laws of the leaves, the merges and the walk of the tree. -/
theorem codewordsArePathsInTheMergedTree : Obligations.CodewordsArePathsInTheMergedTree := by
  intro data
  refine ⟨distinctBytes_sorted data, fun v => mem_distinctBytes, leaves_length data, fun i v => leaves_getElem?,
    ?_, fun h => ?_⟩
  · rintro rfl
    exact ⟨huffTree_nil, by rw [alphabet, huffTree_nil]⟩
  · obtain ⟨root, hmerge, htree, hfreq, hnum⟩ := huffTree_merges h
    exact ⟨root, hmerge, htree, hfreq, hnum, fun v => codeOf_pathTo htree⟩

end Sys2Proof.Machine
end

section
/-! PROOF. The statements of the REC family (`43_ranked_escape.md`), from the laws of ranks, of codecs and of `exec`. -/

namespace Sys2Proof.Machine

/-! ### The rank table (R201) -/

/-- Settles O50: the loop of R201 takes each byte before those it ranks before. -/
theorem rankTableIsSorted : Obligations.RankTableIsSorted := by
  intro data
  refine ⟨rankTable_perm data, fun v => mem_rankTable, (rankTable_sorted data).imp fun {v w} h => ?_⟩
  rwa [RanksBefore, freq_eq_count, freq_eq_count] at h

/-! ### Ranks and symbols (R202, R203) -/

section symbols
variable {short long r : Nat}

/-- A member of `PAIRS` is a pair the legality check lets pass (R75, R200). -/
theorem mem_pairs_iff : (short, long) ∈ Config.pairs ↔ wfPair short long = true := by
  rw [wfPair, List.contains_iff_mem]

/-- The symbol of a rank as R202 writes it, with a shift and an or. -/
theorem symbolOf_eq_or (short long r : Nat) : symbolOf short long r =
    if r < 2 ^ short - 1 then (r, short) else ((r - (2 ^ short - 1) + 1) <<< short ||| (2 ^ short - 1), long) := by
  change _ = if r < esc short then (r, short) else ((r - esc short + 1) <<< short ||| esc short, long)
  rw [symbolOf, ← Nat.shiftLeft_add_eq_or_of_lt (esc_lt short), Nat.shiftLeft_eq]

/-- The long pattern with offset field 0 decodes to `ESC - 1` (R203, entry U13). -/
theorem longRank_esc (short : Nat) : longRank short (esc short) = esc short - 1 := by
  rw [longRank, Nat.div_eq_of_lt (esc_lt short), Nat.zero_add]

/-- No rank is written as the long pattern with offset field 0 (R203): its offset field is at least 1. -/
theorem symbolOf_ne_esc (h : short ≠ long) : symbolOf short long r ≠ (esc short, long) := by
  rw [symbolOf]
  split
  · exact fun he => h (congrArg Prod.snd he)
  · intro he
    have hpos : 0 < (r - esc short + 1) * 2 ^ short := Nat.mul_pos (Nat.succ_pos _) (Nat.two_pow_pos short)
    have := congrArg Prod.fst he
    simp only at this
    omega

end symbols

/-- Settles O51: `symbolOf_spec` for the symbol's form and rank, the offset field for the pattern no rank has. -/
theorem symbolsAndRanksAreInverse : Obligations.SymbolsAndRanksAreInverse := by
  rintro ⟨short, long⟩ hp
  have hwf := mem_pairs_iff.1 hp
  obtain ⟨-, -, hl⟩ := wfPair_bounds hwf
  exact ⟨fun r hr => ⟨symbolOf_eq_or short long r, symbolOf_spec hwf hr⟩, longRank_esc short,
    fun r _ => symbolOf_ne_esc (by omega)⟩

/-! ### The commands on fresh streams -/

section commands
variable {short long : Nat} {s : State}

/-- `REC.ENC` on fresh streams, past the latch. -/
theorem exec_recEnc_fresh (hp : wfPair short long = true) (hf : s.fatal = false) (h : FreshStreams s) :
    exec (.recEnc short long) s = runCodec s (recEncode s.cfg short long (Stream.fresh s.s0.buf) Stream.empty) := by
  rw [exec_recEnc hp hf, ← h.eq.1, h.eq.2]

/-- `REC.DEC` on fresh streams, past the latch. -/
theorem exec_recDec_fresh (hp : wfPair short long = true) (hf : s.fatal = false) (h : FreshStreams s) :
    exec (.recDec short long) s = runCodec s (recDecode s.cfg short long (Stream.fresh s.s0.buf) Stream.empty) := by
  rw [exec_recDec hp hf, ← h.eq.1, h.eq.2]

/-- A command whose operands no word encodes ends in `ILLEGAL_COMMAND` (R75, assumption 9). -/
theorem faultsWith_illegal {i : Instr} (h : i.wf = false) (hf : s.fatal = false) : FaultsWith i s 5 :=
  faultsWith_raise (c := .illegalCommand) (exec_illegal h hf)

/-- `REC.DEC` on an input that reads as `out` completes with `true` and leaves `out` (R209). -/
theorem recDec_of_reads (hp : wfPair short long = true) (hf : s.fatal = false) (h : FreshStreams s) {out : List Byte}
    (hreads : RecReads short long s.s0.buf out) (hfit : s.cfg.bufFits out.length = true) :
    ∃ t, exec (.recDec short long) s = .next t ∧ Done (.recDec short long) s t 1 [] ∧
      t.s0.buf = s.s0.buf ∧ t.s0.pos = endOf s.s0.buf ∧ t.s1 = { buf := out, bi := out.length, bo := 0 } := by
  obtain ⟨h2, -, hl⟩ := wfPair_bounds hp
  have hr := recDecode_of_reads (by omega) (by omega) hreads (fits_zero s.cfg)
  rw [if_pos hfit] at hr
  obtain ⟨t, ht, hd, h0, h1⟩ := codec_true (exec_recDec_fresh hp hf h) hf h hr
  exact ⟨t, ht, hd, by rw [h0]; rfl, by rw [h0]; exact atPos_pos _, h1.trans (atPos_eight_mul _ _)⟩

end commands

/-! ### `REC.ENC` -/

/-- `REC.ENC` where its output does not fit (R205, R36). -/
theorem recEncode_full {cfg : Config} {short long : Nat} {m : Memory}
    (hfull : cfg.bufFits (bytesFor (recTotal short long m)) = false) :
    recEncode cfg short long (Stream.fresh m) Stream.empty = .error (.fatal .capacity) := by
  have hlen := recBits_total 0 short long m
  have h3 := three_le_recBits 0 short long m
  rw [recEncode_eq, writeBits_capacity (by simp) (by simp; omega) (by simpa [hlen] using hfull)]
  rfl

/-- `REC.ENC` where its output fits completes with `true` and leaves the wire format (R205). -/
theorem recEnc_of_fits {short long : Nat} {s : State} (hp : wfPair short long = true) (hf : s.fatal = false)
    (h : FreshStreams s) (hfit : s.cfg.bufFits (bytesFor (recTotal short long s.s0.buf)) = true) :
    ∃ t, exec (.recEnc short long) s = .next t ∧ Done (.recEnc short long) s t 1 [] ∧
      t.s0 = { buf := s.s0.buf, bi := s.s0.buf.length, bo := 0 } ∧ t.s1.bi = 0 ∧ t.s1.bo = 3 ∧
      t.s1.buf.length = bytesFor (recTotal short long s.s0.buf) ∧
      HoldsBits (recBits (recTotal short long s.s0.buf % 8) short long s.s0.buf) t.s1.buf := by
  have hlen := recBits_total 0 short long s.s0.buf
  obtain ⟨o, ho, henc⟩ := recEncode_ok (short := short) (long := long) (m := s.s0.buf) (by rwa [hlen])
  obtain ⟨t, ht, hd, h0, h1⟩ := codec_true (exec_recEnc_fresh hp hf h) hf h ho
  obtain ⟨hbi, hbo⟩ := henc.cursor
  have hl := henc.len (three_le_recBits 0 short long _)
  have hholds := henc.holds_rec
  rw [hlen] at hl hholds
  obtain rfl : t.s1 = o := h1
  exact ⟨t, ht, hd, h0.trans (atPos_eight_mul _ _), hbi, hbo, hl, hholds⟩

/-- Settles O52: the bits written are the wire format's, and their number is `T`. -/
theorem recEncWritesTheWireFormat : Obligations.RecEncWritesTheWireFormat := by
  intro short long s hf
  rw [mem_pairs_iff]
  exact ⟨fun hp => faultsWith_illegal (Bool.not_eq_true _ ▸ hp) hf,
    fun hp => codec_not_fresh (exec_recEnc hp hf),
    fun hp h hfit => recEnc_of_fits hp hf h hfit,
    fun hp h hfull => codec_full (exec_recEnc_fresh hp hf h) h (recEncode_full hfull)⟩

/-! ### The round trip (R210) -/

/-- The encoder's buffer holds the wire format, which reads as the input, so the decoder gives the input back. -/
theorem recEnc_then_recDec {short long : Nat} {s : State} (hp : wfPair short long = true) (hf : s.fatal = false)
    (hfresh : FreshStreams s) (hin : s.cfg.bufFits s.s0.buf.length = true)
    (hout : s.cfg.bufFits (bytesFor (recTotal short long s.s0.buf)) = true) :
    ∃ t u v w, exec (.recEnc short long) s = .next t ∧ exec (.bsLoad .s0 t.s1.buf) t = .next u ∧
      exec (.bsNew .s1) u = .next v ∧ exec (.recDec short long) v = .next w ∧ Done (.recDec short long) v w 1 [] ∧
      w.s1.buf = s.s0.buf := by
  obtain ⟨t, ht, hdt, -, -, -, hlen, hholds⟩ := recEnc_of_fits hp hf hfresh hout
  obtain ⟨u, v, hu, hv, hvf, hcfg, hvfresh, hbuf⟩ :=
    bsLoad_bsNew_fresh (m := t.s1.buf) (hdt.fatal_false hf) (by rw [hdt.cfg, hlen]; exact hout)
  rw [← recBits_total 0] at hholds
  have hreads := recReads_of_holds hp hholds
  rw [← hbuf] at hreads
  obtain ⟨w, hw, hdw, -, -, h1⟩ := recDec_of_reads hp hvf hvfresh hreads (by rw [hcfg, hdt.cfg]; exact hin)
  exact ⟨t, u, v, w, ht, hu, hv, hw, hdw, by rw [h1]⟩

/-! ### The lengths for the buffer 00 to FF (R210) -/

/-- Of the numbers below `n`, `min e n` are below `e`. -/
theorem countP_lt_range (e n : Nat) : (List.range n).countP (· < e) = min e n := by
  induction n with
  | zero => simp
  | succ n ih =>
    rw [List.range_succ, List.countP_append, ih, List.countP_singleton]
    simp only [decide_eq_true_eq]
    split <;> omega

/-- Of the 256 byte values, `e` are below `e`. -/
theorem allBytes_countP_lt {e : Nat} (he : e ≤ 256) : (allBytes.countP fun v => v.toNat < e) = e := by
  have hval : ∀ n ∈ List.range 256, (BitVec.ofNat 8 n).toNat = n := fun n hn =>
    (BitVec.toNat_ofNat n 8).trans (Nat.mod_eq_of_lt (List.mem_range.1 hn))
  calc (allBytes.countP fun v => v.toNat < e)
    _ = (List.range 256).countP (· < e) := by
        rw [allBytes, List.countP_map]
        exact List.countP_congr fun n hn => by simp only [Function.comp, hval n hn]
    _ = e := by rw [countP_lt_range, Nat.min_eq_left he]

/-- The other `256 - e` are `e` or above. -/
theorem allBytes_countP_ge {e : Nat} (he : e ≤ 256) : (allBytes.countP fun v => e ≤ v.toNat) = 256 - e := by
  have hsum := List.length_eq_countP_add_countP (l := allBytes) fun v => decide (v.toNat < e)
  simp only [decide_eq_true_eq, Nat.not_lt] at hsum
  rw [allBytes_length, allBytes_countP_lt he] at hsum
  omega

/-- The bits of `REC.ENC`'s output for the buffer 00 to FF: `ESC` short symbols, the others long (R205). -/
theorem recTotal_allBytes_esc {short : Nat} (long : Nat) (h : short ≤ 8) :
    recTotal short long allBytes = 2060 + short * esc short + long * (256 - esc short) := by
  have he : esc short ≤ 256 := Nat.le_trans (Nat.sub_le _ _) (Nat.pow_le_pow_right (n := 2) (by omega) h)
  rw [recTotal_allBytes, allBytes_countP_lt he, allBytes_countP_ge he]

/-- The six lengths for the buffer 00 to FF (R210). -/
theorem recLengths_allBytes :
    Config.pairs.map (fun p => bytesFor (recTotal p.1 p.2 allBytes)) = [575, 603, 627, 643, 643, 611] := calc
  Config.pairs.map (fun p => bytesFor (recTotal p.1 p.2 allBytes))
  _ = Config.pairs.map (fun p => bytesFor (2060 + p.1 * esc p.1 + p.2 * (256 - esc p.1))) :=
      List.map_congr_left fun p hp => by
        obtain ⟨-, h7, -⟩ := wfPair_bounds (mem_pairs_iff.1 hp)
        rw [recTotal_allBytes_esc p.2 (by omega)]
  _ = [575, 603, 627, 643, 643, 611] := by decide

/-- Settles O54: the encoder's buffer reads as its input; with every frequency 1 the ranks are the byte values. -/
theorem rankedEscapeRoundTrip : Obligations.RankedEscapeRoundTrip :=
  ⟨fun _ hp _ hf hfresh hin hout => recEnc_then_recDec (mem_pairs_iff.1 hp) hf hfresh hin hout,
    rankTable_allBytes, recLengths_allBytes⟩

end Sys2Proof.Machine
end

section
/-! PROOF. The statements of the DRV family (`44_driver.md`), from the laws of the codec steps and of `exec`. -/

namespace Sys2Proof.Machine

/-! ### The streams of the driver procedure -/

section streams
variable {cfg : Config} {alg : Algorithm} {dir : Direction} {m : Memory} {p : Stream × Stream}

/-- `load` of a buffer that fits. -/
theorem load_fits (hfit : cfg.bufFits m.length = true) : Stream.load cfg m = .ok (Stream.fresh m) := by
  simp [Stream.load, hfit]

/-- `load` of a buffer that does not fit (R36). -/
theorem load_full (hfull : cfg.bufFits m.length = false) : Stream.load cfg m = .error (.fatal .capacity) := by
  simp [Stream.load, hfull]

/-- A payload that fits reaches the codec step on fresh streams, and its `true` ends the procedure (R230). -/
theorem driveStreams_true (hfit : cfg.bufFits m.length = true)
    (hstep : codecStep cfg alg dir (Stream.fresh m) Stream.empty = .ok (some p)) :
    driveStreams cfg alg dir m = .ok p := by
  rw [driveStreams, load_fits hfit, except_bind_ok, hstep]; rfl

/-- A payload that does not fit ends the procedure before any codec step (R230). -/
theorem driveStreams_full (hfull : cfg.bufFits m.length = false) :
    driveStreams cfg alg dir m = .error (.fatal .capacity) := by
  rw [driveStreams, load_full hfull]; rfl

end streams

/-! ### How a driver command ends -/

section ends
variable {i : Instr} {s : State} {alg : Nat} {dir : Direction} {m : Memory}

/-- A driver command whose procedure ends normally returns its output buffer and leaves its two streams (R230). -/
theorem drive_completes {p : Stream × Stream} (hx : exec i s = drive alg dir m s) (hf : s.fatal = false)
    (h : driveStreams s.cfg (algorithmOf alg) dir m = .ok p) :
    ∃ t, exec i s = .next t ∧ Done i s t p.2.buf.length p.2.buf ∧ t.s0 = p.1 ∧ t.s1 = p.2 := by
  have he : exec i s = .next ((s.setStreams p).complete p.2.buf.length p.2.buf) := by rw [hx, drive, h, finish_ok]
  exact ⟨_, he, done_of_exec he hf hf rfl, rfl, rfl⟩

/-- A driver command whose procedure ends in a fatal fault raises it. -/
theorem drive_faults {c : Cause} (hx : exec i s = drive alg dir m s)
    (h : driveStreams s.cfg (algorithmOf alg) dir m = .error (.fatal c)) : FaultsWith i s c.code :=
  faultsWith_scrambled (by rw [hx, drive, h, finish_fatal])

end ends

/-! ### The identity algorithm (R234) -/

section identity
variable {cfg : Config} {m : Memory} {i : Instr} {s : State} {dir : Direction}

/-- Whole bytes written to the empty stream are its buffer: both this stream and what was written are `WroteBits`. -/
theorem writeBits_bufBits_empty (hfit : cfg.bufFits m.length = true) :
    Stream.empty.writeBits cfg (bufBits m) = .ok (Stream.atPos m (8 * m.length)) := by
  have hbytes : bytesFor (8 * m.length) = m.length := by unfold bytesFor; omega
  obtain ⟨u, hu, hw⟩ := writeBits_ok (cfg := cfg) (t := Stream.empty) (bs := bufBits m) (by simp)
    (.inr (by simpa [hbytes] using hfit))
  rw [hu, hw.unique (by simp) (wroteBits_append [] m)]; rfl

/-- The identity step on fresh streams leaves the same stream twice, in both directions. -/
theorem codecStep_identity (hfit : cfg.bufFits m.length = true) :
    codecStep cfg .identity dir (Stream.fresh m) Stream.empty =
      .ok (some (Stream.atPos m (8 * m.length), Stream.atPos m (8 * m.length))) := by
  rw [codecStep, identityStep_eq, writeBits_bufBits_empty hfit]; rfl

/-- A command that drives the identity algorithm copies a payload that fits. -/
theorem drive_identity_copies (hx : exec i s = drive 0 dir m s) (hf : s.fatal = false)
    (hfit : s.cfg.bufFits m.length = true) :
    ∃ t, exec i s = .next t ∧ Done i s t m.length m ∧ ∀ x, t.stream x = { buf := m, bi := m.length, bo := 0 } := by
  obtain ⟨t, ht, hd, h0, h1⟩ := drive_completes hx hf (driveStreams_true hfit (codecStep_identity hfit))
  refine ⟨t, ht, hd, fun x => ?_⟩
  cases x with
  | s0 => exact h0.trans (atPos_eight_mul _ _)
  | s1 => exact h1.trans (atPos_eight_mul _ _)

end identity

/-- Settles O56: the two directions are the same procedure, which copies a payload that fits and loads no other. -/
theorem identityDriverCopies : Obligations.IdentityDriverCopies := by
  intro payload s hf
  have hcomp := exec_drvComp (payload := payload) (Nat.zero_le 7) hf
  have hdecomp := exec_drvDecomp (payload := payload) (Nat.zero_le 7) hf
  exact ⟨fun hfit => ⟨drive_identity_copies hcomp hf hfit, drive_identity_copies hdecomp hf hfit⟩,
    fun hfull => ⟨drive_faults (c := .capacity) hcomp (driveStreams_full hfull),
      drive_faults (c := .capacity) hdecomp (driveStreams_full hfull)⟩⟩

end Sys2Proof.Machine
end

section
/-! PROOF. The statements of the exceptions family (`60_exceptions.md`), from the laws of `exec` and of steps. -/

namespace Sys2Proof.Machine

section run
variable {s : State} {c : Command} {rest : List HostEvent}

/-- A command that decodes to nothing is rejected (R75). -/
theorem runCommand_illegal (h : ∀ i, decode c ≠ .ok i) : runCommand c s = rejectCommand s := by
  rw [runCommand]
  split
  · next i hi => exact absurd hi (h i)
  · rfl

/-- The latch refuses every command, whether it decodes or not (R244). -/
theorem runCommand_latched (hf : s.fatal = true) : runCommand c s = .next (s.respond s.faultResponse) := by
  rw [runCommand]
  split
  · exact exec_latched hf
  · exact rejectCommand_fatal hf

/-- Taking the oldest event off leaves the rest pending. -/
theorem dropEvent_eq (hp : s.pending = .command c :: rest) : s.dropEvent = { s with pending := rest } := by
  rw [State.dropEvent, hp, List.tail_cons]

/-- An illegal command that meets an open latch raises `ILLEGAL_COMMAND` in the state without it (R252). -/
theorem step_illegal (hp : s.pending = .command c :: rest) (hc : ∀ i, decode c ≠ .ok i) (hf : s.fatal = false) :
    step s = .next (s.dropEvent.raise .illegalCommand) := by
  rw [step_command hp, runCommand_illegal hc, rejectCommand_clear ((dropEvent_fatal s).trans hf)]

/-- A command that meets a closed latch gets the latched fault response (R244). -/
theorem step_latched (hp : s.pending = .command c :: rest) (hf : s.fatal = true) :
    step s = .next (s.dropEvent.respond s.faultResponse) := by
  rw [step_command hp, runCommand_latched ((dropEvent_fatal s).trans hf)]; rfl

/-- Only a reset opens the latch (R244): an idle step and the latched response both keep it. -/
theorem step_opens_latch {t : State} (hf : s.fatal = true) (h : step s = .next t) (ht : t.fatal = false) :
    ∃ rest, s.pending = .reset :: rest := by
  match hp : s.pending with
  | [] =>
    rw [step_idle hp] at h
    cases h
    exact absurd ht (by simp [hf])
  | .reset :: rest => exact ⟨rest, rfl⟩
  | .command c :: rest =>
    rw [step_latched hp hf] at h
    cases h
    exact absurd ht (by simp [hf])

end run

/-- Settles O8: the step is the shared entry of R242 with cause 5, which keeps the data. -/
theorem illegalCommandFaultsAndChangesNothingElse : Obligations.IllegalCommandFaultsAndChangesNothingElse := by
  intro s c rest hp hc hf
  exact ⟨_, step_illegal hp hc hf, raise_fatal .., raise_cause .., raise_responses .., fun x => by simp,
    fun a => by simp, raise_cfg .., by simp [hp]⟩

/-- Settles O10: the latch comes before legality, in `exec` and in a step, and only a reset event opens it. -/
theorem fatalLatchRefusesEveryCommandUntilReset : Obligations.FatalLatchRefusesEveryCommandUntilReset := by
  intro s hf
  refine ⟨fun i => exec_latched hf, fun c rest hp => ?_, fun t => step_opens_latch hf⟩
  rw [step_latched hp hf, dropEvent_eq hp]; rfl

end Sys2Proof.Machine
end

section
/-! PROOF. The statements of the reset and hazards family (`70_reset_and_hazards.md`), from the laws of steps and of the
BS family. -/

namespace Sys2Proof.Machine

/-! ### The unaligned append position (R276) -/

/-- The unaligned append position lies past the last bit of the buffer (`10_state.md` R23). -/
theorem past_end_of_unaligned {t : Stream} (hi : t.bi = t.buf.length) (h0 : t.bo ≠ 0) : 8 * t.buf.length < t.pos := by
  have hbo : 0 < t.bo.val := Fin.pos_iff_ne_zero.2 h0
  rw [Stream.pos, hi]
  exact Nat.lt_add_of_pos_right hbo

section deadEnd
variable {s u : State} {x : StreamId} {i : Instr} {v : Nat} {p : List Byte}

/-- A command that answers the completion of a state has completed with some result. -/
theorem completes_of_exec (hf : s.fatal = false) (h : exec i s = .next (u.complete v p)) (hu : u.fatal = s.fatal)
    (hr : u.responses = s.responses) : ∃ t v p, exec i s = .next t ∧ Done i s t v p :=
  ⟨_, _, _, h, done_of_exec h hf (hu.trans hf) hr⟩

/-- `BS.LOAD` of the empty payload, which every `MAXBUF` admits (R102). -/
theorem exec_bsLoad_nil (hf : s.fatal = false) :
    exec (.bsLoad x []) s = .next ((s.setStream x (Stream.fresh [])).complete 0 []) := by
  rw [exec_bsLoad hf, load_fits (fits_zero s.cfg), finishWrite_ok]

/-- The commands R276 calls safe complete at every cursor. -/
theorem safe_commands_complete (hf : s.fatal = false) :
    ∀ i ∈ [Instr.bsSeek x 0 0, .bsNew x, .bsLoad x [], .bsAtend x, .bsTell x, .bsLen x, .bsDump x],
      ∃ t v p, exec i s = .next t ∧ Done i s t v p := by
  simp only [List.forall_mem_cons]
  refine ⟨?seek, ?new, ?load, ?atend, ?tell, ?len, ?dump, List.forall_mem_nil _⟩
  case seek => exact completes_of_exec hf (exec_bsSeek_ok hf (Nat.zero_le _)) (by simp) (by simp)
  case new => exact completes_of_exec hf (exec_bsNew hf) (by simp) (by simp)
  case load => exact completes_of_exec hf (exec_bsLoad_nil hf) (by simp) (by simp)
  case atend => exact completes_of_exec hf (exec_bsAtend hf) rfl rfl
  case tell => exact completes_of_exec hf (exec_bsTell hf) rfl rfl
  case len => exact completes_of_exec hf (exec_bsLen hf) rfl rfl
  case dump => exact completes_of_exec hf (exec_bsDump hf) rfl rfl

end deadEnd

/-- Settles O34: a read needs bits the buffer does not have, a write meets R65's check before its first bit, and none of
the safe commands looks at the cursor. -/
theorem unalignedAppendPositionIsADeadEnd : Obligations.UnalignedAppendPositionIsADeadEnd := by
  refine ⟨fun x i k s hf hi => ?_, fun x s hf hi h0 => ?_⟩
  · have := completes_of_setStream hf (exec_bsSeek_ok (k := k) hf (Nat.le_of_eq hi))
    rwa [hi] at this
  · have hpast (n : Nat) : 8 * (s.stream x).buf.length < (s.stream x).pos + n :=
      Nat.lt_add_right n (past_end_of_unaligned hi h0)
    refine ⟨bsRd_faults hf (hpast 8), bsPk_faults hf (hpast 8), fun n h1 hn => ?patternReads, fun v => ?bytePuts,
      fun n p h1 hn hp => ?patternPut, fun q hq => write_unaligned (exec_bsPutq hf) hq hi h0,
      safe_commands_complete hf⟩
    case patternReads =>
      have hn0 := Nat.ne_of_gt h1
      exact ⟨bsRdb_faults hn hf hn0 (hpast n), bsPkb_faults hn hf hn0 (hpast n)⟩
    case bytePuts =>
      have hbits : byteBits v ≠ [] := List.ne_nil_of_length_pos (by simp)
      exact ⟨write_unaligned (exec_bsPut hf) hbits hi h0, (bsPutfOverwritesInPlace x v s hf).2 (.inr h0)⟩
    case patternPut =>
      have hbits : lsbFirst n p ≠ [] := List.ne_nil_of_length_pos (by rw [lsbFirst_length]; exact h1)
      exact write_unaligned (exec_bsPutb hn hp hf) hbits hi h0

/-! ### Reset (R271) -/

/-- The architectural state is the table of `10_state.md` R34. -/
def ArchReset (t : State) : Prop :=
  (∀ x, t.stream x = { buf := [], bi := 0, bo := 0 }) ∧ (∀ a, t.seq a = []) ∧ t.fatal = false ∧ t.cause = 0

/-- The state right after reset is R34's, whatever the parameters. -/
theorem resetOf_archReset (cfg : Config) : ArchReset (State.resetOf cfg) :=
  ⟨forall_stream.2 ⟨rfl, rfl⟩, forall_seq.2 ⟨rfl, rfl⟩, rfl, rfl⟩

/-- A reset in any state leaves R34's. -/
theorem assertReset_archReset (s : State) : ArchReset s.assertReset :=
  ⟨forall_stream.2 ⟨assertReset_s0 s, assertReset_s1 s⟩, forall_seq.2 ⟨assertReset_q0 s, assertReset_q1 s⟩,
    assertReset_fatal s, assertReset_cause s⟩

/-- Settles O11: a reset event is answered by `assertReset`, and `State.reset` is `resetOf` without limits. -/
theorem resetRestoresEveryRegister : Obligations.ResetRestoresEveryRegister :=
  ⟨fun s _ hp => ⟨_, step_reset hp, assertReset_archReset s.dropEvent⟩, resetOf_archReset Config.unbounded⟩

end Sys2Proof.Machine
end

section
/-! PROOF. The statements about every step and every command: the invariant, the response, the causes (`10_state.md`,
`30_encoding.md` R76, `60_exceptions.md`), from the two inversion lemmas of `exec`. -/

namespace Sys2Proof.Machine

/-! ### Responses -/

section responses
variable {s t : State}

/-- A response that shows a latched cause, value 0 and no payload is of the form of R76. -/
theorem faultResponse_ok {c : BitVec 4} (hc : c ∈ latchedCodes) :
    Response.Ok { ok := false, cause := c, value := 0, payload := [] } := ⟨nofun, fun _ => ⟨hc, rfl, rfl⟩⟩

/-- A response of a completed command is of the form of R76 when it shows cause 0. -/
theorem okResponse_ok {c : BitVec 4} {v : Nat} {p : List Byte} (hc : c = 0) :
    Response.Ok { ok := true, cause := c, value := v, payload := p } := ⟨fun _ => hc, nofun⟩

/-- One more response of the form of R76. -/
theorem responses_ok_append {r : Response} {rs : List Response} (h : ∀ q ∈ rs, q.Ok) (hr : r.Ok) :
    ∀ q ∈ rs ++ [r], q.Ok := by
  simpa [or_imp, forall_and] using ⟨h, hr⟩

/-! ### The invariant -/

/-- A state with the latch closed by a cause that exists has the invariant when its responses do: its data is
unspecified (R243). -/
theorem inv_of_fatal (hf : t.fatal = true) (hc : t.cause ∈ latchedCodes) (hr : ∀ r ∈ t.responses, r.Ok) : Inv t where
  streams h := absurd h (by simp [hf])
  seqs h := absurd h (by simp [hf])
  status := ⟨fun h => absurd h (by simp [hf]), fun _ => hc⟩
  responses := hr

/-- What a command can do keeps the invariant. -/
theorem Effect.inv (hs : Inv s) (h : Effect s t) : Inv t := by
  cases h with
  | latched hf =>
    have hc := hs.status.set hf
    exact inv_of_fatal hf hc (responses_ok_append hs.responses (faultResponse_ok hc))
  | kept c _ hc | scrambled c _ hc =>
    exact inv_of_fatal rfl hc (responses_ok_append hs.responses (faultResponse_ok hc))
  | completed u v p hf hu =>
    have hc : u.cause = 0 := hu.cause.trans (hs.status.clear hf)
    refine ⟨fun _ x => ?_, fun _ a => ?_, ⟨fun _ => hc, fun h => ?_⟩, ?_⟩
    · rw [complete_stream, complete_cfg, hu.cfg]; exact hu.streams x
    · rw [complete_seq, complete_cfg, hu.cfg]; exact hu.seqs a
    · exact absurd h (by simp [hu.fatal])
    · rw [complete_responses, hu.responses]
      exact responses_ok_append hs.responses (okResponse_ok hc)

/-- The state right after reset has the invariant when it is given responses that have: its data is empty (R34). -/
theorem inv_of_archReset (hs : ArchReset t) (hr : ∀ r ∈ t.responses, r.Ok) : Inv t := by
  obtain ⟨hstream, hseq, hfatal, hcause⟩ := hs
  refine ⟨fun _ x => ?_, fun _ a => ?_, ⟨fun _ => hcause, fun h => absurd h (by simp [hfatal])⟩, hr⟩
  · rw [hstream x]; exact ⟨Nat.le_refl 0, fits_zero t.cfg⟩
  · rw [hseq a]; cases hq : t.cfg.qMax <;> simp [Config.seqFits, Config.within, hq]

theorem Inv.dropEvent (hs : Inv s) : Inv s.dropEvent where
  streams hf x := by rw [dropEvent_stream]; exact hs.streams hf x
  seqs hf a := by rw [dropEvent_seq]; exact hs.seqs hf a
  status := ⟨hs.status.clear, hs.status.set⟩
  responses := hs.responses

/-- A command as it arrives, legal or not, is answered by one of the four effects. -/
theorem runCommand_effect (hs : Inv s) (c : Command) : ∃ t, runCommand c s = .next t ∧ Effect s t := by
  rw [runCommand]
  split
  · next i _ => exact exec_effect hs.dataOk i
  · cases hf : s.fatal
    · exact ⟨_, rejectCommand_clear hf, .kept .illegalCommand hf (by decide)⟩
    · exact ⟨_, rejectCommand_fatal hf, .latched hf⟩

/-- A step from a state with the invariant answers, and the invariant holds again. -/
theorem step_progress (hs : Inv s) : ∃ t, step s = .next t ∧ Inv t := by
  match hp : s.pending with
  | [] => exact ⟨s, step_idle hp, hs⟩
  | .reset :: rest => exact ⟨_, step_reset hp, inv_of_archReset (assertReset_archReset _) hs.responses⟩
  | .command c :: rest =>
    obtain ⟨t, ht, he⟩ := runCommand_effect hs.dropEvent c
    exact ⟨t, (step_command hp).trans ht, he.inv hs.dropEvent⟩

/-- Settles O12: a step from a state with the invariant answers one state only. -/
theorem everyStepKeepsTheInvariant : Obligations.EveryStepKeepsTheInvariant := by
  intro s t hs h
  obtain ⟨u, hu, hinv⟩ := step_progress hs
  rw [hu] at h
  cases h
  exact hinv

/-- Settles O13. -/
theorem resetMeetsTheInvariant : Obligations.ResetMeetsTheInvariant :=
  have h (cfg : Config) : Inv (State.resetOf cfg) := inv_of_archReset (resetOf_archReset cfg) nofun
  ⟨h Config.unbounded, h⟩

/-- Settles O19: the byte index is at most the length, which is at most `MAXBUF`. -/
theorem byteIndexFitsItsWidth : Obligations.ByteIndexFitsItsWidth := by
  intro s hs hf hlegal hfinite x
  obtain ⟨hcursor, hfits⟩ := hs.streams hf x
  cases hm : s.cfg.maxBuf with
  | none => exact absurd hm hfinite
  | some m =>
    have hlen : (s.stream x).buf.length ≤ m := by simpa [Config.bufFits, Config.within, hm] using hfits
    have hmax : m < 2 ^ Config.aw := by
      simp only [Config.legal, hm, Bool.and_eq_true, decide_eq_true_eq] at hlegal
      exact hlegal.1.2
    omega

end responses

/-! ### Runs -/

/-- Settles O14, by induction on the number of steps: the first step takes the first event. -/
theorem everyRunFromASoundStateGoesOn : Obligations.EveryRunFromASoundStateGoesOn := by
  intro n
  induction n with
  | zero => exact fun s hs => ⟨s, rfl, hs, rfl, [], by simp⟩
  | succ n ih =>
    intro s hs
    obtain ⟨u, hu, hinv⟩ := step_progress hs
    obtain ⟨hpending, first, hfirst, hcount⟩ := step_ports hu
    obtain ⟨t, ht, htinv, htpending, later, hlater, hcount'⟩ := ih u hinv
    refine ⟨t, (run_succ hu).trans ht, htinv, ?_, first ++ later, ?_, ?_⟩
    · rw [htpending, hpending, List.drop_tail]
    · rw [hlater, hfirst, List.append_assoc]
    · rw [List.length_append, hcount, hcount', hpending, Nat.add_comm n 1, List.take_add, List.countP_append,
        List.drop_one]

/-! ### What the host can see -/

section host
variable {s s' t : State}

/-- While `FATAL` is 0 two states no host can tell apart are one state. -/
theorem SameToHost.eq_of_clear (h : SameToHost s s') (hf : s.fatal = false) : s = s' := by
  obtain ⟨hs0, hs1, hq0, hq1⟩ := h.data hf
  obtain ⟨hfatal, hcause, hcfg, hpending, hresponses, hfree, -⟩ := h
  cases s; cases s'
  simp_all

theorem SameToHost.refl (s : State) : SameToHost s s := ⟨rfl, rfl, rfl, rfl, rfl, rfl, fun _ => ⟨rfl, rfl, rfl, rfl⟩⟩

/-- A reset leaves nothing of the data the host could not see. -/
theorem SameToHost.assertReset_eq (h : SameToHost s s') : s.dropEvent.assertReset = s'.dropEvent.assertReset := by
  simp [State.assertReset, h.cfg, h.pending, h.responses, h.freeCount]

/-- The latched response (R244) shows `STATUS` and nothing else. -/
theorem SameToHost.latched (h : SameToHost s s') (hf : s.fatal = true) :
    SameToHost (s.dropEvent.respond s.faultResponse) (s'.dropEvent.respond s'.faultResponse) := by
  refine ⟨h.fatal, h.cause, h.cfg, ?_, ?_, h.freeCount, fun hf' => ?_⟩
  · simp [h.pending]
  · simp [State.faultResponse, h.responses, h.cause]
  · exact absurd (hf'.symm.trans hf) nofun

/-- Steps of two states no host can tell apart answer two such states. -/
theorem SameToHost.step (h : SameToHost s s') (ht : step s = .next t) :
    ∃ t', Machine.step s' = .next t' ∧ SameToHost t t' := by
  cases hf : s.fatal with
  | false => exact ⟨t, h.eq_of_clear hf ▸ ht, .refl t⟩
  | true =>
    have hf' := h.fatal ▸ hf
    match hp : s.pending with
    | [] =>
      rw [step_idle hp] at ht
      cases ht
      exact ⟨s', step_idle (h.pending ▸ hp), h⟩
    | .reset :: rest =>
      rw [step_reset hp, h.assertReset_eq] at ht
      cases ht
      exact ⟨_, step_reset (h.pending ▸ hp), .refl _⟩
    | .command c :: rest =>
      rw [step_latched hp hf] at ht
      cases ht
      exact ⟨_, step_latched (h.pending ▸ hp) hf', h.latched hf⟩

/-- Settles O15, by induction on the number of steps. -/
theorem dataAfterAFaultCannotBeObserved : Obligations.DataAfterAFaultCannotBeObserved := by
  intro n
  induction n with
  | zero =>
    intro s s' t h ht
    cases ht
    exact ⟨s', rfl, h⟩
  | succ n ih =>
    intro s s' t h ht
    obtain ⟨u, hu, hrun⟩ := run_succ_next ht
    obtain ⟨u', hu', hsame⟩ := h.step hu
    obtain ⟨t', ht', hend⟩ := ih u u' t hsame hrun
    exact ⟨t', (run_succ hu').trans ht', hend⟩

/-- Settles O7. -/
theorem stepRunsTheDecodedCommand : Obligations.StepRunsTheDecodedCommand := by
  refine ⟨fun s c rest i hp hc => ?_, fun s c rest e hp hc => ?_, fun s rest hp => ?_, fun s => step_idle⟩
  · rw [step_command hp, dropEvent_eq hp, runCommand, hc]
  · rw [step_command hp, dropEvent_eq hp, runCommand, hc]
  · rw [step_reset hp, State.dropEvent, hp, List.tail_cons]

end host

/-! ### The response and the cause of one command -/

/-- Settles O16: each of the five things a command can do gives its one response. -/
theorem everyCommandGivesOneResponse : Obligations.EveryCommandGivesOneResponse := by
  intro i s t h
  cases exec_cases h with
  | latched hf =>
    exact ⟨rfl, rfl, s.faultResponse, rfl, by simp [hf, State.faultResponse], rfl, fun _ => nofun, fun _ => ⟨rfl, rfl⟩,
      fun _ => rfl, fun _ => rfl⟩
  | illegal _ _ | kept _ _ _ | scrambled _ _ _ =>
    exact ⟨rfl, rfl, _, rfl, rfl, rfl, fun _ => nofun, fun _ => ⟨rfl, rfl⟩, fun _ => rfl, fun _ => rfl⟩
  | completed u v p hf hw hr =>
    exact ⟨hr.cfg, hr.pending, u.okResponse v p, by rw [complete_responses, hr.responses]; rfl,
      by simp [State.okResponse, hr.fatal], rfl, fun hs _ => hr.cause.trans (hs.clear hf), nofun, hr.value, hr.payload⟩

/-- Settles O17. -/
theorem causesAreRaisedOnlyByTheirCommands : Obligations.CausesAreRaisedOnlyByTheirCommands := by
  intro i s t h hf ht
  cases exec_cases h with
  | latched hf' => exact absurd (hf.symm.trans hf') nofun
  | illegal _ hw => exact .inr ⟨hw, rfl⟩
  | kept c _ hm | scrambled c _ hm => exact .inl ⟨hm.wf, hm.raised⟩
  | completed u v p _ hw hr => exact absurd (hr.fatal.symm.trans ht) nofun

/-- The cause with code 9 is `CAPACITY` (R241). -/
theorem code_eq_nine {c : Cause} (h : c.code = 9) : c = .capacity := by
  cases c <;> first | rfl | exact absurd h (by decide)

/-- Settles O18: a command latches `CAPACITY` only on a block with a limit. -/
theorem unboundedBlockNeverRaisesCapacity : Obligations.UnboundedBlockNeverRaisesCapacity := by
  intro i s t h hf hb hq ht hc
  have unlimited {c : Cause} (hm : MayLatch i s c) : c.code ≠ 9 := fun h9 =>
    (hm.capacity (code_eq_nine h9)).elim (fun hne => hne hb) (fun hne => hne hq)
  cases exec_cases h with
  | latched hf' => exact absurd (hf.symm.trans hf') nofun
  | illegal _ _ =>
    rw [raise_cause] at hc
    exact absurd hc (by decide)
  | kept c _ hm | scrambled c _ hm => exact unlimited hm hc
  | completed u v p _ hw hr => exact absurd (hr.fatal.symm.trans ht) nofun

/-- Settles O9: the check on the operands comes before the body of the command. -/
theorem illFormedOperandsAreIllegalWhateverTheStreamsHold :
    Obligations.IllFormedOperandsAreIllegalWhateverTheStreamsHold := by
  intro i s hw hf
  exact ⟨_, exec_illegal hw hf, raise_fatal .., raise_cause .., raise_responses .., fun x => raise_stream ..,
    fun a => raise_seq .., raise_cfg .., raise_pending ..⟩

/-! ### What a completed command keeps -/

/-- Settles O36. -/
theorem completedCommandsKeepWhatTheyDoNotWrite : Obligations.CompletedCommandsKeepWhatTheyDoNotWrite := by
  intro i s t h ht
  obtain ⟨hf, -, u, v, p, rfl, hr⟩ := exec_completed h ht
  have hd := hr.done hf
  exact ⟨hd.streams, hd.seqs, hd.cause, hd.cfg, hd.pending⟩

/-- A completed command that does not replace a buffer whole keeps every bit but those it stores, and every byte. -/
theorem exec_keeps {i : Instr} {s t : State} (h : exec i s = .next t) (ht : t.fatal = false)
    (hi : i.replacesBuffer = false) (x : StreamId) : Keeps (storedBits i s x) (s.stream x) (t.stream x) := by
  obtain ⟨-, -, u, v, p, rfl, hr⟩ := exec_completed h ht
  rw [complete_stream]
  exact hr.keeps x hi

/-- Settles O37. -/
theorem storesTouchOnlyTheirBits : Obligations.StoresTouchOnlyTheirBits :=
  fun _ _ _ x h ht hi => (exec_keeps h ht hi x).bits

/-- Settles O38. -/
theorem buffersNeverShrinkUnlessReplaced : Obligations.BuffersNeverShrinkUnlessReplaced :=
  fun _ _ _ x h ht hi => (exec_keeps h ht hi x).len

end Sys2Proof.Machine
end

section
/-! PROOF. The statements about the memory of a stream (`20_memory.md`): the byte paths (R55), the width 0 (R56) and the
two bit orders (R54), from the laws of streams and of the BS and Q families. -/

namespace Sys2Proof.Machine

/-! ### The byte paths (R55) -/

section bytes
variable {s : State} {x : StreamId} {t : Stream}

/-- `BS.PUT` is the 8-bit `BS.PUTB`: a byte is a legal pattern of width 8. -/
theorem exec_bsPut_eq_bsPutb (v : Byte) : exec (.bsPut x v) s = exec (.bsPutb x 8 v.toNat) s := by
  rw [exec, exec, execBsPut, execBsPutb, put_eq, wfPattern_iff.2 ⟨by decide, v.isLt⟩]
  rfl

/-- Eight bits read are the number of a byte. -/
theorem readBits_eight_toNat {r : Nat × Stream} (h : t.readBits 8 = .ok r) : (BitVec.ofNat 8 r.1).toNat = r.1 := by
  obtain ⟨bs, hbs, rfl⟩ := map_eq_ok.1 h
  obtain ⟨-, hbits, -⟩ := (takeBits_answers 8 t).of_ok hbs
  rw [hbits]
  exact toNat_ofNat_valueAt

/-- `BS.RD` is the 8-bit `BS.RDB`. -/
theorem exec_bsRd_eq_bsRdb : exec (.bsRd x) s = exec (.bsRdb x 8) s := by
  cases hf : s.fatal with
  | true => rw [exec_latched hf, exec_latched hf]
  | false =>
    rw [exec_bsRd hf, exec_bsRdb (by decide) hf, readByte_eq]
    cases hr : (s.stream x).readBits 8 with
    | error e => cases e <;> rfl
    | ok r => rw [except_map_ok, finish_ok, finish_ok, readBits_eight_toNat hr]

/-- `BS.PK` is the 8-bit `BS.PKB`. -/
theorem exec_bsPk_eq_bsPkb : exec (.bsPk x) s = exec (.bsPkb x 8) s := by
  cases hf : s.fatal with
  | true => rw [exec_latched hf, exec_latched hf]
  | false =>
    rw [exec_bsPk hf, exec_bsPkb (by decide) hf, peekByte_eq, Stream.peekBits]
    cases hr : (s.stream x).readBits 8 with
    | error e => cases e <;> rfl
    | ok r => rw [except_map_ok, except_map_ok, finish_ok, finish_ok, readBits_eight_toNat hr]

end bytes

/-- Settles O32. -/
theorem bytePathsAgreeWithEightBitPatterns : Obligations.BytePathsAgreeWithEightBitPatterns :=
  fun _ v _ => ⟨exec_bsPut_eq_bsPutb v, exec_bsRd_eq_bsRdb, exec_bsPk_eq_bsPkb⟩

/-! ### The width 0 (R56) -/

theorem valueAt_zero (m : Memory) (p : Nat) : valueAt m p 0 = 0 := by rw [valueAt, List.take_zero]; rfl

/-- Settles O35: no bit is written, and no bit is read. -/
theorem zeroWidthTouchesNothing : Obligations.ZeroWidthTouchesNothing := by
  intro x s hf
  simp only [List.forall_mem_cons]
  refine ⟨?putb, ?rdb, ?pkb, List.forall_mem_nil _⟩
  case putb => exact (bsPutbWritesThePattern x 0 0 s (by decide) (by decide) hf).1 rfl
  case rdb =>
    obtain ⟨t, ht, hd, hs⟩ := bsRdb_completes (x := x) (n := 0) (by decide) hf (.inl rfl)
    rw [valueAt_zero] at hd
    exact ⟨t, ht, hd, by rw [hs, Nat.add_zero, atPos_self]⟩
  case pkb =>
    obtain ⟨t, ht, hd⟩ := bsPkb_completes (x := x) (n := 0) (by decide) hf (.inl rfl)
    rw [valueAt_zero] at hd
    exact ⟨t, ht, hd, hd.streams x rfl⟩

/-! ### The two bit orders (R54, R278) -/

section orders
variable {s t : State} {x : StreamId} {bs : List Bool}

/-- A completed write leaves the cursor past its bits, each at its position. -/
theorem finishWrite_bits (h : finishWrite x s ((s.stream x).writeBits s.cfg bs) = .next t) (ht : t.fatal = false) :
    (t.stream x).pos = (s.stream x).pos + bs.length ∧
      ∀ j, j < bs.length → bitAtPos (t.stream x).buf ((s.stream x).pos + j) = bs[j]? := by
  have hw := finishWrite_completed h ht
  refine ⟨?_, bits_of_completed_write hw fun _ _ => rfl⟩
  obtain ⟨rfl, hs⟩ | ⟨-, -, hwrote⟩ := writeBits_wrote hw
  · rw [hs, List.length_nil, Nat.add_zero]
  · exact hwrote.pos

/-- The two orders of one pattern: place `j` of one is place `n - 1 - j` of the other. -/
theorem msbFirst_getElem? {n j : Nat} (v : Nat) (hj : j < n) : (msbFirst n v)[j]? = (lsbFirst n v)[n - 1 - j]? := by
  rw [msbFirst, List.getElem?_reverse (by simpa using hj), lsbFirst_length]

end orders

/-- Settles O42: both ways write the bits of one pattern from one position, in opposite orders. -/
theorem theTwoBitOrdersAreReversed : Obligations.TheTwoBitOrdersAreReversed := by
  intro x a n v s t u w hn hv hf hempty hputb ht hadd hu hputq hw
  obtain ⟨hstreams, -, -, hcfg, -⟩ := completedCommandsKeepWhatTheyDoNotWrite _ _ _ hadd hu
  have hseq : u.seq a = msbFirst n v := by
    rw [exec_qAddn hn hv hf] at hadd
    rw [appendSeq_completed hadd hu, hempty, List.nil_append]
  rw [exec_bsPutb hn hv hf] at hputb
  rw [exec_bsPutq hu, hseq] at hputq
  obtain ⟨hpos, hbits⟩ := finishWrite_bits hputb ht
  obtain ⟨hpos', hbits'⟩ := finishWrite_bits hputq hw
  rw [lsbFirst_length] at hpos hbits
  rw [msbFirst_length, hstreams x rfl] at hpos' hbits'
  refine ⟨hpos'.trans hpos.symm, fun j hj => ?_⟩
  rw [hbits' j hj, hbits (n - 1 - j) (by omega), msbFirst_getElem? v hj]

end Sys2Proof.Machine
end

section
/-! PROOF. The statements about the codecs and the driver (`42_huffman.md`, `43_ranked_escape.md`, `44_driver.md`), from
the laws of the decoders, of the Huffman tree and of the driver procedure. -/

namespace Sys2Proof.Machine

/-! ### The Huffman tree and alphabet -/

/-- Settles O47: the members left do not go before the one taken. -/
theorem extractMinTakesTheLeast : Obligations.ExtractMinTakesTheLeast := by
  intro x ys
  have hperm := extractMin_perm x ys
  refine ⟨hperm, fun y hy => ?_⟩
  rcases List.mem_cons.1 (hperm.mem_iff.2 hy) with rfl | hrest
  · exact .inr ⟨rfl, Nat.le_refl _⟩
  · have := extractMin_le x ys y hrest
    simp [Node.before] at this
    omega

/-- The keys of the alphabet are the distinct bytes of the input (R166). -/
theorem alphabet_keys (data : List Byte) : ((alphabet data).map Prod.fst).Perm (distinctBytes data) := by
  by_cases h : data = []
  · rw [h, alphabet, huffTree_nil, distinctBytes_eq_nil.2 rfl]
    exact .nil
  · obtain ⟨t, ht, hbytes, -⟩ := alphabet_spec h
    rw [ht, Tree.codes_bytes]
    exact hbytes

/-- Settles O48. -/
theorem huffmanAlphabetIsPrefixFree : Obligations.HuffmanAlphabetIsPrefixFree := by
  intro data
  refine ⟨alphabet_keys data, fun v => mem_distinctBytes, distinctBytes_nodup data, distinctBytes_length_le data,
    fun v hv w hw => codeOf_prefixFree hv hw, fun v hv h2 => ⟨?_, Nat.le_sub_one_of_lt (codeOf_length_lt hv)⟩,
    fun v hv h1 => ?_⟩
  · exact List.length_pos_iff.2 (codeOf_ne_nil hv h2)
  · exact List.length_eq_zero_iff.1 (Nat.lt_one_iff.1 (h1 ▸ codeOf_length_lt hv))

/-! ### The codec commands -/

/-- Settles O43. -/
theorem codecsDemandFreshStreams : Obligations.CodecsDemandFreshStreams := by
  intro s hf h
  refine ⟨codec_not_fresh (exec_hufEnc hf) h, codec_not_fresh (exec_hufDec hf) h, fun p hp => ?_⟩
  have hwf := mem_pairs_iff.1 hp
  exact ⟨codec_not_fresh (exec_recEnc hwf hf) h, codec_not_fresh (exec_recDec hwf hf) h⟩

/-- Settles O46: both decoders look at the length of the input first (R172). -/
theorem shortInputIsAFormatError : Obligations.ShortInputIsAFormatError := by
  intro s hf h hshort
  refine ⟨codec_false (exec_hufDec_fresh hf h) hf h (if_pos hshort), fun p hp => ?_⟩
  exact codec_false (exec_recDec_fresh (mem_pairs_iff.1 hp) hf h) hf h (if_pos hshort)

/-- Settles O53: what the input reads as, or starts with, decides what the decoder answers. -/
theorem recDecDecodesWhatTheBitsSay : Obligations.RecDecDecodesWhatTheBitsSay := by
  intro short long s hf
  have hz := fits_zero s.cfg
  rw [mem_pairs_iff]
  refine ⟨fun hp => faultsWith_illegal (Bool.not_eq_true _ ▸ hp) hf, fun hp => codec_not_fresh (exec_recDec hp hf),
    fun hp h out => recDec_of_reads hp hf h, fun hp h out rest hstarts hfull => ?_, fun hp h hnone hfits => ?_⟩
  · obtain ⟨h2, -, hl⟩ := wfPair_bounds hp
    obtain ⟨n, -, hr⟩ := recDecode_of_starts (by omega) (by omega) hstarts hz
    rw [if_neg (by simp [hfull])] at hr
    exact codec_full (exec_recDec_fresh hp hf h) h hr
  · obtain ⟨h2, -, hl⟩ := wfPair_bounds hp
    exact codec_false (exec_recDec_fresh hp hf h) hf h (recDecode_of_not_reads (by omega) (by omega) hnone hfits hz)

/-! ### The driver procedure from the codec step -/

section streams
variable {cfg : Config} {alg : Algorithm} {dir : Direction} {m : Memory}

/-- A codec step that answers `false` ends the procedure in `DRIVER_ASSERT` (R235). -/
theorem driveStreams_false (hfit : cfg.bufFits m.length = true)
    (hstep : codecStep cfg alg dir (Stream.fresh m) Stream.empty = .ok none) :
    driveStreams cfg alg dir m = .error (.fatal .driverAssert) := by
  rw [driveStreams, load_fits hfit, except_bind_ok, hstep]; rfl

/-- A codec step that stops ends the procedure in the same way. -/
theorem driveStreams_stop (hfit : cfg.bufFits m.length = true) {e : Stop}
    (hstep : codecStep cfg alg dir (Stream.fresh m) Stream.empty = .error e) :
    driveStreams cfg alg dir m = .error e := by
  rw [driveStreams, load_fits hfit, except_bind_ok, hstep]; rfl

end streams

section refinement
variable {i : Instr} {s t u : State} {m : Memory}

/-- A command gives one result. -/
theorem Done.value_unique {v v' : Nat} {p p' : List Byte} (h : Done i s t v p) (h' : Done i s t v' p') : v = v' := by
  have := h.response.symm.trans h'.response
  simpa using congrArg (List.map Response.value) this

/-- A `BS.LOAD` that completes has loaded a payload that fits (R102). -/
theorem fits_of_bsLoad {x : StreamId} (hf : s.fatal = false) (h : exec (.bsLoad x m) s = .next t)
    (ht : t.fatal = false) : s.cfg.bufFits m.length = true := by
  by_contra hfull
  obtain ⟨t', h', ht', -⟩ := (bsLoadTakesThePayload x m s hf).2 (Bool.not_eq_true _ ▸ hfull)
  rw [h] at h'
  cases h'
  rw [ht] at ht'
  cases ht'

/-- The two steps before the codec command leave the streams it demands (R230). -/
theorem bsLoad_bsNew_leave (hf : s.fatal = false) (ht : exec (.bsLoad .s0 m) s = .next t) (htf : t.fatal = false)
    (hu : exec (.bsNew .s1) t = .next u) :
    s.cfg.bufFits m.length = true ∧ u.fatal = false ∧ u.cfg = s.cfg ∧ FreshStreams u ∧ u.s0.buf = m := by
  have hfit := fits_of_bsLoad hf ht htf
  obtain ⟨t', u', ht', hu', hleft⟩ := bsLoad_bsNew_fresh hf hfit
  rw [ht] at ht'
  cases ht'
  rw [hu] at hu'
  cases hu'
  exact ⟨hfit, hleft⟩

variable {drv codec : Instr} {v : State} {alg : Nat} {dir : Direction}

/-- A driver command against the codec command of its dispatch, on the streams the two steps before it leave: both run
one codec step, whose four answers decide how each of them ends (R230, R235). -/
theorem driver_refines (hf : s.fatal = false) (hdrv : exec drv s = drive alg dir m s)
    (hfit : s.cfg.bufFits m.length = true) (huf : u.fatal = false) (hfresh : FreshStreams u)
    (hcodec : exec codec u = runCodec u (codecStep s.cfg (algorithmOf alg) dir (Stream.fresh m) Stream.empty))
    (hv : exec codec u = .next v) :
    (Done codec u v 1 [] → ∃ w, exec drv s = .next w ∧ Done drv s w v.s1.buf.length v.s1.buf ∧
      (∀ x, w.stream x = v.stream x)) ∧
    (Done codec u v 0 [] → FaultsWith drv s 8) ∧
    (v.fatal = true → FaultsWith drv s v.cause) := by
  have running {n : Nat} {q : List Byte} (hd : Done codec u v n q) : v.fatal ≠ true := by
    rw [hd.fatal_false huf]; nofun
  rcases hr : codecStep s.cfg (algorithmOf alg) dir (Stream.fresh m) Stream.empty with (c | _) | (_ | p)
  · rw [hcodec, hr, runCodec, if_pos (freshStreams_iff_codecReady.1 hfresh), finish_fatal] at hv
    cases hv
    exact ⟨fun hd => absurd rfl (running hd), fun hd => absurd rfl (running hd),
      fun _ => drive_faults hdrv (driveStreams_stop hfit hr)⟩
  · rw [hcodec, hr, runCodec, if_pos (freshStreams_iff_codecReady.1 hfresh)] at hv
    cases hv
  · obtain ⟨v', hv', hd, -⟩ := codec_false hcodec huf hfresh hr
    rw [hv] at hv'
    cases hv'
    exact ⟨fun hd' => absurd (hd'.value_unique hd) (by decide),
      fun _ => drive_faults (c := .driverAssert) hdrv (driveStreams_false hfit hr), fun h => absurd h (running hd)⟩
  · obtain ⟨v', hv', hd, h0, h1⟩ := codec_true hcodec huf hfresh hr
    rw [hv] at hv'
    cases hv'
    obtain ⟨w, hw, hdw, hw0, hw1⟩ := drive_completes hdrv hf (driveStreams_true hfit hr)
    exact ⟨fun _ => ⟨w, hw, h1 ▸ hdw, forall_stream.2 ⟨hw0.trans h0.symm, hw1.trans h1.symm⟩⟩,
      fun hd' => absurd (hd'.value_unique hd) (by decide), fun h => absurd h (running hd)⟩

end refinement

/-! ### The algorithms 1 to 7 -/

section algorithms
variable {cfg : Config} {alg : Nat} {m : Memory}

/-- From 2 on an algorithm is ranked escape with S = alg, L = alg + 8 (`30_encoding.md` R80). -/
theorem algorithmOf_of_two_le (h : 2 ≤ alg) : algorithmOf alg = .ranked alg (alg + 8) := by
  obtain ⟨n, rfl⟩ := Nat.exists_eq_add_of_le' h
  rfl

/-- Algorithm 1 is Huffman, 2 to 7 are ranked escape with a legal pair (`30_encoding.md` R80). -/
theorem algorithm_cases (h1 : 1 ≤ alg) (h7 : alg ≤ 7) :
    alg = 1 ∨ (alg ≠ 1 ∧ algorithmOf alg = .ranked alg (alg + 8) ∧ wfPair alg (alg + 8) = true) := by
  by_cases h : alg = 1
  · exact .inl h
  · exact .inr ⟨h, algorithmOf_of_two_le (by omega), wfPair_iff.2 (by omega)⟩

/-- The wire format of an algorithm (R233). -/
def algBits (alg fbi : Nat) (m : Memory) : List Bool :=
  if alg = 1 then hufBits fbi m else recBits fbi alg (alg + 8) m

/-- The number of bits an algorithm writes. -/
def algTotal (alg : Nat) (m : Memory) : Nat := if alg = 1 then hufTotal m else recTotal alg (alg + 8) m

/-- A compressed buffer's bits, its count the number of bits modulo 8 (R85). -/
theorem algBits_algTotal (alg : Nat) (m : Memory) : algBits alg (algTotal alg m % 8) m =
    if alg = 1 then hufBits (hufTotal m % 8) m else recBits (recTotal alg (alg + 8) m % 8) alg (alg + 8) m := by
  unfold algBits algTotal
  split <;> rfl

theorem algBits_length (alg fbi : Nat) (m : Memory) : (algBits alg fbi m).length = algTotal alg m := by
  unfold algBits algTotal
  split
  · exact hufBits_total fbi m
  · exact recBits_total fbi alg (alg + 8) m

theorem three_le_algBits (alg : Nat) (m : Memory) : 3 ≤ (algBits alg 0 m).length := by
  unfold algBits
  split
  · exact three_le_hufBits 0 m
  · exact three_le_recBits 0 alg (alg + 8) m

theorem algBits_patch (alg fbi : Nat) (m : Memory) : lsbFirst 3 fbi ++ (algBits alg 0 m).drop 3 = algBits alg fbi m := by
  unfold algBits
  split
  · exact hufBits_patch fbi m
  · exact recBits_patch fbi alg (alg + 8) m

/-- An encoder writes the wire format and patches it (R170, R204). -/
theorem codecStep_compress (h1 : 1 ≤ alg) (h7 : alg ≤ 7) :
    codecStep cfg (algorithmOf alg) .compress (Stream.fresh m) Stream.empty = (do
      let o ← Stream.empty.writeBits cfg (algBits alg 0 m)
      let o ← patchHeader cfg o
      return some (Stream.atPos m (8 * m.length), o)) := by
  rcases algorithm_cases h1 h7 with rfl | ⟨hne, halg, -⟩
  · exact hufEncode_eq m Stream.empty
  · rw [halg, algBits, if_neg hne]
    exact recEncode_eq alg (alg + 8) m Stream.empty

/-- An encoder whose output fits leaves a buffer in the wire format, its cursor at (0,3). -/
theorem codecStep_compress_fits (h1 : 1 ≤ alg) (h7 : alg ≤ 7) (hfit : cfg.bufFits (bytesFor (algTotal alg m)) = true) :
    ∃ y, HoldsBits (algBits alg (algTotal alg m % 8) m) y ∧
      codecStep cfg (algorithmOf alg) .compress (Stream.fresh m) Stream.empty =
        .ok (some ({ buf := m, bi := m.length, bo := 0 }, { buf := y, bi := 0, bo := 3 })) := by
  rw [← algBits_length alg 0] at hfit
  obtain ⟨u, o, hu, ho, henc⟩ := encode_ok (three_le_algBits alg m) hfit
  obtain ⟨hbi, hbo⟩ := henc.cursor
  have hholds := henc.holds
  rw [algBits_patch, algBits_length] at hholds
  refine ⟨o.buf, hholds, ?_⟩
  rw [codecStep_compress h1 h7, hu, except_bind_ok, ho, except_bind_ok, atPos_eight_mul, ← hbi, ← hbo]
  rfl

/-- An encoder whose output does not fit stops with `CAPACITY` (R36). -/
theorem codecStep_compress_full (h1 : 1 ≤ alg) (h7 : alg ≤ 7) (hfull : cfg.bufFits (bytesFor (algTotal alg m)) = false) :
    codecStep cfg (algorithmOf alg) .compress (Stream.fresh m) Stream.empty = .error (.fatal .capacity) := by
  have h3 := three_le_algBits alg m
  rw [codecStep_compress h1 h7, writeBits_capacity (by simp) (by simp; omega)
    (by simpa [algBits_length] using hfull)]
  rfl

/-- A decoder on a buffer that reads as `out`, where `out` fits. -/
theorem codecStep_decompress_reads (h1 : 1 ≤ alg) (h7 : alg ≤ 7) {out : List Byte} (h : AlgReads alg m out)
    (hfit : cfg.bufFits out.length = true) : ∃ input : Stream, input.buf = m ∧
      codecStep cfg (algorithmOf alg) .decompress (Stream.fresh m) Stream.empty =
        .ok (some (input, { buf := out, bi := out.length, bo := 0 })) := by
  rw [← atPos_eight_mul]
  rcases algorithm_cases h1 h7 with rfl | ⟨hne, halg, hp⟩
  · have hr := hufDecode_of_reads h (fits_zero cfg)
    rw [if_pos hfit] at hr
    exact ⟨_, atPos_buf _, hr⟩
  · rw [AlgReads, AlgStarts, if_neg hne] at h
    have hr := recDecode_of_reads (by omega) (by omega) h (fits_zero cfg)
    rw [if_pos hfit] at hr
    rw [halg]
    exact ⟨_, atPos_buf _, hr⟩

/-- A decoder on a buffer that starts with bytes that do not fit. -/
theorem codecStep_decompress_full (h1 : 1 ≤ alg) (h7 : alg ≤ 7) {out : List Byte} {rest : List Bool}
    (h : AlgStarts alg m out rest) (hfull : cfg.bufFits out.length = false) :
    codecStep cfg (algorithmOf alg) .decompress (Stream.fresh m) Stream.empty = .error (.fatal .capacity) := by
  have hnot : ¬ cfg.bufFits out.length = true := by simp [hfull]
  rcases algorithm_cases h1 h7 with rfl | ⟨hne, halg, hp⟩
  · obtain ⟨inv, hr⟩ := hufDecode_of_starts h (fits_zero cfg)
    rwa [if_neg hnot] at hr
  · rw [AlgStarts, if_neg hne] at h
    obtain ⟨n, -, hr⟩ := recDecode_of_starts (by omega) (by omega) h (fits_zero cfg)
    rw [if_neg hnot] at hr
    rw [halg]
    exact hr

/-- A decoder on a buffer that reads as nothing and starts with nothing that does not fit. -/
theorem codecStep_decompress_not_reads (h1 : 1 ≤ alg) (h7 : alg ≤ 7) (h : ∀ out, ¬ AlgReads alg m out)
    (hfits : ∀ out rest, AlgStarts alg m out rest → cfg.bufFits out.length = true) :
    codecStep cfg (algorithmOf alg) .decompress (Stream.fresh m) Stream.empty = .ok none := by
  rcases algorithm_cases h1 h7 with rfl | ⟨hne, halg, hp⟩
  · exact hufDecode_of_not_reads h hfits (fits_zero cfg)
  · simp only [AlgReads, AlgStarts, if_neg hne] at h hfits
    rw [halg]
    exact recDecode_of_not_reads (by omega) (by omega) h hfits (fits_zero cfg)

/-- A buffer in the wire format of `data` reads as `data`, but for Huffman on one byte value repeated (R178, R210). -/
theorem algReads_of_holds (h1 : 1 ≤ alg) (h7 : alg ≤ 7) {data : List Byte}
    (h : HoldsBits (algBits alg (algTotal alg data % 8) data) m) :
    AlgReads alg m (if alg = 1 ∧ (distinctBytes data).length = 1 then [] else data) := by
  rw [← algBits_length alg 0] at h
  rcases algorithm_cases h1 h7 with rfl | ⟨hne, -, hp⟩
  · simp only [true_and]
    exact hufReads_of_holds h
  · rw [algBits, algBits, if_neg hne, if_neg hne] at h
    rw [AlgReads, AlgStarts, if_neg hne, if_neg (fun he => hne he.1)]
    exact recReads_of_holds hp h

end algorithms

/-! ### The driver commands -/

/-- Settles O55: each dispatch runs the codec command's own codec step. -/
theorem driverIsLoadNewCodecDump : Obligations.DriverIsLoadNewCodecDump := by
  intro s t u v payload drv codec hdispatch hf ht htf hu hv
  obtain ⟨hfit, huf, hcfg, hfresh, hbuf⟩ := bsLoad_bsNew_leave hf ht htf hu
  rcases hdispatch with ⟨rfl, rfl⟩ | ⟨rfl, rfl⟩ | ⟨alg, h2, h7, rfl, rfl⟩ | ⟨alg, h2, h7, rfl, rfl⟩
  · have hcodec := exec_hufEnc_fresh huf hfresh
    rw [hcfg, hbuf] at hcodec
    exact driver_refines hf (exec_drvComp (by decide) hf) hfit huf hfresh hcodec hv
  · have hcodec := exec_hufDec_fresh huf hfresh
    rw [hcfg, hbuf] at hcodec
    exact driver_refines hf (exec_drvDecomp (by decide) hf) hfit huf hfresh hcodec hv
  · have hcodec := exec_recEnc_fresh (wfPair_iff.2 ⟨h2, h7, rfl⟩) huf hfresh
    rw [hcfg, hbuf] at hcodec
    exact driver_refines hf (exec_drvComp h7 hf) hfit huf hfresh (by rw [hcodec, algorithmOf_of_two_le h2]; rfl) hv
  · have hcodec := exec_recDec_fresh (wfPair_iff.2 ⟨h2, h7, rfl⟩) huf hfresh
    rw [hcfg, hbuf] at hcodec
    exact driver_refines hf (exec_drvDecomp h7 hf) hfit huf hfresh (by rw [hcodec, algorithmOf_of_two_le h2]; rfl) hv

/-- Settles O57: the payload is loaded, and the encoder writes the wire format. -/
theorem drvCompReturnsTheCompressedBuffer : Obligations.DrvCompReturnsTheCompressedBuffer := by
  intro alg payload s h1 h7 hf
  have hdrv := exec_drvComp (payload := payload) h7 hf
  refine ⟨fun hfit hout => ?_, fun hfull => drive_faults (c := .capacity) hdrv ?_⟩
  · obtain ⟨y, hholds, hstep⟩ := codecStep_compress_fits (m := payload) h1 h7 hout
    obtain ⟨t, ht, hd, hs0, hs1⟩ := drive_completes hdrv hf (driveStreams_true hfit hstep)
    exact ⟨t, y, ht, hd, algBits_algTotal alg payload ▸ hholds, hs0, hs1⟩
  · cases hfit : s.cfg.bufFits payload.length with
    | false => exact driveStreams_full hfit
    | true =>
      have hout := hfull.resolve_left (by simp [hfit])
      exact driveStreams_stop hfit (codecStep_compress_full h1 h7 hout)

/-- Settles O58: the payload is loaded, and what it reads as, or starts with, decides what the decoder answers. -/
theorem drvDecompReturnsTheDecodedBufferOrAsserts : Obligations.DrvDecompReturnsTheDecodedBufferOrAsserts := by
  intro alg payload s h1 h7 hf
  have hdrv := exec_drvDecomp (payload := payload) h7 hf
  refine ⟨fun hfull => drive_faults (c := .capacity) hdrv (driveStreams_full hfull), fun hfit out hreads hout => ?_,
    fun hfit out rest hstarts hfull => drive_faults (c := .capacity) hdrv
      (driveStreams_stop hfit (codecStep_decompress_full h1 h7 hstarts hfull)),
    fun hfit hnone hfits => drive_faults (c := .driverAssert) hdrv
      (driveStreams_false hfit (codecStep_decompress_not_reads h1 h7 hnone hfits))⟩
  obtain ⟨input, hbuf, hstep⟩ := codecStep_decompress_reads h1 h7 hreads hout
  obtain ⟨t, ht, hd, hs0, hs1⟩ := drive_completes hdrv hf (driveStreams_true hfit hstep)
  exact ⟨t, ht, hd, by rw [hs0]; exact hbuf, hs1⟩

/-- Settles O59: the identity copies, and an encoder's buffer holds the wire format, which reads as the input but for the
one exception. -/
theorem driverRoundTrip : Obligations.DriverRoundTrip := by
  intro alg x s h7 hf hunbounded
  have fits (n : Nat) : s.cfg.bufFits n = true := bufFits_unbounded hunbounded n
  rcases Nat.eq_zero_or_pos alg with rfl | h1
  · obtain ⟨⟨t, ht, hdt, -⟩, -⟩ := (identityDriverCopies x s hf).1 (fits _)
    have htf := hdt.fatal_false hf
    obtain ⟨-, u, hu, hdu, -⟩ := (identityDriverCopies x t htf).1 (hdt.cfg ▸ fits _)
    exact ⟨t, u, x, x, ht, hdt, hu, hdu, rfl⟩
  · obtain ⟨t, y, ht, hdt, hholds, -⟩ := (drvCompReturnsTheCompressedBuffer alg x s h1 h7 hf).1 (fits _) (fits _)
    rw [← algBits_algTotal] at hholds
    have htf := hdt.fatal_false hf
    obtain ⟨-, hdecomp, -⟩ := drvDecompReturnsTheDecodedBufferOrAsserts alg y t h1 h7 htf
    obtain ⟨u, hu, hdu, -⟩ := hdecomp (hdt.cfg ▸ fits _) _ (algReads_of_holds h1 h7 hholds) (hdt.cfg ▸ fits _)
    exact ⟨t, u, y, _, ht, hdt, hu, hdu, rfl⟩

end Sys2Proof.Machine
end

section
/-! PROOF. The statements about the encoding (`30_encoding.md` Part A): the decoder against the encoder, form by form,
and both against the rows of `opcode_table.json`. -/

namespace Sys2Proof

/-! ### What the encoder makes decodes to the command (R70 to R74) -/

section encoded
variable (op : Nat)

theorem formFS_code (mk : StreamId → Instr) (x : StreamId) :
    formFS { opcodeOnly op with a := x.code } mk = .ok (mk x) := formFS_ok.2 ⟨⟨rfl, rfl, rfl, rfl⟩, x, rfl, rfl⟩

theorem formFQ_code (mk : SeqId → Instr) (a : SeqId) :
    formFQ { opcodeOnly op with a := a.code } mk = .ok (mk a) := formFQ_ok.2 ⟨⟨rfl, rfl, rfl, rfl⟩, a, rfl, rfl⟩

theorem formFSB_byte (mk : StreamId → Byte → Instr) (x : StreamId) (v : Byte) :
    formFSB { opcodeOnly op with a := x.code, imm := v.toNat } mk = .ok (mk x v) :=
  formFSB_ok.2 ⟨⟨rfl, rfl, rfl⟩, v.isLt, x, rfl, by simp⟩

theorem formFSN_width (mk : StreamId → Nat → Instr) (x : StreamId) {n : Nat} (hn : wfWidth n = true) :
    formFSN { opcodeOnly op with a := x.code, n := n } mk = .ok (mk x n) :=
  formFSN_ok.2 ⟨⟨rfl, rfl, rfl⟩, hn, x, rfl, rfl⟩

theorem wfWidth_of_wfPattern {n p : Nat} (h : wfPattern n p = true) : wfWidth n = true :=
  wfWidth_iff.2 (wfPattern_iff.1 h).1

/-- The two bytes of `imm` that hold a pair. -/
theorem pair_imm {short long : Nat} (h : wfPair short long = true) : long * 2 ^ 8 + short < 2 ^ 16 ∧
    (long * 2 ^ 8 + short) % 2 ^ 8 = short ∧ (long * 2 ^ 8 + short) / 2 ^ 8 = long := by
  obtain ⟨h2, h7, hl⟩ := wfPair_iff.1 h
  omega

theorem formFSL_pair (mk : Nat → Nat → Instr) {short long : Nat} (h : wfPair short long = true) :
    formFSL { opcodeOnly op with imm := long * 2 ^ 8 + short } mk = .ok (mk short long) := by
  obtain ⟨hlt, hlow, hhigh⟩ := pair_imm h
  refine formFSL_ok.2 ⟨⟨rfl, rfl, rfl, rfl⟩, hlt, ?_, ?_⟩ <;> dsimp only <;> rw [hlow, hhigh]
  exact h

theorem formFALG_alg (mk : Nat → Instr) {alg : Nat} (h : wfAlg alg = true) :
    formFALG { opcodeOnly op with imm := alg } mk = .ok (mk alg) :=
  formFALG_ok.2 ⟨⟨rfl, rfl, rfl, rfl⟩, Nat.lt_of_le_of_lt (wfAlg_iff.1 h) (by decide), h, rfl⟩

end encoded

/-- The decoder takes the fields and the payload of a well-formed command for that command. -/
theorem decodeFields_fields {i : Instr} (h : i.wf = true) : decodeFields i.fields i.payload = .ok i := by
  cases i with
  | bsNew x => exact noPayload_ok.2 ⟨rfl, formFS_code 0x00 _ x⟩
  | bsLoad x p => exact formFS_code 0x01 _ x
  | bsPut x v => exact noPayload_ok.2 ⟨rfl, formFSB_byte 0x02 _ x v⟩
  | bsPutf x v => exact noPayload_ok.2 ⟨rfl, formFSB_byte 0x03 _ x v⟩
  | bsPutb x n p =>
    exact noPayload_ok.2 ⟨rfl, formFSNP_ok.2 ⟨⟨rfl, rfl⟩, wfWidth_of_wfPattern h, h, x, rfl, rfl⟩⟩
  | bsPutq x q => exact noPayload_ok.2 ⟨rfl, formFSQ_ok.2 ⟨⟨rfl, rfl, rfl⟩, x, q, rfl, rfl, rfl⟩⟩
  | bsRdb x n => exact noPayload_ok.2 ⟨rfl, formFSN_width 0x06 _ x h⟩
  | bsPkb x n => exact noPayload_ok.2 ⟨rfl, formFSN_width 0x07 _ x h⟩
  | bsRd x => exact noPayload_ok.2 ⟨rfl, formFS_code 0x08 _ x⟩
  | bsPk x => exact noPayload_ok.2 ⟨rfl, formFS_code 0x09 _ x⟩
  | bsSeek x i k => exact noPayload_ok.2 ⟨rfl, formFSK_ok.2 ⟨⟨rfl, rfl⟩, x, rfl, by simp [Instr.fields]⟩⟩
  | bsAtend x => exact noPayload_ok.2 ⟨rfl, formFS_code 0x0B _ x⟩
  | bsTell x => exact noPayload_ok.2 ⟨rfl, formFS_code 0x0C _ x⟩
  | bsLen x => exact noPayload_ok.2 ⟨rfl, formFS_code 0x0D _ x⟩
  | bsDump x => exact noPayload_ok.2 ⟨rfl, formFS_code 0x0E _ x⟩
  | qClr a => exact noPayload_ok.2 ⟨rfl, formFQ_code 0x10 _ a⟩
  | qAdd1 a bit =>
    exact noPayload_ok.2 ⟨rfl, formFQ1_ok.2 ⟨⟨rfl, rfl, rfl⟩, bit.toNat_lt, a, rfl, by cases bit <;> rfl⟩⟩
  | qAddn a n p =>
    exact noPayload_ok.2 ⟨rfl, formFQNP_ok.2 ⟨⟨rfl, rfl⟩, wfWidth_of_wfPattern h, h, a, rfl, rfl⟩⟩
  | qAddq a b => exact noPayload_ok.2 ⟨rfl, formFQQ_ok.2 ⟨⟨rfl, rfl, rfl⟩, a, b, rfl, rfl, rfl⟩⟩
  | qUint a => exact noPayload_ok.2 ⟨rfl, formFQ_code 0x14 _ a⟩
  | qHash a => exact noPayload_ok.2 ⟨rfl, formFQ_code 0x15 _ a⟩
  | qLen a => exact noPayload_ok.2 ⟨rfl, formFQ_code 0x16 _ a⟩
  | hufEnc => exact noPayload_ok.2 ⟨rfl, formF0_ok.2 ⟨⟨rfl, rfl, rfl, rfl, rfl⟩, rfl⟩⟩
  | hufDec => exact noPayload_ok.2 ⟨rfl, formF0_ok.2 ⟨⟨rfl, rfl, rfl, rfl, rfl⟩, rfl⟩⟩
  | recEnc short long => exact noPayload_ok.2 ⟨rfl, formFSL_pair 0x22 _ h⟩
  | recDec short long => exact noPayload_ok.2 ⟨rfl, formFSL_pair 0x23 _ h⟩
  | drvComp alg p => exact formFALG_alg 0x30 (.drvComp · p) h
  | drvDecomp alg p => exact formFALG_alg 0x31 (.drvDecomp · p) h

/-- Settles O1: the word keeps the fields, whose field `zero` is 0. -/
theorem encodeThenDecodeIsIdentity : Obligations.EncodeThenDecodeIsIdentity := by
  intro i h
  obtain ⟨hfit, -⟩ := Laws.FieldsFit.all i h
  rw [decode_ok, fieldsOf_encode h]
  exact ⟨hfit.zero, decodeFields_fields h⟩

/-! ### The rows of `opcode_table.json` -/

/-- How many low bits of a field of `n` bits a mask leaves free: the masks of the table fix the bits above. -/
def freeBits (n m : Nat) : Nat := Nat.log2 (2 ^ n - m)

/-- What a row asks of the fields: its opcode, and of each other field how many low bits are free. -/
def OpRow.form (r : OpRow) : Fields where
  opcode := (fieldsOf r.pattern).opcode
  a      := freeBits 2 (fieldsOf r.mask).a
  b      := freeBits 2 (fieldsOf r.mask).b
  n      := freeBits 6 (fieldsOf r.mask).n
  k      := freeBits 3 (fieldsOf r.mask).k
  zero   := 0
  imm    := freeBits 32 (fieldsOf r.mask).imm

/-- The fields have the opcode of a form, and each other field is a number of the form's free bits. -/
structure Shape (form f : Fields) : Prop where
  opcode : f.opcode = form.opcode
  a      : f.a < 2 ^ form.a
  b      : f.b < 2 ^ form.b
  n      : f.n < 2 ^ form.n
  k      : f.k < 2 ^ form.k
  zero   : f.zero = 0
  imm    : f.imm < 2 ^ form.imm

/-- A field under a mask that fixes its high bits to 0. -/
theorem masked_iff {w x k : Nat} (hk : k ≤ w) (hx : x < 2 ^ w) {m : Nat} (hm : m = 2 ^ w - 2 ^ k) :
    x &&& m = 0 ↔ x < 2 ^ k := hm ▸ and_high hk hx

/-- Each row's pattern has only the opcode; its mask fixes the opcode, the field `zero`, and the high bits of the other
fields. -/
theorem rows_fields : ∀ r ∈ opRows, fieldsOf r.pattern = opcodeOnly r.form.opcode ∧
    (fieldsOf r.mask).opcode = 2 ^ 8 - 1 ∧ (fieldsOf r.mask).zero = 2 ^ 11 - 1 ∧
    (r.form.a ≤ 2 ∧ (fieldsOf r.mask).a = 2 ^ 2 - 2 ^ r.form.a) ∧
    (r.form.b ≤ 2 ∧ (fieldsOf r.mask).b = 2 ^ 2 - 2 ^ r.form.b) ∧
    (r.form.n ≤ 6 ∧ (fieldsOf r.mask).n = 2 ^ 6 - 2 ^ r.form.n) ∧
    (r.form.k ≤ 3 ∧ (fieldsOf r.mask).k = 2 ^ 3 - 2 ^ r.form.k) ∧
    (r.form.imm ≤ 32 ∧ (fieldsOf r.mask).imm = 2 ^ 32 - 2 ^ r.form.imm) := by decide

/-- A word selects a row exactly when its fields have the row's shape. -/
theorem selects_iff_shape {r : OpRow} (hr : r ∈ opRows) (w : CmdWord) :
    r.selects w = true ↔ Shape r.form (fieldsOf w) := by
  obtain ⟨hpattern, hopcode, hzero, ⟨la, ha⟩, ⟨lb, hb⟩, ⟨ln, hn⟩, ⟨lk, hk⟩, ⟨li, hi⟩⟩ := rows_fields r hr
  obtain ⟨fo, fa, fb, fn, fk, fz, fi⟩ := fieldsOf_fit w
  rw [selects_iff rfl rfl hpattern, hopcode, hzero, and_full fo, and_full fz]
  simp only [opcodeOnly]
  rw [masked_iff la fa ha, masked_iff lb fb hb, masked_iff ln fn hn, masked_iff lk fk hk, masked_iff li fi hi]
  exact ⟨fun ⟨h1, h2, h3, h4, h5, h6, h7⟩ => ⟨h1, h2, h3, h4, h5, h6, h7⟩,
    fun ⟨h1, h2, h3, h4, h5, h6, h7⟩ => ⟨h1, h2, h3, h4, h5, h6, h7⟩⟩

/-- What a row's mask cannot express, of the fields. -/
def RowCheck.Holds (c : RowCheck) (f : Fields) : Prop :=
  match c with
  | .none => True
  | .width => wfWidth f.n = true
  | .pattern => wfPattern f.n f.imm = true
  | .pair => wfPair (f.imm % 2 ^ 8) (f.imm / 2 ^ 8 % 2 ^ 8) = true

/-- What a row asks of the fields. -/
structure Asks (form : Fields) (c : RowCheck) (f : Fields) : Prop where
  shape : Shape form f
  check : c.Holds f

/-- A row takes a (word, payload) pair. -/
structure OpRow.Takes (r : OpRow) (f : Fields) (p : List Byte) : Prop where
  asks    : Asks r.form r.check f
  payload : r.takesPayload = true ∨ p = []

theorem admits_iff {r : OpRow} {c : Command} : r.admits c = true ↔
    r.check.Holds (fieldsOf c.word) ∧ (r.takesPayload = true ∨ c.payload = []) := by
  have hlow : slice c.word 7 0 = (fieldsOf c.word).imm % 2 ^ 8 := by
    simp only [slice, fieldsOf]; omega
  have hhigh : slice c.word 15 8 = (fieldsOf c.word).imm / 2 ^ 8 % 2 ^ 8 := by
    simp only [slice, fieldsOf]; omega
  rw [OpRow.admits, Bool.and_eq_true, Bool.or_eq_true, beq_iff_eq, hlow, hhigh]
  refine and_congr_left fun _ => ?_
  cases r.check with
  | none => exact iff_of_true rfl trivial
  | width => exact Iff.rfl
  | pattern => exact Iff.rfl
  | pair => exact Iff.rfl

/-- A row selects a word and admits the command exactly when it takes its fields and payload. -/
theorem takes_iff {r : OpRow} (hr : r ∈ opRows) (c : Command) :
    r.selects c.word = true ∧ r.admits c = true ↔ r.Takes (fieldsOf c.word) c.payload := by
  rw [selects_iff_shape hr, admits_iff]
  exact ⟨fun ⟨h1, h2, h3⟩ => ⟨⟨h1, h2⟩, h3⟩, fun ⟨⟨h1, h2⟩, h3⟩ => ⟨h1, h2, h3⟩⟩

/-! ### What decodes is taken by a row -/

theorem width_lt {n : Nat} (h : wfWidth n = true) : n < 2 ^ 6 := Nat.lt_of_le_of_lt (wfWidth_iff.1 h) (by decide)

section taken
variable {op : Nat} {f : Fields} {i : Instr} (ho : f.opcode = op) (hz : f.zero = 0)
include ho hz

theorem asks_of_formF0 {j : Instr} (h : formF0 f j = .ok i) : Asks ⟨op, 0, 0, 0, 0, 0, 0⟩ .none f := by
  obtain ⟨⟨ha, hb, hn, hk, hi⟩, -⟩ := formF0_ok.1 h
  exact ⟨⟨ho, Nat.lt_one_iff.2 ha, Nat.lt_one_iff.2 hb, Nat.lt_one_iff.2 hn, Nat.lt_one_iff.2 hk, hz,
    Nat.lt_one_iff.2 hi⟩, trivial⟩

theorem asks_of_formFS {mk : StreamId → Instr} (h : formFS f mk = .ok i) : Asks ⟨op, 1, 0, 0, 0, 0, 0⟩ .none f := by
  obtain ⟨⟨hb, hn, hk, hi⟩, x, ha, -⟩ := formFS_ok.1 h
  exact ⟨⟨ho, ha ▸ streamCode_lt x, Nat.lt_one_iff.2 hb, Nat.lt_one_iff.2 hn, Nat.lt_one_iff.2 hk, hz,
    Nat.lt_one_iff.2 hi⟩, trivial⟩

theorem asks_of_formFQ {mk : SeqId → Instr} (h : formFQ f mk = .ok i) : Asks ⟨op, 1, 0, 0, 0, 0, 0⟩ .none f := by
  obtain ⟨⟨hb, hn, hk, hi⟩, a, ha, -⟩ := formFQ_ok.1 h
  exact ⟨⟨ho, ha ▸ seqCode_lt a, Nat.lt_one_iff.2 hb, Nat.lt_one_iff.2 hn, Nat.lt_one_iff.2 hk, hz,
    Nat.lt_one_iff.2 hi⟩, trivial⟩

theorem asks_of_formFSB {mk : StreamId → Byte → Instr} (h : formFSB f mk = .ok i) :
    Asks ⟨op, 1, 0, 0, 0, 0, 8⟩ .none f := by
  obtain ⟨⟨hb, hn, hk⟩, hi, x, ha, -⟩ := formFSB_ok.1 h
  exact ⟨⟨ho, ha ▸ streamCode_lt x, Nat.lt_one_iff.2 hb, Nat.lt_one_iff.2 hn, Nat.lt_one_iff.2 hk, hz, hi⟩, trivial⟩

theorem asks_of_formFSN {mk : StreamId → Nat → Instr} (h : formFSN f mk = .ok i) :
    Asks ⟨op, 1, 0, 6, 0, 0, 0⟩ .width f := by
  obtain ⟨⟨hb, hk, hi⟩, hw, x, ha, -⟩ := formFSN_ok.1 h
  exact ⟨⟨ho, ha ▸ streamCode_lt x, Nat.lt_one_iff.2 hb, width_lt hw, Nat.lt_one_iff.2 hk, hz,
    Nat.lt_one_iff.2 hi⟩, hw⟩

theorem asks_of_formFSNP {mk : StreamId → Nat → Nat → Instr} (h : formFSNP f mk = .ok i) :
    Asks ⟨op, 1, 0, 6, 0, 0, 32⟩ .pattern f := by
  obtain ⟨⟨hb, hk⟩, hw, hp, x, ha, -⟩ := formFSNP_ok.1 h
  exact ⟨⟨ho, ha ▸ streamCode_lt x, Nat.lt_one_iff.2 hb, width_lt hw, Nat.lt_one_iff.2 hk, hz, pattern_lt hp⟩, hp⟩

theorem asks_of_formFQNP {mk : SeqId → Nat → Nat → Instr} (h : formFQNP f mk = .ok i) :
    Asks ⟨op, 1, 0, 6, 0, 0, 32⟩ .pattern f := by
  obtain ⟨⟨hb, hk⟩, hw, hp, a, ha, -⟩ := formFQNP_ok.1 h
  exact ⟨⟨ho, ha ▸ seqCode_lt a, Nat.lt_one_iff.2 hb, width_lt hw, Nat.lt_one_iff.2 hk, hz, pattern_lt hp⟩, hp⟩

theorem asks_of_formFSQ {mk : StreamId → SeqId → Instr} (h : formFSQ f mk = .ok i) :
    Asks ⟨op, 1, 1, 0, 0, 0, 0⟩ .none f := by
  obtain ⟨⟨hn, hk, hi⟩, x, q, ha, hb, -⟩ := formFSQ_ok.1 h
  exact ⟨⟨ho, ha ▸ streamCode_lt x, hb ▸ seqCode_lt q, Nat.lt_one_iff.2 hn, Nat.lt_one_iff.2 hk, hz,
    Nat.lt_one_iff.2 hi⟩, trivial⟩

theorem asks_of_formFQQ {mk : SeqId → SeqId → Instr} (h : formFQQ f mk = .ok i) :
    Asks ⟨op, 1, 1, 0, 0, 0, 0⟩ .none f := by
  obtain ⟨⟨hn, hk, hi⟩, a, b, ha, hb, -⟩ := formFQQ_ok.1 h
  exact ⟨⟨ho, ha ▸ seqCode_lt a, hb ▸ seqCode_lt b, Nat.lt_one_iff.2 hn, Nat.lt_one_iff.2 hk, hz,
    Nat.lt_one_iff.2 hi⟩, trivial⟩

theorem asks_of_formFQ1 {mk : SeqId → Bool → Instr} (h : formFQ1 f mk = .ok i) :
    Asks ⟨op, 1, 0, 0, 0, 0, 1⟩ .none f := by
  obtain ⟨⟨hb, hn, hk⟩, hi, a, ha, -⟩ := formFQ1_ok.1 h
  exact ⟨⟨ho, ha ▸ seqCode_lt a, Nat.lt_one_iff.2 hb, Nat.lt_one_iff.2 hn, Nat.lt_one_iff.2 hk, hz, hi⟩, trivial⟩

theorem asks_of_formFSK {mk : StreamId → BitVec 32 → Fin 8 → Instr} (hk : f.k < 8) (hi : f.imm < 2 ^ 32)
    (h : formFSK f mk = .ok i) : Asks ⟨op, 1, 0, 0, 3, 0, 32⟩ .none f := by
  obtain ⟨⟨hb, hn⟩, x, ha, -⟩ := formFSK_ok.1 h
  exact ⟨⟨ho, ha ▸ streamCode_lt x, Nat.lt_one_iff.2 hb, Nat.lt_one_iff.2 hn, hk, hz, hi⟩, trivial⟩

theorem asks_of_formFSL {mk : Nat → Nat → Instr} (h : formFSL f mk = .ok i) :
    Asks ⟨op, 0, 0, 0, 0, 0, 16⟩ .pair f := by
  obtain ⟨⟨ha, hb, hn, hk⟩, hi, hp, -⟩ := formFSL_ok.1 h
  have hlong : f.imm / 2 ^ 8 % 2 ^ 8 = f.imm / 2 ^ 8 := Nat.mod_eq_of_lt (Nat.div_lt_of_lt_mul hi)
  exact ⟨⟨ho, Nat.lt_one_iff.2 ha, Nat.lt_one_iff.2 hb, Nat.lt_one_iff.2 hn, Nat.lt_one_iff.2 hk, hz, hi⟩,
    by rw [RowCheck.Holds, hlong]; exact hp⟩

theorem asks_of_formFALG {mk : Nat → Instr} (h : formFALG f mk = .ok i) : Asks ⟨op, 0, 0, 0, 0, 0, 3⟩ .none f := by
  obtain ⟨⟨ha, hb, hn, hk⟩, -, hw, -⟩ := formFALG_ok.1 h
  exact ⟨⟨ho, Nat.lt_one_iff.2 ha, Nat.lt_one_iff.2 hb, Nat.lt_one_iff.2 hn, Nat.lt_one_iff.2 hk, hz,
    Nat.lt_succ_of_le (wfAlg_iff.1 hw)⟩, trivial⟩

end taken

section rows
variable {f form : Fields} {p : List Byte} {c : RowCheck}

/-- The row of a given place, known by what it asks, takes a command that has no payload. -/
theorem row_takes {r : Except Illegal Instr} {i : Instr} (h : noPayload p r = .ok i) (k : Nat)
    (hrow : (opRows[k]?.map fun r => (r.form, r.check)) = some (form, c)) (hf : r = .ok i → Asks form c f) :
    ∃ r ∈ opRows, r.Takes f p := by
  obtain ⟨row, hk, heq⟩ := Option.map_eq_some_iff.1 hrow
  cases heq
  obtain ⟨hp, h⟩ := noPayload_ok.1 h
  exact ⟨row, List.mem_of_getElem? hk, hf h, .inr hp⟩

/-- The row of a given place, known by what it asks, takes any payload when it allows one. -/
theorem row_takes_payload (k : Nat)
    (hrow : (opRows[k]?.map fun r => (r.form, r.check, r.takesPayload)) = some (form, c, true)) (hf : Asks form c f) :
    ∃ r ∈ opRows, r.Takes f p := by
  obtain ⟨row, hk, heq⟩ := Option.map_eq_some_iff.1 hrow
  simp only [Prod.mk.injEq] at heq
  obtain ⟨rfl, rfl, hp⟩ := heq
  exact ⟨row, List.mem_of_getElem? hk, hf, .inl hp⟩

/-- Fields and payload that decode are taken by a row. -/
theorem takes_of_decodeFields {i : Instr} (hz : f.zero = 0) (hk : f.k < 8) (hi : f.imm < 2 ^ 32)
    (h : decodeFields f p = .ok i) : ∃ r ∈ opRows, r.Takes f p := by
  unfold decodeFields at h
  split at h
  · next ho => exact row_takes h 0 (by decide) (asks_of_formFS ho hz)
  · next ho => exact row_takes_payload 1 (by decide) (asks_of_formFS ho hz h)
  · next ho => exact row_takes h 2 (by decide) (asks_of_formFSB ho hz)
  · next ho => exact row_takes h 3 (by decide) (asks_of_formFSB ho hz)
  · next ho => exact row_takes h 4 (by decide) (asks_of_formFSNP ho hz)
  · next ho => exact row_takes h 5 (by decide) (asks_of_formFSQ ho hz)
  · next ho => exact row_takes h 6 (by decide) (asks_of_formFSN ho hz)
  · next ho => exact row_takes h 7 (by decide) (asks_of_formFSN ho hz)
  · next ho => exact row_takes h 8 (by decide) (asks_of_formFS ho hz)
  · next ho => exact row_takes h 9 (by decide) (asks_of_formFS ho hz)
  · next ho => exact row_takes h 10 (by decide) (asks_of_formFSK ho hz hk hi)
  · next ho => exact row_takes h 11 (by decide) (asks_of_formFS ho hz)
  · next ho => exact row_takes h 12 (by decide) (asks_of_formFS ho hz)
  · next ho => exact row_takes h 13 (by decide) (asks_of_formFS ho hz)
  · next ho => exact row_takes h 14 (by decide) (asks_of_formFS ho hz)
  · next ho => exact row_takes h 15 (by decide) (asks_of_formFQ ho hz)
  · next ho => exact row_takes h 16 (by decide) (asks_of_formFQ1 ho hz)
  · next ho => exact row_takes h 17 (by decide) (asks_of_formFQNP ho hz)
  · next ho => exact row_takes h 18 (by decide) (asks_of_formFQQ ho hz)
  · next ho => exact row_takes h 19 (by decide) (asks_of_formFQ ho hz)
  · next ho => exact row_takes h 20 (by decide) (asks_of_formFQ ho hz)
  · next ho => exact row_takes h 21 (by decide) (asks_of_formFQ ho hz)
  · next ho => exact row_takes h 22 (by decide) (asks_of_formF0 ho hz)
  · next ho => exact row_takes h 23 (by decide) (asks_of_formF0 ho hz)
  · next ho => exact row_takes h 24 (by decide) (asks_of_formFSL ho hz)
  · next ho => exact row_takes h 25 (by decide) (asks_of_formFSL ho hz)
  · next ho => exact row_takes_payload 26 (by decide) (asks_of_formFALG ho hz h)
  · next ho => exact row_takes_payload 27 (by decide) (asks_of_formFALG ho hz h)
  · cases h

end rows

/-! ### What a row takes is a command with the row's mnemonic -/

/-- The command has this mnemonic, legal operands, and this (word, payload) pair: the word's fields, the payload. -/
structure Instr.Is (i : Instr) (mnemonic : String) (f : Fields) (p : List Byte) : Prop where
  mnemonic : i.mnemonic = mnemonic
  wf       : i.wf = true
  fields   : i.fields = f
  payload  : i.payload = p

theorem Instr.Is.decodes {i : Instr} {mn : String} {f : Fields} {p : List Byte} (h : i.Is mn f p) :
    decodeFields f p = .ok i := by
  obtain ⟨-, hwf, rfl, rfl⟩ := h
  exact decodeFields_fields hwf

/-- Fields are known when each of the seven is. -/
theorem fields_eq {f : Fields} {op a b n k imm : Nat} (ho : f.opcode = op) (ha : f.a = a) (hb : f.b = b) (hn : f.n = n)
    (hk : f.k = k) (hz : f.zero = 0) (hi : f.imm = imm) :
    { opcode := op, a := a, b := b, n := n, k := k, zero := 0, imm := imm } = f := by
  subst ho ha hb hn hk hi
  rw [← hz]

theorem Instr.Is.of_fields {i : Instr} {mn : String} {f g : Fields} {p : List Byte} (h : i.Is mn g p) (hg : g = f) :
    i.Is mn f p := hg ▸ h

theorem streamCode_of_lt {n : Nat} (h : n < 2) : ∃ x, n = StreamId.code x := by
  match n, h with
  | 0, _ => exact ⟨.s0, rfl⟩
  | 1, _ => exact ⟨.s1, rfl⟩

theorem seqCode_of_lt {n : Nat} (h : n < 2) : ∃ a, n = SeqId.code a := by
  match n, h with
  | 0, _ => exact ⟨.q0, rfl⟩
  | 1, _ => exact ⟨.q1, rfl⟩

theorem bit_of_lt {n : Nat} (h : n < 2) : ∃ bit, n = Bool.toNat bit := by
  match n, h with
  | 0, _ => exact ⟨false, rfl⟩
  | 1, _ => exact ⟨true, rfl⟩

theorem Asks.shape_of {form form' f : Fields} {c : RowCheck} (h : Asks form c f) (hform : form = form') :
    Shape form' f := hform ▸ h.shape

section commands
variable (op : Nat) {f : Fields} {p : List Byte} {mn : String}

theorem exists_is_F0 {i : Instr} (h : Shape ⟨op, 0, 0, 0, 0, 0, 0⟩ f) (hi : i.Is mn (opcodeOnly op) p) :
    ∃ i : Instr, i.Is mn f p :=
  ⟨i, hi.of_fields (fields_eq h.opcode (Nat.lt_one_iff.1 h.a) (Nat.lt_one_iff.1 h.b) (Nat.lt_one_iff.1 h.n)
    (Nat.lt_one_iff.1 h.k) h.zero (Nat.lt_one_iff.1 h.imm))⟩

theorem exists_is_FS (mk : StreamId → Instr) (h : Shape ⟨op, 1, 0, 0, 0, 0, 0⟩ f)
    (hmk : ∀ x, (mk x).Is mn { opcodeOnly op with a := x.code } p) : ∃ i : Instr, i.Is mn f p := by
  obtain ⟨x, ha⟩ := streamCode_of_lt h.a
  exact ⟨mk x, (hmk x).of_fields (fields_eq h.opcode ha (Nat.lt_one_iff.1 h.b) (Nat.lt_one_iff.1 h.n)
    (Nat.lt_one_iff.1 h.k) h.zero (Nat.lt_one_iff.1 h.imm))⟩

theorem exists_is_FQ (mk : SeqId → Instr) (h : Shape ⟨op, 1, 0, 0, 0, 0, 0⟩ f)
    (hmk : ∀ a, (mk a).Is mn { opcodeOnly op with a := a.code } p) : ∃ i : Instr, i.Is mn f p := by
  obtain ⟨a, ha⟩ := seqCode_of_lt h.a
  exact ⟨mk a, (hmk a).of_fields (fields_eq h.opcode ha (Nat.lt_one_iff.1 h.b) (Nat.lt_one_iff.1 h.n)
    (Nat.lt_one_iff.1 h.k) h.zero (Nat.lt_one_iff.1 h.imm))⟩

theorem exists_is_FSB (mk : StreamId → Byte → Instr) (h : Shape ⟨op, 1, 0, 0, 0, 0, 8⟩ f)
    (hmk : ∀ x v, (mk x v).Is mn { opcodeOnly op with a := x.code, imm := v.toNat } p) :
    ∃ i : Instr, i.Is mn f p := by
  obtain ⟨x, ha⟩ := streamCode_of_lt h.a
  have hi : f.imm = (BitVec.ofNat 8 f.imm).toNat := by rw [BitVec.toNat_ofNat, Nat.mod_eq_of_lt h.imm]
  exact ⟨mk x _, (hmk x _).of_fields (fields_eq h.opcode ha (Nat.lt_one_iff.1 h.b) (Nat.lt_one_iff.1 h.n)
    (Nat.lt_one_iff.1 h.k) h.zero hi)⟩

theorem exists_is_FSN (mk : StreamId → Nat → Instr) (h : Shape ⟨op, 1, 0, 6, 0, 0, 0⟩ f)
    (hmk : ∀ x, (mk x f.n).Is mn { opcodeOnly op with a := x.code, n := f.n } p) : ∃ i : Instr, i.Is mn f p := by
  obtain ⟨x, ha⟩ := streamCode_of_lt h.a
  exact ⟨mk x f.n, (hmk x).of_fields (fields_eq h.opcode ha (Nat.lt_one_iff.1 h.b) rfl (Nat.lt_one_iff.1 h.k) h.zero
    (Nat.lt_one_iff.1 h.imm))⟩

theorem exists_is_FSNP (mk : StreamId → Nat → Nat → Instr) (h : Shape ⟨op, 1, 0, 6, 0, 0, 32⟩ f)
    (hmk : ∀ x, (mk x f.n f.imm).Is mn { opcodeOnly op with a := x.code, n := f.n, imm := f.imm } p) :
    ∃ i : Instr, i.Is mn f p := by
  obtain ⟨x, ha⟩ := streamCode_of_lt h.a
  exact ⟨mk x f.n f.imm, (hmk x).of_fields (fields_eq h.opcode ha (Nat.lt_one_iff.1 h.b) rfl (Nat.lt_one_iff.1 h.k)
    h.zero rfl)⟩

theorem exists_is_FQNP (mk : SeqId → Nat → Nat → Instr) (h : Shape ⟨op, 1, 0, 6, 0, 0, 32⟩ f)
    (hmk : ∀ a, (mk a f.n f.imm).Is mn { opcodeOnly op with a := a.code, n := f.n, imm := f.imm } p) :
    ∃ i : Instr, i.Is mn f p := by
  obtain ⟨a, ha⟩ := seqCode_of_lt h.a
  exact ⟨mk a f.n f.imm, (hmk a).of_fields (fields_eq h.opcode ha (Nat.lt_one_iff.1 h.b) rfl (Nat.lt_one_iff.1 h.k)
    h.zero rfl)⟩

theorem exists_is_FSQ (mk : StreamId → SeqId → Instr) (h : Shape ⟨op, 1, 1, 0, 0, 0, 0⟩ f)
    (hmk : ∀ x q, (mk x q).Is mn { opcodeOnly op with a := x.code, b := q.code } p) : ∃ i : Instr, i.Is mn f p := by
  obtain ⟨x, ha⟩ := streamCode_of_lt h.a
  obtain ⟨q, hb⟩ := seqCode_of_lt h.b
  exact ⟨mk x q, (hmk x q).of_fields (fields_eq h.opcode ha hb (Nat.lt_one_iff.1 h.n) (Nat.lt_one_iff.1 h.k) h.zero
    (Nat.lt_one_iff.1 h.imm))⟩

theorem exists_is_FQQ (mk : SeqId → SeqId → Instr) (h : Shape ⟨op, 1, 1, 0, 0, 0, 0⟩ f)
    (hmk : ∀ a b, (mk a b).Is mn { opcodeOnly op with a := a.code, b := b.code } p) : ∃ i : Instr, i.Is mn f p := by
  obtain ⟨a, ha⟩ := seqCode_of_lt h.a
  obtain ⟨b, hb⟩ := seqCode_of_lt h.b
  exact ⟨mk a b, (hmk a b).of_fields (fields_eq h.opcode ha hb (Nat.lt_one_iff.1 h.n) (Nat.lt_one_iff.1 h.k) h.zero
    (Nat.lt_one_iff.1 h.imm))⟩

theorem exists_is_FQ1 (mk : SeqId → Bool → Instr) (h : Shape ⟨op, 1, 0, 0, 0, 0, 1⟩ f)
    (hmk : ∀ a bit, (mk a bit).Is mn { opcodeOnly op with a := a.code, imm := bit.toNat } p) :
    ∃ i : Instr, i.Is mn f p := by
  obtain ⟨a, ha⟩ := seqCode_of_lt h.a
  obtain ⟨bit, hi⟩ := bit_of_lt h.imm
  exact ⟨mk a bit, (hmk a bit).of_fields (fields_eq h.opcode ha (Nat.lt_one_iff.1 h.b) (Nat.lt_one_iff.1 h.n)
    (Nat.lt_one_iff.1 h.k) h.zero hi)⟩

theorem exists_is_FSK (mk : StreamId → BitVec 32 → Fin 8 → Instr) (h : Shape ⟨op, 1, 0, 0, 3, 0, 32⟩ f)
    (hmk : ∀ x idx k, (mk x idx k).Is mn { opcodeOnly op with a := x.code, k := k.val, imm := idx.toNat } p) :
    ∃ i : Instr, i.Is mn f p := by
  obtain ⟨x, ha⟩ := streamCode_of_lt h.a
  have hi : f.imm = (BitVec.ofNat 32 f.imm).toNat := by rw [BitVec.toNat_ofNat, Nat.mod_eq_of_lt h.imm]
  exact ⟨mk x _ ⟨f.k, h.k⟩, (hmk x _ _).of_fields (fields_eq h.opcode ha (Nat.lt_one_iff.1 h.b)
    (Nat.lt_one_iff.1 h.n) rfl h.zero hi)⟩

theorem exists_is_FSL (mk : Nat → Nat → Instr) (h : Shape ⟨op, 0, 0, 0, 0, 0, 16⟩ f) (hc : RowCheck.pair.Holds f)
    (hmk : ∀ short long, wfPair short long = true →
      (mk short long).Is mn { opcodeOnly op with imm := long * 2 ^ 8 + short } p) :
    ∃ i : Instr, i.Is mn f p := by
  have hlt : f.imm / 2 ^ 8 < 2 ^ 8 := Nat.div_lt_of_lt_mul h.imm
  have hi : f.imm = f.imm / 2 ^ 8 % 2 ^ 8 * 2 ^ 8 + f.imm % 2 ^ 8 := by
    rw [Nat.mod_eq_of_lt hlt, Nat.div_add_mod']
  exact ⟨_, (hmk _ _ hc).of_fields (fields_eq h.opcode (Nat.lt_one_iff.1 h.a) (Nat.lt_one_iff.1 h.b)
    (Nat.lt_one_iff.1 h.n) (Nat.lt_one_iff.1 h.k) h.zero hi)⟩

theorem exists_is_FALG (mk : Nat → Instr) (h : Shape ⟨op, 0, 0, 0, 0, 0, 3⟩ f)
    (hmk : ∀ alg, wfAlg alg = true → (mk alg).Is mn { opcodeOnly op with imm := alg } p) :
    ∃ i : Instr, i.Is mn f p :=
  ⟨mk f.imm, (hmk f.imm (wfAlg_iff.2 (Nat.le_of_lt_succ h.imm))).of_fields (fields_eq h.opcode (Nat.lt_one_iff.1 h.a)
    (Nat.lt_one_iff.1 h.b) (Nat.lt_one_iff.1 h.n) (Nat.lt_one_iff.1 h.k) h.zero rfl)⟩

end commands

/-- The fields and payload a row takes are a command's. -/
theorem exists_is_of_takes : ∀ r ∈ opRows, ∀ (f : Fields) (p : List Byte), r.Takes f p →
    ∃ i : Instr, i.Is r.mnemonic f p := by
  simp only [opRows, bsRows, otherRows, List.cons_append, List.nil_append, List.forall_mem_cons]
  refine ⟨?bsNew, ?bsLoad, ?bsPut, ?bsPutf, ?bsPutb, ?bsPutq, ?bsRdb, ?bsPkb, ?bsRd, ?bsPk, ?bsSeek, ?bsAtend,
    ?bsTell, ?bsLen, ?bsDump, ?qClr, ?qAdd1, ?qAddn, ?qAddq, ?qUint, ?qHash, ?qLen, ?hufEnc, ?hufDec, ?recEnc,
    ?recDec, ?drvComp, ?drvDecomp, List.forall_mem_nil _⟩
  case bsNew =>
    exact fun _ _ ⟨h, .inr hp⟩ => exists_is_FS 0x00 .bsNew (h.shape_of (by decide)) fun _ => ⟨rfl, rfl, rfl, hp.symm⟩
  case bsLoad =>
    exact fun _ p ⟨h, _⟩ => exists_is_FS 0x01 (.bsLoad · p) (h.shape_of (by decide))
      fun _ => ⟨rfl, rfl, rfl, rfl⟩
  case bsPut =>
    exact fun _ _ ⟨h, .inr hp⟩ => exists_is_FSB 0x02 .bsPut (h.shape_of (by decide))
      fun _ _ => ⟨rfl, rfl, rfl, hp.symm⟩
  case bsPutf =>
    exact fun _ _ ⟨h, .inr hp⟩ => exists_is_FSB 0x03 .bsPutf (h.shape_of (by decide))
      fun _ _ => ⟨rfl, rfl, rfl, hp.symm⟩
  case bsPutb =>
    exact fun _ _ ⟨h, .inr hp⟩ => exists_is_FSNP 0x04 .bsPutb (h.shape_of (by decide))
      fun _ => ⟨rfl, h.check, rfl, hp.symm⟩
  case bsPutq =>
    exact fun _ _ ⟨h, .inr hp⟩ => exists_is_FSQ 0x05 .bsPutq (h.shape_of (by decide))
      fun _ _ => ⟨rfl, rfl, rfl, hp.symm⟩
  case bsRdb =>
    exact fun _ _ ⟨h, .inr hp⟩ => exists_is_FSN 0x06 .bsRdb (h.shape_of (by decide))
      fun _ => ⟨rfl, h.check, rfl, hp.symm⟩
  case bsPkb =>
    exact fun _ _ ⟨h, .inr hp⟩ => exists_is_FSN 0x07 .bsPkb (h.shape_of (by decide))
      fun _ => ⟨rfl, h.check, rfl, hp.symm⟩
  case bsRd =>
    exact fun _ _ ⟨h, .inr hp⟩ => exists_is_FS 0x08 .bsRd (h.shape_of (by decide)) fun _ => ⟨rfl, rfl, rfl, hp.symm⟩
  case bsPk =>
    exact fun _ _ ⟨h, .inr hp⟩ => exists_is_FS 0x09 .bsPk (h.shape_of (by decide)) fun _ => ⟨rfl, rfl, rfl, hp.symm⟩
  case bsSeek =>
    exact fun _ _ ⟨h, .inr hp⟩ => exists_is_FSK 0x0A .bsSeek (h.shape_of (by decide))
      fun _ _ _ => ⟨rfl, rfl, rfl, hp.symm⟩
  case bsAtend =>
    exact fun _ _ ⟨h, .inr hp⟩ => exists_is_FS 0x0B .bsAtend (h.shape_of (by decide))
      fun _ => ⟨rfl, rfl, rfl, hp.symm⟩
  case bsTell =>
    exact fun _ _ ⟨h, .inr hp⟩ => exists_is_FS 0x0C .bsTell (h.shape_of (by decide)) fun _ => ⟨rfl, rfl, rfl, hp.symm⟩
  case bsLen =>
    exact fun _ _ ⟨h, .inr hp⟩ => exists_is_FS 0x0D .bsLen (h.shape_of (by decide)) fun _ => ⟨rfl, rfl, rfl, hp.symm⟩
  case bsDump =>
    exact fun _ _ ⟨h, .inr hp⟩ => exists_is_FS 0x0E .bsDump (h.shape_of (by decide)) fun _ => ⟨rfl, rfl, rfl, hp.symm⟩
  case qClr =>
    exact fun _ _ ⟨h, .inr hp⟩ => exists_is_FQ 0x10 .qClr (h.shape_of (by decide)) fun _ => ⟨rfl, rfl, rfl, hp.symm⟩
  case qAdd1 =>
    exact fun _ _ ⟨h, .inr hp⟩ => exists_is_FQ1 0x11 .qAdd1 (h.shape_of (by decide))
      fun _ _ => ⟨rfl, rfl, rfl, hp.symm⟩
  case qAddn =>
    exact fun _ _ ⟨h, .inr hp⟩ => exists_is_FQNP 0x12 .qAddn (h.shape_of (by decide))
      fun _ => ⟨rfl, h.check, rfl, hp.symm⟩
  case qAddq =>
    exact fun _ _ ⟨h, .inr hp⟩ => exists_is_FQQ 0x13 .qAddq (h.shape_of (by decide))
      fun _ _ => ⟨rfl, rfl, rfl, hp.symm⟩
  case qUint =>
    exact fun _ _ ⟨h, .inr hp⟩ => exists_is_FQ 0x14 .qUint (h.shape_of (by decide)) fun _ => ⟨rfl, rfl, rfl, hp.symm⟩
  case qHash =>
    exact fun _ _ ⟨h, .inr hp⟩ => exists_is_FQ 0x15 .qHash (h.shape_of (by decide)) fun _ => ⟨rfl, rfl, rfl, hp.symm⟩
  case qLen =>
    exact fun _ _ ⟨h, .inr hp⟩ => exists_is_FQ 0x16 .qLen (h.shape_of (by decide)) fun _ => ⟨rfl, rfl, rfl, hp.symm⟩
  case hufEnc =>
    exact fun _ _ ⟨h, .inr hp⟩ => exists_is_F0 0x20 (i := .hufEnc) (h.shape_of (by decide)) ⟨rfl, rfl, rfl, hp.symm⟩
  case hufDec =>
    exact fun _ _ ⟨h, .inr hp⟩ => exists_is_F0 0x21 (i := .hufDec) (h.shape_of (by decide)) ⟨rfl, rfl, rfl, hp.symm⟩
  case recEnc =>
    exact fun _ _ ⟨h, .inr hp⟩ => exists_is_FSL 0x22 .recEnc (h.shape_of (by decide)) h.check
      fun _ _ hw => ⟨rfl, hw, rfl, hp.symm⟩
  case recDec =>
    exact fun _ _ ⟨h, .inr hp⟩ => exists_is_FSL 0x23 .recDec (h.shape_of (by decide)) h.check
      fun _ _ hw => ⟨rfl, hw, rfl, hp.symm⟩
  case drvComp =>
    exact fun _ p ⟨h, _⟩ => exists_is_FALG 0x30 (.drvComp · p) (h.shape_of (by decide))
      fun _ hw => ⟨rfl, hw, rfl, rfl⟩
  case drvDecomp =>
    exact fun _ p ⟨h, _⟩ => exists_is_FALG 0x31 (.drvDecomp · p) (h.shape_of (by decide))
      fun _ hw => ⟨rfl, hw, rfl, rfl⟩

/-! ### The statements about the decoder and the table -/

/-- A command that decodes is a row's command. -/
theorem is_of_decode {c : Command} {i : Instr} (h : decode c = .ok i) :
    ∃ r ∈ opRows, r.Takes (fieldsOf c.word) c.payload ∧ i.Is r.mnemonic (fieldsOf c.word) c.payload := by
  obtain ⟨hz, h⟩ := decode_ok.1 h
  obtain ⟨-, -, -, -, hk, -, hi⟩ := fieldsOf_fit c.word
  obtain ⟨r, hr, htakes⟩ := takes_of_decodeFields hz hk hi h
  obtain ⟨j, hj⟩ := exists_is_of_takes r hr _ _ htakes
  have hij : j = i := Except.ok.inj (hj.decodes.symm.trans h)
  exact ⟨r, hr, htakes, hij ▸ hj⟩

/-- Settles O2: the fields and the payload are the command's, and a word is made of its fields. -/
theorem decodeThenEncodeIsIdentity : Obligations.DecodeThenEncodeIsIdentity := by
  intro c i h
  obtain ⟨r, -, -, -, hwf, hfields, hpayload⟩ := is_of_decode h
  exact ⟨hwf, by rw [encode, hfields, hpayload, wordOf_fieldsOf]⟩

/-- Settles O3: a command that decodes is taken by a row, and what a row takes is a command's encoding. -/
theorem legalExactlyWhenATableRowAdmits : Obligations.LegalExactlyWhenATableRowAdmits := by
  intro c
  refine ⟨fun ⟨i, h⟩ => ?_, fun ⟨r, hr, hselected⟩ => ?_⟩
  · obtain ⟨r, hr, htakes, -⟩ := is_of_decode h
    exact ⟨r, hr, (takes_iff hr c).2 htakes⟩
  · have htakes := (takes_iff hr c).1 hselected
    obtain ⟨i, hi⟩ := exists_is_of_takes r hr _ _ htakes
    exact ⟨i, decode_ok.2 ⟨htakes.asks.shape.zero, hi.decodes⟩⟩

/-- No two rows have one opcode. -/
theorem rows_opcode_inj : ∀ r ∈ opRows, ∀ r' ∈ opRows, r.form.opcode = r'.form.opcode → r = r' := by decide

/-- Settles O4: the opcode of a word is the opcode of each row it selects. -/
theorem tableRowsAreDisjointAndNameTheCommand : Obligations.TableRowsAreDisjointAndNameTheCommand := by
  refine ⟨fun r hr r' hr' w h h' => rows_opcode_inj r hr r' hr' ?_, fun c i h => ?_⟩
  · exact ((selects_iff_shape hr w).1 h).opcode.symm.trans ((selects_iff_shape hr' w).1 h').opcode
  · obtain ⟨r, hr, htakes, hi⟩ := is_of_decode h
    exact ⟨r, hr, ((takes_iff hr c).2 htakes).1, hi.mnemonic.symm⟩

/-! ### The words of `95_test_vectors.md` section 2.6 -/

/-- Settles O5. -/
theorem legalWordsDecodeToTheirCommands : Obligations.LegalWordsDecodeToTheirCommands := by
  unfold Obligations.LegalWordsDecodeToTheirCommands
  decide

/-- Settles O6. -/
theorem illegalWordsAreRejected : Obligations.IllegalWordsAreRejected := by
  unfold Obligations.IllegalWordsAreRejected
  decide

end Sys2Proof
end
